-- ==== Sys2Proof/Word.lean ====
section
/-! DEFINITION. The machine's words and names: the 32-bit command word and operand word (30_encoding.md R120,
10_state.md R34), the 64-bit control registers and PRNG words (R40, R60, R61), register and core numbers (R122). -/

namespace Sys2Proof

/-- A 32-bit word: a command word (R120) or one word of an operand register (R34). -/
abbrev Word32 := BitVec 32

/-- A 64-bit word: a control register (R40) or a PRNG state word (R60, R61). -/
abbrev Word64 := BitVec 64

/-- The number of an operand register X0..X7, a 3-bit field of a command (R31, R122). -/
abbrev RegId := Fin 8

/-- The index of a PRNG core, a 3-bit field of a command (R122). -/
abbrev CoreId := Fin 8

end Sys2Proof
end

