-- ==== Sys2Proof/Config.lean ====
section
/-! DEFINITION. What an implementation fixes (00_scope.md section 3) and the free values. `Params` is the list of the
parameters "the model takes as an argument"; `Config.default` is the instance `State.reset` uses: the spec's default
where it gives one, and a constant with no value of its own where the spec leaves the parameter OPEN (log entries 5, 18).
Nothing can be proved of an opaque constant but what holds of every value of its type. -/

namespace Sys2Proof

/-- MODEXP_IMPL (00_scope.md R10): it changes no result. -/
inductive ModexpImpl where
  | binary
  | montgomery
deriving DecidableEq, Repr

/-- The four state words of a Xoshiro core (10_state.md R61). -/
structure XoCore where
  s0 : Word64
  s1 : Word64
  s2 : Word64
  s3 : Word64
deriving DecidableEq, Repr

/-- The implementation parameters (00_scope.md section 3). -/
structure Params where
  /-- OPW, the operand width in bits (R7). -/
  opw : Nat
  /-- NPCG, the number of PCG cores (R9). -/
  npcg : Nat
  /-- NXO, the number of Xoshiro cores (R9). -/
  nxo : Nat
  /-- MODEXP_IMPL (R10). -/
  modexpImpl : ModexpImpl
  /-- RETRY_MAX (R8). -/
  retryMax : Nat
  /-- PCG_DEF_STATE (R11). -/
  pcgDefState : Word64
  /-- PCG_DEF_INC (R11). -/
  pcgDefInc : Word64
  /-- XO_DEF0..XO_DEF3 (R12). -/
  xoDef : XoCore
  /-- ABASE, the aperture's base address. -/
  abase : Nat
deriving DecidableEq, Repr

/-- The legal values of the parameters (00_scope.md section 3, R11, R12). -/
def Params.legal (p : Params) : Bool :=
  (p.opw == 256 || p.opw == 512 || p.opw == 1024 || p.opw == 2048 || p.opw == 4096 || p.opw == 8192)
    && (1 ≤ p.npcg && p.npcg ≤ 8) && (1 ≤ p.nxo && p.nxo ≤ 8)
    && (1 ≤ p.retryMax && p.retryMax < 2 ^ 24)
    && p.pcgDefInc.getLsbD 0
    && !(p.xoDef == ⟨0, 0, 0, 0⟩)
    && p.abase % 0x4000 == 0

/-- PCG_DEF_STATE is OPEN (R11, D7). -/
opaque Config.pcgDefState : Word64

/-- Bits [63:1] of PCG_DEF_INC, which is OPEN but odd (R11, D7). -/
opaque Config.pcgDefIncHigh : BitVec 63

/-- The OPEN words behind XO_DEF0..XO_DEF3 (R12, D8). -/
opaque Config.xoDefRaw0 : Word64
opaque Config.xoDefRaw1 : Word64
opaque Config.xoDefRaw2 : Word64
opaque Config.xoDefRaw3 : Word64

/-- ABASE / 16 KiB, which is OPEN (the platform's, D10). -/
opaque Config.abaseBlock : Nat

/-- A free value: the `index`-th value the spec leaves unspecified in a run, `nbytes` bytes wide. It stands for the
data of an operand-window load while BUSY (U4) and for the read data of a bus error (U5); log entry 8. -/
opaque Config.freeData (index nbytes : Nat) : BitVec (8 * nbytes)

/-- XO_DEF0..XO_DEF3 "may not all be zero" (R12): the open words, but for the one quadruple the rule excludes. -/
def Config.xoDef : XoCore :=
  if Config.xoDefRaw0 = 0 ∧ Config.xoDefRaw1 = 0 ∧ Config.xoDefRaw2 = 0 ∧ Config.xoDefRaw3 = 0 then ⟨1, 0, 0, 0⟩
  else ⟨Config.xoDefRaw0, Config.xoDefRaw1, Config.xoDefRaw2, Config.xoDefRaw3⟩

/-- The parameters of the machine `State.reset` describes: the defaults of 00_scope.md section 3. -/
def Config.default : Params where
  opw := 4096
  npcg := 2
  nxo := 1
  modexpImpl := .binary
  retryMax := 100000
  pcgDefState := Config.pcgDefState
  pcgDefInc := Config.pcgDefIncHigh ++ 1#1
  xoDef := Config.xoDef
  abase := 0x4000 * Config.abaseBlock

end Sys2Proof
end

