-- ==== Sys2Proof/Syntax.lean ====
section
/-! DEFINITION. The command set: one constructor per row of the opcode map (30_encoding.md R125), with the fields
its format uses (R124) in the order of the assembly syntax (R141). Unused fields have no place here: a word in which
one is not zero decodes to no command (R130). -/

namespace Sys2Proof

/-- The seventeen commands (00_scope.md R3). -/
inductive Instr where
  /-- `RESIDUE xD, xA, xB` (R161). -/
  | residue (rd ra rb : RegId)
  /-- `MODPOW xD, xA, xB, xC` (R166). -/
  | modpow (rd ra rb rc : RegId)
  /-- `JACOBI xD, xA, xB` (R171). -/
  | jacobi (rd ra rb : RegId)
  /-- `MR2 xD, xA` (R201). -/
  | mr2 (rd ra : RegId)
  /-- `PCG.SEED pE, xA` (R225). -/
  | pcgSeed (e : CoreId) (ra : RegId)
  /-- `PCG.DFLT pE` (R226). -/
  | pcgDflt (e : CoreId)
  /-- `PCG.NEXT xD, pE` (R227). -/
  | pcgNext (rd : RegId) (e : CoreId)
  /-- `PCG.BND32 xD, pE, xA` (R228). -/
  | pcgBnd32 (rd : RegId) (e : CoreId) (ra : RegId)
  /-- `XO.SEED oE, xA` (R246). -/
  | xoSeed (e : CoreId) (ra : RegId)
  /-- `XO.DFLT oE` (R247). -/
  | xoDflt (e : CoreId)
  /-- `XO.NEXT xD, oE` (R248). -/
  | xoNext (rd : RegId) (e : CoreId)
  /-- `XO.BND64 xD, oE, xA` (R249). -/
  | xoBnd64 (rd : RegId) (e : CoreId) (ra : RegId)
  /-- `XO.BND32 xD, oE, xA` (R250). -/
  | xoBnd32 (rd : RegId) (e : CoreId) (ra : RegId)
  /-- `FLT32.P xD, pE` (R285). -/
  | flt32P (rd : RegId) (e : CoreId)
  /-- `FLT32.X xD, oE` (R286). -/
  | flt32X (rd : RegId) (e : CoreId)
  /-- `FLT64.X xD, oE` (R287). -/
  | flt64X (rd : RegId) (e : CoreId)
  /-- `FLT64.PP xD, pE:pF` (R288); `e = f` is legal. -/
  | flt64PP (rd : RegId) (e f : CoreId)
deriving DecidableEq, Repr

end Sys2Proof
end

