-- ==== Sys2Proof/WellFormed.lean ====
section
/-! DEFINITION. Well-formed commands: the core-index checks (30_encoding.md R128). Register numbers and core indices are
three bits wide by type (R122), and a command has no other field, so nothing else can be wrong with one. -/

namespace Sys2Proof

/-- The core-index condition of a command's row (R125, R128). -/
def Instr.coresPresent (npcg nxo : Nat) : Instr → Bool
  | .residue _ _ _ => true
  | .modpow _ _ _ _ => true
  | .jacobi _ _ _ => true
  | .mr2 _ _ => true
  | .pcgSeed e _ => e.val < npcg
  | .pcgDflt e => e.val < npcg
  | .pcgNext _ e => e.val < npcg
  | .pcgBnd32 _ e _ => e.val < npcg
  | .xoSeed e _ => e.val < nxo
  | .xoDflt e => e.val < nxo
  | .xoNext _ e => e.val < nxo
  | .xoBnd64 _ e _ => e.val < nxo
  | .xoBnd32 _ e _ => e.val < nxo
  | .flt32P _ e => e.val < npcg
  | .flt32X _ e => e.val < nxo
  | .flt64X _ e => e.val < nxo
  | .flt64PP _ e f => e.val < npcg && f.val < npcg

/-- A command is well formed on a machine with parameters `p`. -/
def Instr.wellFormed (p : Params) (i : Instr) : Bool :=
  i.coresPresent p.npcg p.nxo

end Sys2Proof
end

