-- ==== Sys2Proof/Decode.lean ====
section
/-! DEFINITION. The command encoding (30_encoding.md): the fields of a word (R121), the opcode map (R125), the decoder
(R129), total on every 32-bit word and rejecting by name (R130), and the encoder, written from the formats of R124. -/

namespace Sys2Proof

/-! ### Fields (R121, R122) -/

/-- OP, bits [31:26]. -/
def fieldOP (c : Word32) : BitVec 6 := c.extractLsb' 26 6
/-- RD, bits [25:23]. -/
def fieldRD (c : Word32) : RegId := (c.extractLsb' 23 3).toFin
/-- RA, bits [22:20]. -/
def fieldRA (c : Word32) : RegId := (c.extractLsb' 20 3).toFin
/-- RB, bits [19:17]. -/
def fieldRB (c : Word32) : RegId := (c.extractLsb' 17 3).toFin
/-- RC, bits [16:14]. -/
def fieldRC (c : Word32) : RegId := (c.extractLsb' 14 3).toFin
/-- E, bits [13:11]. -/
def fieldE (c : Word32) : CoreId := (c.extractLsb' 11 3).toFin
/-- F, bits [10:8]. -/
def fieldF (c : Word32) : CoreId := (c.extractLsb' 8 3).toFin
/-- S, bits [7:6]. -/
def fieldS (c : Word32) : BitVec 2 := c.extractLsb' 6 2

/-! ### The opcode map (R125) -/

/-- One row of the opcode map: a word `c` spells its command when `c &&& mask = pat`. -/
structure Row where
  pat : Word32
  mask : Word32
  build : Word32 → Instr

/-- The rows of the arithmetic units: OP 0x01 to 0x04. -/
def rowsArithmetic : List Row := [
  ⟨0x04000000, 0xFC01FFFF, fun c => .residue (fieldRD c) (fieldRA c) (fieldRB c)⟩,
  ⟨0x08000000, 0xFC003FFF, fun c => .modpow (fieldRD c) (fieldRA c) (fieldRB c) (fieldRC c)⟩,
  ⟨0x0C000000, 0xFC01FFFF, fun c => .jacobi (fieldRD c) (fieldRA c) (fieldRB c)⟩,
  ⟨0x10000000, 0xFC0FFFFF, fun c => .mr2 (fieldRD c) (fieldRA c)⟩]

/-- The rows of the PCG cores: OP 0x10 to 0x13. -/
def rowsPcg : List Row := [
  ⟨0x40000000, 0xFF8FC7FF, fun c => .pcgSeed (fieldE c) (fieldRA c)⟩,
  ⟨0x44000000, 0xFFFFC7FF, fun c => .pcgDflt (fieldE c)⟩,
  ⟨0x48000000, 0xFC7FC7FF, fun c => .pcgNext (fieldRD c) (fieldE c)⟩,
  ⟨0x4C000000, 0xFC0FC7FF, fun c => .pcgBnd32 (fieldRD c) (fieldE c) (fieldRA c)⟩]

/-- The rows of the Xoshiro cores: OP 0x18 to 0x1C. -/
def rowsXo : List Row := [
  ⟨0x60000000, 0xFF8FC7FF, fun c => .xoSeed (fieldE c) (fieldRA c)⟩,
  ⟨0x64000000, 0xFFFFC7FF, fun c => .xoDflt (fieldE c)⟩,
  ⟨0x68000000, 0xFC7FC7FF, fun c => .xoNext (fieldRD c) (fieldE c)⟩,
  ⟨0x6C000000, 0xFC0FC7FF, fun c => .xoBnd64 (fieldRD c) (fieldE c) (fieldRA c)⟩,
  ⟨0x70000000, 0xFC0FC7FF, fun c => .xoBnd32 (fieldRD c) (fieldE c) (fieldRA c)⟩]

/-- The rows of the float synthesizer: OP 0x20 and 0x21, told apart by S (R127). -/
def rowsFloat : List Row := [
  ⟨0x80000000, 0xFC7FC7FF, fun c => .flt32P (fieldRD c) (fieldE c)⟩,
  ⟨0x80000040, 0xFC7FC7FF, fun c => .flt32X (fieldRD c) (fieldE c)⟩,
  ⟨0x84000040, 0xFC7FC7FF, fun c => .flt64X (fieldRD c) (fieldE c)⟩,
  ⟨0x84000080, 0xFC7FC0FF, fun c => .flt64PP (fieldRD c) (fieldE c) (fieldF c)⟩]

/-- The opcode map. No two rows overlap (R125). -/
def opcodeMap : List Row := rowsArithmetic ++ rowsPcg ++ rowsXo ++ rowsFloat

/-! ### The decoder (R129) -/

/-- Why a word is ILLEGAL: the cases (a) to (e) of R130. -/
inductive Illegal where
  /-- (a) OP = 0x00. -/
  | opZero
  /-- (b) an OP that R125 does not assign. -/
  | opUnassigned
  /-- (c) an assigned OP with a non-zero unused field or a non-zero Z. -/
  | strayBits
  /-- (d) OP 0x20 with S in {2, 3}, or OP 0x21 with S in {0, 3}. -/
  | badSource
  /-- (e) a core index that fails R128. -/
  | coreAbsent
deriving DecidableEq, Repr

/-- The opcodes R125 assigns. -/
def assignedOps : List (BitVec 6) :=
  [0x01, 0x02, 0x03, 0x04, 0x10, 0x11, 0x12, 0x13, 0x18, 0x19, 0x1A, 0x1B, 0x1C, 0x20, 0x21]

/-- The case of R130 that a word no row matches falls under. -/
def whyIllegal (c : Word32) : Illegal :=
  if fieldOP c = 0 then .opZero
  else if fieldOP c ∉ assignedOps then .opUnassigned
  else if fieldOP c = 0x20 ∧ fieldS c ∈ [2, 3] then .badSource
  else if fieldOP c = 0x21 ∧ fieldS c ∈ [0, 3] then .badSource
  else .strayBits

/-- The decoder of R129 on a machine with `npcg` PCG cores and `nxo` Xoshiro cores. -/
def decode (npcg nxo : Nat) (c : Word32) : Except Illegal Instr :=
  match opcodeMap.find? (fun r => c &&& r.mask == r.pat) with
  | some r => if (r.build c).coresPresent npcg nxo then .ok (r.build c) else .error .coreAbsent
  | none => .error (whyIllegal c)

/-- What the decoder reads from a word given as a number, on a machine with the default core counts (log entry 22).
Every command is one 32-bit word (R120), so the bits from `nbits` up are zeros. -/
def decodeTableWord (nbits w : Nat) : Option Instr :=
  (decode Config.default.npcg Config.default.nxo (BitVec.ofNat 32 (w % 2 ^ nbits))).toOption

/-! ### The encoder (R121, R124) -/

/-- The three bits of a register number or core index. -/
def bits3 (n : Fin 8) : BitVec 3 := BitVec.ofFin n

/-- The word with the given fields, Z being zero (R121). -/
def packWord (op : BitVec 6) (rd ra rb rc e f : Fin 8) (src : BitVec 2) : Word32 :=
  op ++ bits3 rd ++ bits3 ra ++ bits3 rb ++ bits3 rc ++ bits3 e ++ bits3 f ++ src ++ 0#6

/-- The word of a command: its opcode, its fields, and zero in every field its format leaves unused (R124, R125). -/
def encode : Instr → Word32
  | .residue rd ra rb => packWord 0x01 rd ra rb 0 0 0 0
  | .modpow rd ra rb rc => packWord 0x02 rd ra rb rc 0 0 0
  | .jacobi rd ra rb => packWord 0x03 rd ra rb 0 0 0 0
  | .mr2 rd ra => packWord 0x04 rd ra 0 0 0 0 0
  | .pcgSeed e ra => packWord 0x10 0 ra 0 0 e 0 0
  | .pcgDflt e => packWord 0x11 0 0 0 0 e 0 0
  | .pcgNext rd e => packWord 0x12 rd 0 0 0 e 0 0
  | .pcgBnd32 rd e ra => packWord 0x13 rd ra 0 0 e 0 0
  | .xoSeed e ra => packWord 0x18 0 ra 0 0 e 0 0
  | .xoDflt e => packWord 0x19 0 0 0 0 e 0 0
  | .xoNext rd e => packWord 0x1A rd 0 0 0 e 0 0
  | .xoBnd64 rd e ra => packWord 0x1B rd ra 0 0 e 0 0
  | .xoBnd32 rd e ra => packWord 0x1C rd ra 0 0 e 0 0
  | .flt32P rd e => packWord 0x20 rd 0 0 0 e 0 0
  | .flt32X rd e => packWord 0x20 rd 0 0 0 e 0 1
  | .flt64X rd e => packWord 0x21 rd 0 0 0 e 0 1
  | .flt64PP rd e f => packWord 0x21 rd 0 0 0 e f 2

end Sys2Proof
end

