-- ==== Sys2Proof/Machine/State.lean ====
section
/-! DEFINITION. The machine's state, all of it plain data: the architectural state of 10_state.md R72, the fault mark and
the access history a model keeps (R72), the parameters (00_scope.md section 3), and two fields of the model's own, the
turns still to come and the index of the next free value. UFN-MEE has no program counter (R35) and no memory of its own
(R70, R81): the aperture is a view of these registers. -/

namespace Sys2Proof.Machine

/-- One 32-bit word of an operand register, with the model's written flag (R34). -/
structure OpWord where
  bits : Word32
  written : Bool
deriving DecidableEq, Repr

/-- An operand register: its OPW/32 words, word 0 holding bits [31:0] (R31, R84). -/
abbrev OpReg := List OpWord

/-- A PCG core: PS, the state, and PI, the increment (R60). -/
structure PcgCore where
  ps : Word64
  pi : Word64
deriving DecidableEq, Repr

/-- A host access (20_memory.md R80): a load of `n` bytes at a host address, or a store of `v`, an `n`-byte value. -/
inductive Access where
  | load (addr n : Nat)
  | store (addr n v : Nat)
deriving DecidableEq, Repr

/-- What the host gets back from an access. -/
inductive Response where
  /-- A legal load's value, an unsigned `n`-byte number (R80). -/
  | loaded (v : Nat)
  /-- A legal store was performed (or dropped, R91). -/
  | stored
  /-- A bus error (R89); a load's read data is a free value that "must not be used" (U5), and a store has none. -/
  | busError (readData : Option Nat)
  /-- The address is outside the aperture, which UFN-MEE does not decode (R80). -/
  | notDecoded
deriving DecidableEq, Repr

/-- One entry of the access history (R72): the access and its response. -/
structure Exchange where
  access : Access
  response : Response
deriving DecidableEq, Repr

/-- Which agent moves (R30, R329), as an input from outside the block (log entry 6). -/
inductive Turn where
  /-- The host performs an access. -/
  | host (a : Access)
  /-- The engine performs its completion step, if it has one (R30). -/
  | engine
  /-- The platform asserts power-on reset (R370, R372). -/
  | powerOn
deriving DecidableEq, Repr

/-- The error codes of STATUS.ERRCODE that are produced (R50, R322-R324). -/
inductive ErrCode where
  | illegal
  | invalidArg
  | exhausted
deriving DecidableEq, Repr

/-- The machine's state. -/
structure State where
  /-- The implementation parameters: configuration, never changed by a step (log entry 5). -/
  cfg : Params
  /-- X0..X7 (R31), with their written flags (R34). -/
  x : Vector OpReg 8
  /-- LASTCMD, the last command word accepted (R43). -/
  lastcmd : Word32
  /-- PENDING, the hidden latch (R66). -/
  pending : Word32
  /-- STATUS.BUSY (R50). -/
  busy : Bool
  /-- STATUS.DONE (R50, R52). -/
  done : Bool
  /-- STATUS.ERR (R50, R53). -/
  err : Bool
  /-- STATUS.HAZ (R50, R54). -/
  haz : Bool
  /-- STATUS.ERRCODE (R50, R53). -/
  errcode : BitVec 4
  /-- CTRL.IE (R56, R57). -/
  ie : Bool
  /-- PS[e] and PI[e], e < NPCG (R60). -/
  pcg : List PcgCore
  /-- XS[e][0..3], e < NXO (R61). -/
  xo : List XoCore
  /-- The model's fault mark (R72): an operand word was read that nothing had written (R34, R327; log entry 2). -/
  faultMark : Bool
  /-- The host's access history (R72), newest first (log entry 19). -/
  history : List Exchange
  /-- The model's own: the turns still to come, next first (log entry 6). -/
  turns : List Turn
  /-- The model's own: the index of the next free value (log entry 8). -/
  freeIndex : Nat
deriving DecidableEq, Repr

/-- Why a step can stop. -/
inductive Fault where
  /-- Raised by `step` on a store turn whose value does not fit in its `n` bytes: R80 defines no such store
  (0 ≤ v < 2^(8n)), so the turn is no access at all (log entry 11). SAFE: the machine stops where there is nothing the
  hardware could be given. -/
  | storeTooWide
deriving DecidableEq, Repr

/-- Why a command can be refused. -/
inductive Refusal where
  /-- The arm of `exec` has no meaning yet; no arm raises it in this model. SAFE. -/
  | notModelled (mnemonic : String)
deriving DecidableEq, Repr

/-- An operand register after power-on reset: content unspecified, the model's value being 0 (DESIGN CHOICE, log
entry 1), written flags clear (R34, R370). -/
def OpReg.reset (p : Params) : OpReg := List.replicate (p.opw / 32) ⟨0, false⟩

/-- The machine with parameters `p` right after power-on reset (70_reset_and_hazards.md R370). -/
def State.resetWith (p : Params) : State where
  cfg := p
  x := Vector.replicate 8 (OpReg.reset p)
  lastcmd := 0
  pending := 0
  busy := false
  done := false
  err := false
  haz := false
  errcode := 0
  ie := false
  pcg := List.replicate p.npcg ⟨p.pcgDefState, p.pcgDefInc⟩
  xo := List.replicate p.nxo p.xoDef
  faultMark := false
  history := []
  turns := []
  freeIndex := 0

/-- The machine right after power-on reset, with the default parameters. -/
def State.reset : State := State.resetWith Config.default

end Sys2Proof.Machine
end

