-- ==== Sys2Proof/Machine/Flags.lean ====
section
/-! DEFINITION. STATUS, CTRL and the interrupt output (10_state.md sections 5 and 6, 60_exceptions.md section 4). The
block has no arithmetic condition codes: "These flags are the block's only condition codes. No command reads them" (R50). -/

namespace Sys2Proof.Machine

/-- ERRCODE's value for an error (R50). -/
def ErrCode.code : ErrCode → BitVec 4
  | .illegal => 1
  | .invalidArg => 2
  | .exhausted => 3

/-- STATUS as it is read (R50). -/
def State.statusWord (s : State) : Word64 :=
  0#56 ++ s.errcode ++ BitVec.ofBool s.haz ++ BitVec.ofBool s.err ++ BitVec.ofBool s.done ++ BitVec.ofBool s.busy

/-- CTRL as it is read: zext_64(IE); SRST reads 0 (R57). -/
def State.ctrlWord (s : State) : Word64 := (BitVec.ofBool s.ie).setWidth 64

/-- The level interrupt output `irq = IE ∧ DONE` (R68, R330). -/
def State.irq (s : State) : Bool := s.ie && s.done

/-- A hazard access was made (R54). -/
def State.setHaz (s : State) : State := { s with haz := true }

/-- A store of `w` to STATUS[31:0]: DONE, ERR with ERRCODE, and HAZ are write-1-to-clear, the rest ignored (R55). -/
def State.storeStatus (s : State) (w : Nat) : State :=
  { s with
    done := s.done && !w.testBit 1
    err := s.err && !w.testBit 2
    errcode := if w.testBit 2 then 0 else s.errcode
    haz := s.haz && !w.testBit 3 }

end Sys2Proof.Machine
end

