-- ==== Sys2Proof/Machine/Bits.lean ====
section
/-! DEFINITION. The bit-level operators of 00_scope.md R15 and the byte order of 20_memory.md R84. -/

namespace Sys2Proof.Machine

/-- The trailing-zero count of `ctz`, looking at no more than `fuel` bits. -/
def ctzUpTo : Nat → Nat → Nat
  | 0, _ => 0
  | fuel + 1, x => if x % 2 = 1 then 0 else 1 + ctzUpTo fuel (x / 2)

/-- `ctz(x)` for x > 0: the largest k with 2^k | x (R15). No rule applies it to 0. -/
def ctz (x : Nat) : Nat := ctzUpTo x.log2 x

/-- Byte `k` of a 64-bit register: bits [8k+7:8k] (R84). -/
def byteOf (v : Word64) (k : Nat) : BitVec 8 := v.extractLsb' (8 * k) 8

/-- The 32-bit word at bit 32·j of a stored value (R84, R85). -/
def wordOf (v j : Nat) : Word32 := BitVec.ofNat 32 (v / 2 ^ (32 * j))

end Sys2Proof.Machine
end

