-- ==== Sys2Proof/Machine/Operands.lean ====
section
/-! DEFINITION. Operand registers: their value as a two's-complement integer (00_scope.md R16, R17), the writing of a
value (R17), and the model's written flags (10_state.md R34). A command has no other operand form (30_encoding.md R123). -/

namespace Sys2Proof.Machine

/-- uint(b) of a register's content (R16), word j giving bits [32j+31:32j] (20_memory.md R84). -/
def regUint : OpReg → Nat
  | [] => 0
  | w :: ws => w.bits.toNat + 2 ^ 32 * regUint ws

/-- sint_N of an N-bit string whose unsigned value is `u` (R16). -/
def sintOf (n u : Nat) : Int :=
  if 2 ^ (n - 1) ≤ u then (u : Int) - 2 ^ n else u

/-- `count` words holding the low 32·count bits of `u`, all written. -/
def regOfNat : Nat → Nat → OpReg
  | 0, _ => []
  | count + 1, u => ⟨BitVec.ofNat 32 u, true⟩ :: regOfNat count (u / 2 ^ 32)

/-- enc_OPW(v), the string whose value mod 2^OPW is v mod 2^OPW (R16), in a register all of whose words are written. -/
def regOfInt (opw : Nat) (v : Int) : OpReg :=
  regOfNat (opw / 32) (v % 2 ^ opw).toNat

/-- Every word of a register has been written since power-on reset (R34). -/
def regWritten (r : OpReg) : Bool := r.all (·.written)

/-- The `count` words of a register from word `j` on have been written (R34). -/
def wordsWritten (r : OpReg) (j count : Nat) : Bool :=
  ((r.drop j).take count).all (·.written)

/-- Store the `count` words of `v` into a register from word `j` on, setting their written flags (R86). -/
def regSetWords (r : OpReg) (j count v : Nat) : OpReg :=
  match count with
  | 0 => r
  | m + 1 => regSetWords (r.set j ⟨BitVec.ofNat 32 v, true⟩) (j + 1) m (v / 2 ^ 32)

/-- Byte `k` of a register's content: bits [8k+7:8k] (R84, R86). -/
def regByte (r : OpReg) (k : Nat) : BitVec 8 :=
  match r[k / 4]? with
  | some w => w.bits.extractLsb' (8 * (k % 4)) 8
  | none => 0

/-- `val(i) = sint_OPW(x[i])` (R17). -/
def State.val (s : State) (i : RegId) : Int :=
  sintOf s.cfg.opw (regUint s.x[i])

/-- `x[i] <- v` for an integer v (R17); all of X[i]'s written flags are set (R34). -/
def State.writeReg (s : State) (i : RegId) (v : Int) : State :=
  { s with x := s.x.set i (regOfInt s.cfg.opw v) }

/-- Reading the registers `rs` as sources: a word that nothing has written marks the run (R34, R327, R72; log entry 2). -/
def State.readSources (s : State) (rs : List RegId) : State :=
  { s with faultMark := s.faultMark || !(rs.all fun i => regWritten s.x[i]) }

end Sys2Proof.Machine
end

