-- ==== Sys2Proof/Machine/Ops.lean ====
section
/-! DEFINITION. The machine's shared operations: accepting a command (10_state.md R51), the completion of a command, the
error completion in the place of taking an exception (60_exceptions.md R320, R321, R340) and its acknowledgement in the
place of a return (R341), the resets (70_reset_and_hazards.md R370, R371), and the bounded drawing scheme (42_prng.md R224). -/

namespace Sys2Proof.Machine

/-! ### Issue and completion -/

/-- A command word is accepted while BUSY = 0 (R51). -/
def State.accept (s : State) (c : Word32) : State :=
  { s with lastcmd := c, pending := c, busy := true, done := false, err := false, errcode := 0 }

/-- A command word is issued: accepted while BUSY = 0, dropped with HAZ while BUSY = 1 (R43, R51, R54). -/
def State.issue (s : State) (c : Word32) : State :=
  if s.busy then s.setHaz else s.accept c

/-- Successful completion of the pending command (R320). -/
def State.complete (s : State) : State :=
  { s with busy := false, done := true, err := false, errcode := 0 }

/-- `error_completion(code)`, the one way an error is taken: no trap, no vector, no saved pc (R321, R340). -/
def State.errorCompletion (s : State) (e : ErrCode) : State :=
  { s with busy := false, done := true, err := true, errcode := e.code }

/-- The host's acknowledgement `ACK`, a STATUS store of 0xE (R341): the block's only "return" from an error. -/
def State.acknowledge (s : State) : State := s.storeStatus 0xE

/-- The end of a command with a destination: "return v" writes X[RD] and completes, "raise e" completes with the error
and writes no register (R320, R19). -/
def State.finish (s : State) (rd : RegId) (r : Except ErrCode Int) : State :=
  match r with
  | .ok v => (s.writeReg rd v).complete
  | .error e => s.errorCompletion e

/-- Run a command that names PCG core `e`; a core that is not there makes the command ILLEGAL (R128; log entry 14). -/
def State.onPcg (s : State) (e : CoreId) (run : State → State) : State :=
  if e.val < s.pcg.length then run s else s.errorCompletion .illegal

/-- Run a command that names Xoshiro core `e`; a core that is not there makes the command ILLEGAL (R128; log entry 14). -/
def State.onXo (s : State) (e : CoreId) (run : State → State) : State :=
  if e.val < s.xo.length then run s else s.errorCompletion .illegal

/-- The end of a drawing command: the PCG cores' advance is permanent, whatever the result (R20, R320). -/
def State.finishPcg (s : State) (rd : RegId) (r : Except ErrCode Int × List PcgCore) : State :=
  ({ s with pcg := r.2 }).finish rd r.1

/-- The end of a drawing command: the Xoshiro cores' advance is permanent, whatever the result (R20, R320). -/
def State.finishXo (s : State) (rd : RegId) (r : Except ErrCode Int × List XoCore) : State :=
  ({ s with xo := r.2 }).finish rd r.1

/-! ### Resets -/

/-- Soft reset by a store to CTRL whose bit 0 is `ie`: R370 applied to all but X0..X7 and their written flags, then
IE ← w[0] (R58, R371). The fault mark is kept, "never cleared" (R72; log entry 3); the model's own bookkeeping goes on. -/
def State.softReset (s : State) (ie : Bool) : State :=
  { State.resetWith s.cfg with
    x := s.x
    ie := ie
    faultMark := s.faultMark
    history := s.history
    turns := s.turns
    freeIndex := s.freeIndex }

/-- Power-on reset, asserted by the platform (R370, R372): every item of R370, the fault mark included; the model's own
bookkeeping goes on (log entry 17). -/
def State.powerOn (s : State) : State :=
  { State.resetWith s.cfg with history := s.history, turns := s.turns, freeIndex := s.freeIndex }

/-- A store of `w` to CTRL[31:0]: IE ← w[0], and with w[1] = 1 the soft reset first (R57, R58). -/
def State.storeCtrl (s : State) (w : Nat) : State :=
  if w.testBit 1 then s.softReset (w.testBit 0) else { s with ie := w.testBit 0 }

/-! ### Bounded draws -/

/-- The loop of R224: at most `k` samples, each advancing the cores `st` for good; the first sample ≥ `thr` is accepted. -/
def boundedLoop {σ : Type} (draw : σ → Nat × σ) (thr bound : Nat) : Nat → σ → Except ErrCode Int × σ
  | 0, st => (.error .exhausted, st)
  | k + 1, st =>
    match draw st with
    | (r, st') => if thr ≤ r then (.ok ((r % bound : Nat) : Int), st') else boundedLoop draw thr bound k st'

/-- `bounded(draw, N, bound, limit)` with ceiling `retryMax` (R224). -/
def bounded {σ : Type} (draw : σ → Nat × σ) (n : Nat) (bound limit : Int) (retryMax : Nat) (st : σ) :
    Except ErrCode Int × σ :=
  if bound < 1 ∨ limit < bound then (.error .invalidArg, st)
  else boundedLoop draw (2 ^ n % bound.toNat) bound.toNat retryMax st

end Sys2Proof.Machine
end

