-- ==== Sys2Proof/Machine/Aperture.lean ====
section
/-! DEFINITION. The host's side: the aperture map (20_memory.md R82), its bytes (R84), loads and stores (R83, R86, R89,
R90, R91) and one host access. The block has no memory: the aperture is a view of the registers. -/

namespace Sys2Proof.Machine

/-! ### The map -/

/-- The size of the aperture, 16 KiB (R82). -/
def apertureSize : Nat := 0x4000

/-- What stands at an aperture offset (R82), with the byte's number in its register. -/
inductive Place where
  | id (k : Nat)
  | cfg (k : Nat)
  | cmd (k : Nat)
  | status (k : Nat)
  | ctrl (k : Nat)
  | window (i : RegId) (k : Nat)
  | reserved
deriving DecidableEq, Repr

/-- The operand window an offset from 0x1000 falls in, W being the register size in bytes (R82, R86). -/
def locateWindow (w k : Nat) : Place :=
  if h : k / w < 8 then .window ⟨k / w, h⟩ (k % w) else .reserved

/-- The aperture map (R82). -/
def locate (p : Params) (off : Nat) : Place :=
  if off < 0x008 then .id off
  else if off < 0x010 then .cfg (off - 0x008)
  else if off < 0x018 then .cmd (off - 0x010)
  else if off < 0x020 then .status (off - 0x018)
  else if off < 0x028 then .ctrl (off - 0x020)
  else if off < 0x1000 then .reserved
  else locateWindow (p.opw / 8) (off - 0x1000)

/-- The aperture offset of a host address, if UFN-MEE decodes it (R80). -/
def offsetOf (p : Params) (addr : Nat) : Option Nat :=
  if p.abase ≤ addr ∧ addr < p.abase + apertureSize then some (addr - p.abase) else none

/-- A legal access: 4 or 8 bytes, naturally aligned (R89). -/
def legalAccess (off n : Nat) : Bool := (n == 4 || n == 8) && off % n == 0

/-! ### Reading -/

/-- ID (R41). -/
def idWord : Word64 := 0x0000000755464E4D

/-- MODEXP_IMPL's number in CFG[24] (R42). -/
def ModexpImpl.bit : ModexpImpl → BitVec 1
  | .binary => 0
  | .montgomery => 1

/-- CFG (R42). -/
def cfgWord (p : Params) : Word64 :=
  0#8 ++ BitVec.ofNat 24 p.retryMax ++ 0#7 ++ ModexpImpl.bit p.modexpImpl ++ BitVec.ofNat 4 p.nxo
    ++ BitVec.ofNat 4 p.npcg ++ BitVec.ofNat 16 p.opw

/-- CMD as it is read: zext_64(LASTCMD) (R43). -/
def State.cmdWord (s : State) : Word64 := s.lastcmd.setWidth 64

/-- The byte at an aperture offset as it stands, little-endian (R84); a reserved offset reads 0 (R83). -/
def apertureByte (s : State) (off : Nat) : BitVec 8 :=
  match locate s.cfg off with
  | .id k => byteOf idWord k
  | .cfg k => byteOf (cfgWord s.cfg) k
  | .cmd k => byteOf s.cmdWord k
  | .status k => byteOf s.statusWord k
  | .ctrl k => byteOf s.ctrlWord k
  | .window i k => regByte s.x[i] k
  | .reserved => 0

/-- The `n` bytes from an aperture offset on, as a little-endian number (R84): the one place byte order is decided. -/
def apertureBytes (s : State) (off : Nat) : Nat → Nat
  | 0 => 0
  | n + 1 => (apertureByte s off).toNat + 2 ^ 8 * apertureBytes s (off + 1) n

/-- The next free value of `n` bytes, and the state that has used it (log entry 8). -/
def State.drawFree (s : State) (n : Nat) : Nat × State :=
  ((Config.freeData s.freeIndex n).toNat, { s with freeIndex := s.freeIndex + 1 })

/-- A legal load: its value and its effect. A window load while BUSY returns a free value and sets HAZ (R91); any other
load is free of effects (R90), but that one of an unwritten operand word marks the run (R34; log entries 2, 13). -/
def State.load (s : State) (off n : Nat) : Nat × State :=
  match locate s.cfg off with
  | .window i k =>
    if s.busy then ((s.drawFree n).1, (s.drawFree n).2.setHaz)
    else (apertureBytes s off n,
      { s with faultMark := s.faultMark || !(wordsWritten s.x[i] (k / 4) (n / 4)) })
  | _ => (apertureBytes s off n, s)

/-! ### Writing -/

/-- A store to an operand window from byte `k` of X[i] on: dropped with HAZ while BUSY (R91), else it writes the words it
covers (R86). -/
def State.storeWindow (s : State) (i : RegId) (k n v : Nat) : State :=
  if s.busy then s.setHaz
  else { s with x := s.x.set i (regSetWords s.x[i] (k / 4) (n / 4) v) }

/-- A legal store. ID, CFG, the upper halves of CMD, STATUS and CTRL and reserved offsets ignore it (R40, R43, R55, R83;
log entry 12). -/
def State.store (s : State) (off n v : Nat) : State :=
  match locate s.cfg off with
  | .cmd 0 => s.issue (wordOf v 0)
  | .status 0 => s.storeStatus v
  | .ctrl 0 => s.storeCtrl v
  | .window i k => s.storeWindow i k n v
  | _ => s

/-! ### One host access -/

/-- Add an access and its response to the history (R72). -/
def State.record (s : State) (a : Access) (r : Response) : State :=
  { s with history := ⟨a, r⟩ :: s.history }

/-- A host access (R80): not decoded outside the aperture; a bus error that changes no state when it is not legal (R89,
R326; log entry 9); else the load or the store. -/
def State.access (s : State) (a : Access) : State :=
  match a with
  | .load addr n =>
    match offsetOf s.cfg addr with
    | none => s.record a .notDecoded
    | some off =>
      if legalAccess off n then (s.load off n).2.record a (.loaded (s.load off n).1)
      else (s.drawFree n).2.record a (.busError (some (s.drawFree n).1))
  | .store addr n v =>
    match offsetOf s.cfg addr with
    | none => s.record a .notDecoded
    | some off =>
      if legalAccess off n then (s.store off n v).record a .stored
      else s.record a (.busError none)

/-- A store's value fits in its bytes: 0 ≤ v < 2^(8n) (R80). -/
def Access.fits : Access → Bool
  | .load _ _ => true
  | .store _ n v => v < 2 ^ (8 * n)

end Sys2Proof.Machine
end

