-- ==== Sys2Proof/Machine/Pcg.lean ====
section
/-! DEFINITION. The PCG-XSH-RR cores (42_prng.md section 1): PCG.SEED, PCG.DFLT, PCG.NEXT and PCG.BND32. -/

namespace Sys2Proof.Machine

/-! ### The core -/

/-- PCG_MULT (R222). -/
def pcgMult : Word64 := 0x5851F42D4C957F2D

/-- `pcg_step` (R221). The multiplier stands first: with it second, a kernel that unfolds the product of a state nobody
knows would count down from the multiplier. -/
def PcgCore.step (c : PcgCore) : PcgCore := { c with ps := pcgMult * c.ps + c.pi }

/-- The output of a draw, computed from the pre-step state (R223). -/
def PcgCore.output (c : PcgCore) : Word32 :=
  (((c.ps ^^^ (c.ps >>> 18)) >>> 27).setWidth 32).rotateRight (c.ps >>> 59).toNat

/-- `pcg_next(e)`: the output, and the cores with core `e` advanced (R223). The commands call it only on a core that
is there. -/
def pcgDraw (e : CoreId) (cs : List PcgCore) : Nat × List PcgCore :=
  match cs[e.val]? with
  | some c => (c.output.toNat, cs.set e.val c.step)
  | none => (0, cs)

/-- The core PCG.SEED constructs from a seed value v, 0 ≤ v < 2^128 (R225). -/
def pcgSeeded (v : Nat) : PcgCore :=
  let initstate : Word64 := BitVec.ofNat 64 v
  let initseq : Word64 := BitVec.ofNat 64 (v / 2 ^ 64)
  let mixed := PcgCore.step ⟨0, (initseq <<< 1) ||| 1⟩
  PcgCore.step { mixed with ps := mixed.ps + initstate }

/-! ### The commands -/

/-- PCG.SEED (R225). -/
def execPcgSeed (e : CoreId) (ra : RegId) (s : State) : Host.Outcome State Fault Refusal :=
  .next (s.onPcg e fun s =>
    if s.val ra < 0 ∨ 2 ^ 128 ≤ s.val ra then (s.readSources [ra]).errorCompletion .invalidArg
    else ({ s.readSources [ra] with pcg := s.pcg.set e.val (pcgSeeded (s.val ra).toNat) }).complete)

/-- PCG.DFLT (R226). -/
def execPcgDflt (e : CoreId) (s : State) : Host.Outcome State Fault Refusal :=
  .next (s.onPcg e fun s =>
    ({ s with pcg := s.pcg.set e.val ⟨s.cfg.pcgDefState, s.cfg.pcgDefInc⟩ }).complete)

/-- PCG.NEXT: x[RD] ← zext_OPW(pcg_next(E)) (R227). -/
def execPcgNext (rd : RegId) (e : CoreId) (s : State) : Host.Outcome State Fault Refusal :=
  .next (s.onPcg e fun s => s.finishPcg rd (.ok (pcgDraw e s.pcg).1, (pcgDraw e s.pcg).2))

/-- PCG.BND32: x[RD] ← bounded(pcg_next(E), 32, val(RA), 2^32) (R228). -/
def execPcgBnd32 (rd : RegId) (e : CoreId) (ra : RegId) (s : State) : Host.Outcome State Fault Refusal :=
  .next (s.onPcg e fun s =>
    (s.readSources [ra]).finishPcg rd (bounded (pcgDraw e) 32 (s.val ra) (2 ^ 32) s.cfg.retryMax s.pcg))

end Sys2Proof.Machine
end

