-- ==== Sys2Proof/Machine/Xoshiro.lean ====
section
/-! DEFINITION. The Xoshiro256++ cores (42_prng.md section 2): XO.SEED, XO.DFLT, XO.NEXT, XO.BND64 and XO.BND32. -/

namespace Sys2Proof.Machine

/-! ### The core -/

/-- `xo_step`, each assignment using the value left by the one before (R242). -/
def xoStep (c : XoCore) : XoCore :=
  let t := c.s1 <<< 17
  let s2 := c.s2 ^^^ c.s0
  let s3 := c.s3 ^^^ c.s1
  let s1 := c.s1 ^^^ s2
  let s0 := c.s0 ^^^ s3
  let s2 := s2 ^^^ t
  let s3 := s3.rotateLeft 45
  ⟨s0, s1, s2, s3⟩

/-- The output of a draw, computed from the pre-step state (R241). -/
def xoOutput (c : XoCore) : Word64 := (c.s0 + c.s3).rotateLeft 23 + c.s0

/-- `xo_next(e)`: the output, and the cores with core `e` advanced (R241). The commands call it only on a core that
is there. -/
def xoDraw (e : CoreId) (cs : List XoCore) : Nat × List XoCore :=
  match cs[e.val]? with
  | some c => ((xoOutput c).toNat, cs.set e.val (xoStep c))
  | none => (0, cs)

/-- The core XO.SEED loads from a seed value v, 0 ≤ v < 2^256: word i is v[64i+63:64i] (R246). -/
def xoSeeded (v : Nat) : XoCore :=
  ⟨BitVec.ofNat 64 v, BitVec.ofNat 64 (v / 2 ^ 64), BitVec.ofNat 64 (v / 2 ^ 128), BitVec.ofNat 64 (v / 2 ^ 192)⟩

/-! ### The commands -/

/-- XO.SEED (R246). -/
def execXoSeed (e : CoreId) (ra : RegId) (s : State) : Host.Outcome State Fault Refusal :=
  .next (s.onXo e fun s =>
    if s.val ra < 0 ∨ 2 ^ 256 ≤ s.val ra then (s.readSources [ra]).errorCompletion .invalidArg
    else ({ s.readSources [ra] with xo := s.xo.set e.val (xoSeeded (s.val ra).toNat) }).complete)

/-- XO.DFLT (R247). -/
def execXoDflt (e : CoreId) (s : State) : Host.Outcome State Fault Refusal :=
  .next (s.onXo e fun s => ({ s with xo := s.xo.set e.val s.cfg.xoDef }).complete)

/-- XO.NEXT: x[RD] ← zext_OPW(xo_next(E)) (R248). -/
def execXoNext (rd : RegId) (e : CoreId) (s : State) : Host.Outcome State Fault Refusal :=
  .next (s.onXo e fun s => s.finishXo rd (.ok (xoDraw e s.xo).1, (xoDraw e s.xo).2))

/-- XO.BND64: x[RD] ← bounded(xo_next(E), 64, val(RA), 2^64) (R249). -/
def execXoBnd64 (rd : RegId) (e : CoreId) (ra : RegId) (s : State) : Host.Outcome State Fault Refusal :=
  .next (s.onXo e fun s =>
    (s.readSources [ra]).finishXo rd (bounded (xoDraw e) 64 (s.val ra) (2 ^ 64) s.cfg.retryMax s.xo))

/-- XO.BND32: x[RD] ← bounded(xo_next(E), 64, val(RA), 2^32), 64-bit samples (R250). -/
def execXoBnd32 (rd : RegId) (e : CoreId) (ra : RegId) (s : State) : Host.Outcome State Fault Refusal :=
  .next (s.onXo e fun s =>
    (s.readSources [ra]).finishXo rd (bounded (xoDraw e) 64 (s.val ra) (2 ^ 32) s.cfg.retryMax s.xo))

end Sys2Proof.Machine
end

