-- ==== Sys2Proof/Machine/Float.lean ====
section
/-! DEFINITION. The IEEE-754 bit-pattern synthesizer (43_float.md): FLT32.P, FLT32.X, FLT64.X and FLT64.PP. It writes a
bit pattern as an unsigned integer and keeps no state between commands (R280). -/

namespace Sys2Proof.Machine

/-! ### The synthesis function -/

/-- The constants of a synthesis: word width W, low field L, exponent base B, mantissa width M (R281, R282). -/
structure FloatFormat where
  w : Nat
  l : Nat
  b : Nat
  m : Nat
deriving DecidableEq, Repr

/-- float32: W = 32, L = 8, B = 126, M = 23 (R281). -/
def float32 : FloatFormat := ⟨32, 8, 126, 23⟩

/-- float64: W = 64, L = 11, B = 1022, M = 52 (R282). -/
def float64 : FloatFormat := ⟨64, 11, 1022, 52⟩

/-- The loop of step 3 of R281, from exponent `ex`. Each all-zero word takes W ≥ 1 from the exponent, so B + 1 passes
are more than enough (log entry 20). -/
def zeroPath {σ : Type} (word : σ → Nat × σ) (w : Nat) : Nat → Int → σ → Int × σ
  | 0, _, st => (0, st)
  | fuel + 1, ex, st =>
    match word st with
    | (v, st') =>
      if v = 0 then (if ex - w < 0 then (0, st') else zeroPath word w fuel (ex - w) st')
      else (if ex - ctz v < 0 then 0 else ex - ctz v, st')

/-- Steps 2 and 3 of R281: the exponent an attempt with first word `r1` gets. -/
def attemptExponent {σ : Type} (word : σ → Nat × σ) (f : FloatFormat) (r1 : Nat) (st : σ) : Int × σ :=
  if r1 % 2 ^ f.l ≠ 0 then ((f.b : Int) - ctz (r1 % 2 ^ f.l), st)
  else zeroPath word f.w (f.b + 1) ((f.b : Int) - f.l) st

/-- One attempt, steps 1 to 6 of R281: a bit pattern, or `none` when it is rejected. -/
def attempt {σ : Type} (word : σ → Nat × σ) (f : FloatFormat) (st : σ) : Option Int × σ :=
  match word st with
  | (r1, st1) =>
    match attemptExponent word f r1 st1 with
    | (ex, st2) =>
      let man := r1 / 2 ^ f.l % 2 ^ (f.w - 1 - f.l)
      let ex := if man = 0 ∧ r1.testBit (f.w - 1) then ex + 1 else ex
      if (f.b : Int) + 1 ≤ ex then (none, st2) else (some (((ex.toNat <<< f.m) ||| man : Nat) : Int), st2)

/-- `synth`: at most `k` attempts (R281). -/
def synth {σ : Type} (word : σ → Nat × σ) (f : FloatFormat) : Nat → σ → Except ErrCode Int × σ
  | 0, st => (.error .exhausted, st)
  | k + 1, st =>
    match attempt word f st with
    | (some v, st') => (.ok v, st')
    | (none, st') => synth word f k st'

/-! ### The word sources (R284) -/

/-- FLT32.X: the high half of a Xoshiro draw; the low half is discarded. -/
def xoHighDraw (e : CoreId) (cs : List XoCore) : Nat × List XoCore :=
  ((xoDraw e cs).1 / 2 ^ 32, (xoDraw e cs).2)

/-- FLT64.PP: the high half from core `e`, then the low half from core `f`, which may be the same core. -/
def pcgPairDraw (e f : CoreId) (cs : List PcgCore) : Nat × List PcgCore :=
  match pcgDraw e cs with
  | (hi, cs1) =>
    match pcgDraw f cs1 with
    | (lo, cs2) => (hi * 2 ^ 32 + lo, cs2)

/-! ### The commands -/

/-- FLT32.P (R285). -/
def execFlt32P (rd : RegId) (e : CoreId) (s : State) : Host.Outcome State Fault Refusal :=
  .next (s.onPcg e fun s => s.finishPcg rd (synth (pcgDraw e) float32 s.cfg.retryMax s.pcg))

/-- FLT32.X (R286). -/
def execFlt32X (rd : RegId) (e : CoreId) (s : State) : Host.Outcome State Fault Refusal :=
  .next (s.onXo e fun s => s.finishXo rd (synth (xoHighDraw e) float32 s.cfg.retryMax s.xo))

/-- FLT64.X (R287). -/
def execFlt64X (rd : RegId) (e : CoreId) (s : State) : Host.Outcome State Fault Refusal :=
  .next (s.onXo e fun s => s.finishXo rd (synth (xoDraw e) float64 s.cfg.retryMax s.xo))

/-- FLT64.PP (R288). -/
def execFlt64PP (rd : RegId) (e f : CoreId) (s : State) : Host.Outcome State Fault Refusal :=
  .next (s.onPcg e fun s => s.onPcg f fun s =>
    s.finishPcg rd (synth (pcgPairDraw e f) float64 s.cfg.retryMax s.pcg))

end Sys2Proof.Machine
end

