-- ==== Sys2Proof/Machine/Modular.lean ====
section
/-! DEFINITION. The modular arithmetic unit (40_modular.md): RESIDUE, MODPOW and JACOBI. All of it is exact integer
arithmetic (R160); MODEXP_IMPL changes no result (00_scope.md R10, R167), so nothing here reads it. -/

namespace Sys2Proof.Machine

/-! ### The functions -/

/-- `residue(n, m)` (R161). -/
def residue (n m : Int) : Except ErrCode Int :=
  if m = 0 then .error .invalidArg
  else if m < 0 then .error .invalidArg
  else .ok (n % m)

/-- The square-and-multiply loop of R165, at most `fuel` passes; one pass per bit of `p` (log entry 20). -/
def modpowLoop (m : Nat) : Nat → Nat → Nat → Nat → Nat
  | 0, acc, _, _ => acc
  | fuel + 1, acc, b, p =>
    if p = 0 then acc
    else modpowLoop m fuel (if p % 2 = 1 then acc * b % m else acc) (b * b % m) (p / 2)

/-- `modpow(b, p, m)` (R163, R164, R165). -/
def modpow (b p m : Int) : Except ErrCode Int :=
  if m < 1 then .error .invalidArg
  else if p < 0 then .error .invalidArg
  else if m = 1 then .ok 0
  else if p = 0 then .ok 1
  else (residue b m).bind fun b =>
    if b = 0 ∨ b = 1 then .ok b
    else if b = m - 1 then .ok (if p % 2 = 1 then m - 1 else 1)
    else .ok (modpowLoop m.toNat (p.toNat.log2 + 1) 1 b.toNat p.toNat)

/-- The inner loop of R170: factor 2 out of `a`, flipping the sign `t` each time when n mod 8 is 3 or 5. -/
def stripTwos (n : Nat) : Nat → Nat → Int → Nat × Int
  | 0, a, t => (a, t)
  | fuel + 1, a, t =>
    if a % 2 = 0 then stripTwos n fuel (a / 2) (if n % 8 = 3 ∨ n % 8 = 5 then -t else t)
    else (a, t)

/-- The outer loop of R170: each pass strips the twos, swaps by reciprocity and reduces. A pass more than halves a·n, so
⌊log₂(a·n)⌋ + 2 passes reach a = 0 (log entry 20). -/
def jacobiLoop : Nat → Nat → Nat → Int → Int
  | 0, _, _, _ => 0
  | fuel + 1, a, n, t =>
    if a = 0 then (if n = 1 then t else 0)
    else
      match stripTwos n (a.log2 + 1) a t with
      | (a', t') => jacobiLoop fuel (n % a') a' (if n % 4 = 3 ∧ a' % 4 = 3 then -t' else t')

/-- `jacobi(a, n)` (R170). -/
def jacobi (a n : Int) : Except ErrCode Int :=
  if n < 1 then .error .invalidArg
  else if n % 2 = 0 then .error .invalidArg
  else (residue a n).bind fun a =>
    .ok (jacobiLoop ((a.toNat * n.toNat).log2 + 2) a.toNat n.toNat 1)

/-! ### The commands -/

/-- RESIDUE: x[RD] ← residue(val(RA), val(RB)) (R161). -/
def execResidue (rd ra rb : RegId) (s : State) : Host.Outcome State Fault Refusal :=
  .next ((s.readSources [ra, rb]).finish rd (residue (s.val ra) (s.val rb)))

/-- MODPOW: x[RD] ← modpow(val(RA), val(RB), val(RC)) (R166). -/
def execModpow (rd ra rb rc : RegId) (s : State) : Host.Outcome State Fault Refusal :=
  .next ((s.readSources [ra, rb, rc]).finish rd (modpow (s.val ra) (s.val rb) (s.val rc)))

/-- JACOBI: x[RD] ← enc_OPW(jacobi(val(RA), val(RB))) (R171). -/
def execJacobi (rd ra rb : RegId) (s : State) : Host.Outcome State Fault Refusal :=
  .next ((s.readSources [ra, rb]).finish rd (jacobi (s.val ra) (s.val rb)))

end Sys2Proof.Machine
end

