-- ==== Sys2Proof/Machine/MillerRabin.lean ====
section
/-! DEFINITION. The Miller-Rabin base-2 unit (41_miller_rabin.md): MR2. It has no state between commands (R200). -/

namespace Sys2Proof.Machine

/-- The rounds of R201: test, then square (decision D32). -/
def mr2Rounds (n : Nat) : Nat → Nat → Int
  | 0, _ => 0
  | i + 1, y => if y = n - 1 then 1 else mr2Rounds n i (y * y % n)

/-- `mr2(n)` (R201). -/
def mr2 (n : Int) : Except ErrCode Int :=
  if n < 3 then .error .invalidArg
  else if n % 2 = 0 then .error .invalidArg
  else
    let s := ctz (n - 1).toNat
    let d := (n - 1).toNat / 2 ^ s
    (modpow 2 d n).bind fun y => .ok (if y = 1 then 1 else mr2Rounds n.toNat s y.toNat)

/-- MR2: x[RD] ← mr2(val(RA)) (R201). -/
def execMr2 (rd ra : RegId) (s : State) : Host.Outcome State Fault Refusal :=
  .next ((s.readSources [ra]).finish rd (mr2 (s.val ra)))

end Sys2Proof.Machine
end

