-- ==== Sys2Proof/Machine/Dispatch.lean ====
section
/-! DEFINITION. The dispatch: one arm per command (30_encoding.md R125). -/

namespace Sys2Proof.Machine

def exec (i : Instr) (s : State) : Host.Outcome State Fault Refusal :=
  match i with
  | .residue rd ra rb => Sys2Proof.Machine.execResidue rd ra rb s
  | .modpow rd ra rb rc => Sys2Proof.Machine.execModpow rd ra rb rc s
  | .jacobi rd ra rb => Sys2Proof.Machine.execJacobi rd ra rb s
  | .mr2 rd ra => Sys2Proof.Machine.execMr2 rd ra s
  | .pcgSeed e ra => Sys2Proof.Machine.execPcgSeed e ra s
  | .pcgDflt e => Sys2Proof.Machine.execPcgDflt e s
  | .pcgNext rd e => Sys2Proof.Machine.execPcgNext rd e s
  | .pcgBnd32 rd e ra => Sys2Proof.Machine.execPcgBnd32 rd e ra s
  | .xoSeed e ra => Sys2Proof.Machine.execXoSeed e ra s
  | .xoDflt e => Sys2Proof.Machine.execXoDflt e s
  | .xoNext rd e => Sys2Proof.Machine.execXoNext rd e s
  | .xoBnd64 rd e ra => Sys2Proof.Machine.execXoBnd64 rd e ra s
  | .xoBnd32 rd e ra => Sys2Proof.Machine.execXoBnd32 rd e ra s
  | .flt32P rd e => Sys2Proof.Machine.execFlt32P rd e s
  | .flt32X rd e => Sys2Proof.Machine.execFlt32X rd e s
  | .flt64X rd e => Sys2Proof.Machine.execFlt64X rd e s
  | .flt64PP rd e f => Sys2Proof.Machine.execFlt64PP rd e f s

end Sys2Proof.Machine
end

