-- ==== Sys2Proof/Machine/Step.lean ====
section
/-! DEFINITION. One step: the next turn's agent moves (10_state.md R30, 60_exceptions.md R329). With no turn left the
engine still completes a pending command (70_reset_and_hazards.md R391), and an idle block stays as it is. -/

namespace Sys2Proof.Machine

/-- The engine's completion step, enabled exactly when BUSY = 1: decode PENDING, then run it (R320). -/
def engineStep (s : State) : Host.Outcome State Fault Refusal :=
  match decode s.cfg.npcg s.cfg.nxo s.pending with
  | .error _ => .next (s.errorCompletion .illegal)
  | .ok i => exec i s

/-- One step of the machine. -/
def step (s : State) : Host.Outcome State Fault Refusal :=
  match s.turns with
  | [] => if s.busy then engineStep s else .next s
  | .engine :: rest => if s.busy then engineStep { s with turns := rest } else .next { s with turns := rest }
  | .host a :: rest => if a.fits then .next (State.access { s with turns := rest } a) else .fault .storeTooWide
  | .powerOn :: rest => .next (State.powerOn { s with turns := rest })

/-- `s` with the command word `w` accepted (R51) and the engine to move next, so that the next step runs it. It stands
for a host's store of `w` to CMD (log entry 7). -/
def State.withFetchWord (s : State) (nbits w : Nat) : State :=
  { s.accept (BitVec.ofNat 32 (w % 2 ^ nbits)) with turns := .engine :: s.turns }

end Sys2Proof.Machine
end

