-- ==== Sys2Proof/Machine/HostOps.lean ====
section
/-! DEFINITION. The host pseudo-operations (30_encoding.md section 6). Each is given as the host accesses it makes (as turns,
where the engine moves between them) and, where it yields a value, as a run from a state. They are not commands; a host's
own program (labels, branches, R146) is outside the block. -/

namespace Sys2Proof.Machine

/-! ### The accesses -/

/-- The aperture offset of 8-byte word `j` of the window of X[i] (20_memory.md R86). -/
def windowOffset (p : Params) (i : RegId) (j : Nat) : Nat :=
  0x1000 + i.val * (p.opw / 8) + 8 * j

/-- Its address. -/
def windowAddr (p : Params) (i : RegId) (j : Nat) : Nat :=
  p.abase + windowOffset p i j

/-- `WRX xi, v`: store the whole register, 8 bytes at a time (R143). -/
def hostWrx (p : Params) (i : RegId) (v : Int) : List Access :=
  (List.range (p.opw / 64)).map fun j =>
    .store (windowAddr p i j) 8 ((v % 2 ^ p.opw).toNat / 2 ^ (64 * j) % 2 ^ 64)

/-- `RDX xi`: load the whole register, 8 bytes at a time (R144). -/
def hostRdx (p : Params) (i : RegId) : List Access :=
  (List.range (p.opw / 64)).map fun j => .load (windowAddr p i j) 8

/-- The unsigned number whose 64-bit words are `ws`, the lowest first (R144). -/
def wordsUint : List Nat → Nat
  | [] => 0
  | w :: ws => w + 2 ^ 64 * wordsUint ws

/-- RDX's value: sint_OPW of the words loaded (R144). -/
def rdxValue (p : Params) (ws : List Nat) : Int := sintOf p.opw (wordsUint ws)

/-- One poll of `WAIT`: `MemRead(ABASE + 0x018, 8)` (R144). -/
def hostPoll (p : Params) : Access := .load (p.abase + 0x018) 8

/-- `WAIT` ends with this STATUS value: s[0] = 0 (R144). -/
def waitEnds (s : Nat) : Bool := !s.testBit 0

/-- `CALL`'s branch to `err` is taken: s[2] = 1 (R144). -/
def callFailed (s : Nat) : Bool := s.testBit 2

/-- `ACK`: `MemWrite(ABASE + 0x018, 8, 0xE)` (R144). -/
def hostAck (p : Params) : Access := .store (p.abase + 0x018) 8 0xE

/-- `SRST`: `MemWrite(ABASE + 0x020, 8, 0x2)` (R144). -/
def hostSrst (p : Params) : Access := .store (p.abase + 0x020) 8 0x2

/-- `ISSUE c`, and what an assembled command line stands for: `MemWrite(ABASE + 0x010, 4, c)` (R140, R144). -/
def hostIssue (p : Params) (c : Word32) : Access := .store (p.abase + 0x010) 4 c.toNat

/-- The host performs accesses one after another, the engine not moving between them (R93). -/
def State.accesses (s : State) (as : List Access) : State := as.foldl State.access s

/-! ### The turns: how many polls show BUSY = 1 is free, an argument (log entry 24) -/

/-- The turns of a `WAIT` of which `polls` polls show BUSY = 1, then the engine completes, and one poll shows BUSY = 0
(R144). -/
def hostWait (p : Params) (polls : Nat) : List Turn :=
  List.replicate polls (.host (hostPoll p)) ++ [.engine, .host (hostPoll p)]

/-- The turns of `CALL mnemonic ...`: the command line and its `WAIT` (R144). The branch to `err` is `callFailed`. -/
def hostCall (p : Params) (i : Instr) (polls : Nat) : List Turn :=
  .host (hostIssue p (encode i)) :: hostWait p polls

/-- The turns of a bulk generation, one iteration for each entry of `polls`: the command, `WAIT`, and `RDX` of `rd`, each
iteration's WAIT with the number of polls its entry gives (R145, R231). -/
def hostBulk (p : Params) (next : Instr) (rd : RegId) (polls : List Nat) : List Turn :=
  polls.flatMap fun n => hostCall p next n ++ (hostRdx p rd).map .host

/-- The turns of `PCG.BULK xD, pE, k`, k being `polls.length` (R145, R231). -/
def hostPcgBulk (p : Params) (rd : RegId) (e : CoreId) (polls : List Nat) : List Turn :=
  hostBulk p (.pcgNext rd e) rd polls

/-- The turns of `XO.BULK xD, oE, k`, k being `polls.length` (R145, R231). -/
def hostXoBulk (p : Params) (rd : RegId) (e : CoreId) (polls : List Nat) : List Turn :=
  hostBulk p (.xoNext rd e) rd polls

/-! ### The runs: the value a pseudo-operation yields, and the state it leaves -/

/-- `MemRead(ABASE + off, n)`: the value of a legal load, and the state after the access (R80). -/
def State.memRead (s : State) (off n : Nat) : Nat × State :=
  ((s.load off n).1, s.access (.load (s.cfg.abase + off) n))

/-- The engine's move: its completion step while BUSY = 1, which always answers a next state, else nothing (R30, R320). -/
def State.engineMove (s : State) : State :=
  if s.busy then
    match engineStep s with
    | .next t => t
    | _ => s
  else s

/-- `WAIT`: `repeat s ← MemRead(ABASE + 0x018, 8) until s[0] = 0` (R144), with the last value of s. The engine moves once
`polls` polls have shown BUSY = 1; which number that is, the spec leaves open (R390; log entry 24). -/
def State.wait : Nat → State → Nat × State
  | 0, s => s.engineMove.memRead 0x018 8
  | polls + 1, s =>
    if waitEnds (s.memRead 0x018 8).1 then s.memRead 0x018 8 else State.wait polls (s.memRead 0x018 8).2

/-- `CALL mnemonic ...`: the command line and `WAIT`, with the value of s that `callFailed` tests (R144). -/
def State.call (s : State) (i : Instr) (polls : Nat) : Nat × State :=
  (s.access (hostIssue s.cfg (encode i))).wait polls

/-- 8-byte loads of these offsets, one after another. -/
def State.memReads : List Nat → State → List Nat × State
  | [], s => ([], s)
  | off :: offs, s =>
    ((s.memRead off 8).1 :: (State.memReads offs (s.memRead off 8).2).1, (State.memReads offs (s.memRead off 8).2).2)

/-- `RDX xi`: its value, and the state after its loads (R144). -/
def State.rdx (s : State) (i : RegId) : Int × State :=
  let r := s.memReads ((List.range (s.cfg.opw / 64)).map (windowOffset s.cfg i))
  (rdxValue s.cfg r.1, r.2)

/-- A bulk generation: the values its iterations read, in order (R145, R231). A WAIT of it is `State.wait`. -/
def State.bulk (next : Instr) (rd : RegId) : List Nat → State → List Int × State
  | [], s => ([], s)
  | n :: polls, s =>
    let value := (s.call next n).2.rdx rd
    let later := State.bulk next rd polls value.2
    (value.1 :: later.1, later.2)

/-- `PCG.BULK xD, pE, k`, k being `polls.length` (R145, R231). -/
def State.pcgBulk (s : State) (rd : RegId) (e : CoreId) (polls : List Nat) : List Int × State :=
  s.bulk (.pcgNext rd e) rd polls

/-- `XO.BULK xD, oE, k`, k being `polls.length` (R145, R231). -/
def State.xoBulk (s : State) (rd : RegId) (e : CoreId) (polls : List Nat) : List Int × State :=
  s.bulk (.xoNext rd e) rd polls

end Sys2Proof.Machine
end

