-- ==== Sys2Proof/Safety.lean ====
section
/-! DEFINITION. What a legal state is and what a safe run is, in the terms the statements use. -/

namespace Sys2Proof.Machine

/-- A legal state: what every reset leaves and every step keeps. -/
structure State.Inv (s : State) : Prop where
  /-- The parameters are legal (00_scope.md section 3). -/
  cfgLegal : s.cfg.legal = true
  /-- Each operand register is OPW bits wide (10_state.md R31). -/
  regLength : ∀ i : RegId, s.x[i].length = s.cfg.opw / 32
  /-- There are NPCG PCG cores (R60). -/
  pcgLength : s.pcg.length = s.cfg.npcg
  /-- There are NXO Xoshiro cores (R61). -/
  xoLength : s.xo.length = s.cfg.nxo
  /-- "The invariant is that PI[e] is odd" (R60). -/
  incOdd : ∀ c ∈ s.pcg, c.pi.getLsbD 0 = true
  /-- ERRCODE values 4..15 are never produced (R50). -/
  errcodeLe : s.errcode.toNat ≤ 3
  /-- ERR and ERRCODE are set and cleared together (R51, R53). -/
  errIff : s.err = true ↔ s.errcode ≠ 0
  /-- While BUSY = 1, DONE and ERR are 0 (R51, R52, R53). -/
  busyClean : s.busy = true → s.done = false ∧ s.err = false
  /-- While BUSY = 1, LASTCMD holds the same word as PENDING (R66). -/
  busyPending : s.busy = true → s.pending = s.lastcmd

/-- A run up to a state is safe when it has read no operand word that nothing had written (R34, R327): only then do the
operand values it read come from the host or from a command, and not from log entry 1. -/
def State.Clean (s : State) : Prop := s.faultMark = false

end Sys2Proof.Machine
end

