-- ==== Sys2Proof/Reference.lean ====
section
/-! DEFINITION. What the statements compare the machine with: the spec's functions on mathematical integers
(00_scope.md R15, 42_prng.md, 43_float.md), the operands and cores of each command (10_state.md R33, R64), and the two
ways a command ends (60_exceptions.md R320, R321). Nothing of the machine uses this file. -/

namespace Sys2Proof.Spec

open Sys2Proof.Machine

/-! ### Operators on integers (R15) -/

/-- `rotr32(x, r)`. -/
def rotr32 (x r : Nat) : Nat := ((x / 2 ^ (r % 32)) ||| (x * 2 ^ (32 - r % 32))) % 2 ^ 32

/-- `rotl64(x, r)`. -/
def rotl64 (x r : Nat) : Nat := ((x * 2 ^ (r % 64)) ||| (x / 2 ^ (64 - r % 64))) % 2 ^ 64

/-! ### The engines (R221, R223, R241, R242), on state words below 2^64 -/

/-- The state word after `pcg_step`. -/
def pcgStep (ps pi : Nat) : Nat := (ps * 0x5851F42D4C957F2D + pi) % 2 ^ 64

/-- The output of a PCG draw from the pre-step state `old`. -/
def pcgOutput (old : Nat) : Nat := rotr32 ((old ^^^ old / 2 ^ 18) / 2 ^ 27 % 2 ^ 32) (old / 2 ^ 59)

/-- The output of a Xoshiro draw from the pre-step words s0 and s3. -/
def xoOutput (s0 s3 : Nat) : Nat := (rotl64 ((s0 + s3) % 2 ^ 64) 23 + s0) % 2 ^ 64

/-- The four words after `xo_step`, with the assignments of R242 carried out. -/
def xoStep (s0 s1 s2 s3 : Nat) : Nat × Nat × Nat × Nat :=
  (s0 ^^^ (s3 ^^^ s1),
    s1 ^^^ (s2 ^^^ s0),
    (s2 ^^^ s0) ^^^ (s1 * 2 ^ 17 % 2 ^ 64),
    rotl64 (s3 ^^^ s1) 45)

/-- A Xoshiro core's words as numbers. -/
def xoWords (c : XoCore) : Nat × Nat × Nat × Nat := (c.s0.toNat, c.s1.toNat, c.s2.toNat, c.s3.toNat)

/-! ### Float synthesis (R281, R282, R283), from the stream `words` of an attempt, `words 0` being r1 -/

/-- The words an attempt with this first word is rejected for: 2^(W−1) + u with u odd and below 2^L (R283). -/
def Rejected (w l r1 : Nat) : Prop := ∃ u, u % 2 = 1 ∧ u < 2 ^ l ∧ r1 = 2 ^ (w - 1) + u

/-- How many words the zero path may draw before the exponent underflows: 4 for float32, 16 for float64 (R283). -/
def zeroPathMax (w l b : Nat) : Nat := (b - l) / w + 1

/-- The bit string of the zero path's words, low word first (R291). -/
def zeroPathBits (w l b : Nat) (words : Nat → Nat) : Nat :=
  ∑ j ∈ Finset.range (zeroPathMax w l b), words (j + 1) * 2 ^ (w * j)

/-- The exponent before the boundary correction: B less the trailing zeros of r1[L−1:0] followed by the later words,
clamped to 0 (R281 steps 2 and 3, R290, R291). -/
def exponent (w l b : Nat) (words : Nat → Nat) : Nat :=
  if words 0 % 2 ^ l ≠ 0 then b - padicValNat 2 (words 0 % 2 ^ l)
  else if zeroPathBits w l b words = 0 then 0
  else b - l - padicValNat 2 (zeroPathBits w l b words)

/-- How many words a zero path draws, at most `n`: up to and with the first that is not zero. -/
def zeroPathUse (words : Nat → Nat) : Nat → Nat
  | 0 => 0
  | n + 1 => if words 0 = 0 then 1 + zeroPathUse (fun j => words (j + 1)) n else 1

/-- How many words an attempt draws. -/
def wordsUsed (w l b : Nat) (words : Nat → Nat) : Nat :=
  if words 0 % 2 ^ l ≠ 0 then 1 else 1 + zeroPathUse (fun j => words (j + 1)) (zeroPathMax w l b)

/-- The mantissa, bits r1[W−2:L] (step 4). -/
def mantissa (w l r1 : Nat) : Nat := r1 / 2 ^ l % 2 ^ (w - 1 - l)

/-- The bit pattern of an accepted attempt (steps 5 and 6). -/
def pattern (w l b m : Nat) (words : Nat → Nat) : Nat :=
  (exponent w l b words + if mantissa w l (words 0) = 0 ∧ (words 0).testBit (w - 1) then 1 else 0) * 2 ^ m
    + mantissa w l (words 0)

/-! ### The commands -/

/-- The destination register of a command (R33). -/
def dest : Instr → Option RegId
  | .residue rd _ _ => some rd
  | .modpow rd _ _ _ => some rd
  | .jacobi rd _ _ => some rd
  | .mr2 rd _ => some rd
  | .pcgSeed _ _ => none
  | .pcgDflt _ => none
  | .pcgNext rd _ => some rd
  | .pcgBnd32 rd _ _ => some rd
  | .xoSeed _ _ => none
  | .xoDflt _ => none
  | .xoNext rd _ => some rd
  | .xoBnd64 rd _ _ => some rd
  | .xoBnd32 rd _ _ => some rd
  | .flt32P rd _ => some rd
  | .flt32X rd _ => some rd
  | .flt64X rd _ => some rd
  | .flt64PP rd _ _ => some rd

/-- The registers a command reads (R33). -/
def sources : Instr → List RegId
  | .residue _ ra rb => [ra, rb]
  | .modpow _ ra rb rc => [ra, rb, rc]
  | .jacobi _ ra rb => [ra, rb]
  | .mr2 _ ra => [ra]
  | .pcgSeed _ ra => [ra]
  | .pcgDflt _ => []
  | .pcgNext _ _ => []
  | .pcgBnd32 _ _ ra => [ra]
  | .xoSeed _ ra => [ra]
  | .xoDflt _ => []
  | .xoNext _ _ => []
  | .xoBnd64 _ _ ra => [ra]
  | .xoBnd32 _ _ ra => [ra]
  | .flt32P _ _ => []
  | .flt32X _ _ => []
  | .flt64X _ _ => []
  | .flt64PP _ _ _ => []

/-- The PCG cores a command selects with E and F (R64). -/
def pcgCores : Instr → List CoreId
  | .pcgSeed e _ => [e]
  | .pcgDflt e => [e]
  | .pcgNext _ e => [e]
  | .pcgBnd32 _ e _ => [e]
  | .flt32P _ e => [e]
  | .flt64PP _ e f => [e, f]
  | .residue _ _ _ => []
  | .modpow _ _ _ _ => []
  | .jacobi _ _ _ => []
  | .mr2 _ _ => []
  | .xoSeed _ _ => []
  | .xoDflt _ => []
  | .xoNext _ _ => []
  | .xoBnd64 _ _ _ => []
  | .xoBnd32 _ _ _ => []
  | .flt32X _ _ => []
  | .flt64X _ _ => []

/-- The Xoshiro cores a command selects with E (R64). -/
def xoCores : Instr → List CoreId
  | .xoSeed e _ => [e]
  | .xoDflt e => [e]
  | .xoNext _ e => [e]
  | .xoBnd64 _ e _ => [e]
  | .xoBnd32 _ e _ => [e]
  | .flt32X _ e => [e]
  | .flt64X _ e => [e]
  | .residue _ _ _ => []
  | .modpow _ _ _ _ => []
  | .jacobi _ _ _ => []
  | .mr2 _ _ => []
  | .pcgSeed _ _ => []
  | .pcgDflt _ => []
  | .pcgNext _ _ => []
  | .pcgBnd32 _ _ _ => []
  | .flt32P _ _ => []
  | .flt64PP _ _ _ => []

/-! ### Completions (R320, R321) -/

/-- The step at `s` is the engine's: BUSY = 1, and it is the engine's turn or no turn is left (R30, R391; log entry 6). -/
def EngineMoves (s : State) : Prop := s.busy = true ∧ (s.turns = [] ∨ ∃ rest, s.turns = .engine :: rest)

/-- The step at `s` is the engine's completion of the command `i`. -/
def EngineRuns (s : State) (i : Instr) : Prop :=
  EngineMoves s ∧ decode s.cfg.npcg s.cfg.nxo s.pending = .ok i

/-- STATUS after a successful completion: BUSY 0, DONE 1, ERR 0, ERRCODE 0. -/
def Succeeded (t : State) : Prop := t.busy = false ∧ t.done = true ∧ t.err = false ∧ t.errcode = 0

/-- `t` is `s` after `error_completion(code)`, nothing else having changed but the model's fault mark. -/
def FailedWith (code : BitVec 4) (s t : State) : Prop :=
  t = { s with busy := false, done := true, err := true, errcode := code, faultMark := t.faultMark }

/-- The command's word spells it in the row with this match and mask (R125). -/
def Spells (i : Instr) (pat mask : Word32) : Prop := encode i &&& mask = pat

/-- The field OP of a word as a number (R121). -/
def opOf (c : Word32) : Nat := c.toNat / 2 ^ 26

/-- The bits of a word that its opcode's format leaves unused, F apart for OP 0x21, and Z (R124). -/
def unusedBits : List (Nat × Word32) := [
  (0x01, 0x0001FFFF), (0x02, 0x00003FFF), (0x03, 0x0001FFFF), (0x04, 0x000FFFFF), (0x10, 0x038FC7FF),
  (0x11, 0x03FFC7FF), (0x12, 0x007FC7FF), (0x13, 0x000FC7FF), (0x18, 0x038FC7FF), (0x19, 0x03FFC7FF),
  (0x1A, 0x007FC7FF), (0x1B, 0x000FC7FF), (0x1C, 0x000FC7FF), (0x20, 0x007FC73F), (0x21, 0x007FC03F)]

/-- An aperture offset in the operand window of X[i] (20_memory.md R82). -/
def InWindow (p : Params) (i : RegId) (off : Nat) : Prop :=
  0x1000 + i.val * (p.opw / 8) ≤ off ∧ off < 0x1000 + (i.val + 1) * (p.opw / 8)

/-- An aperture offset in some operand window (R82). -/
def InWindows (p : Params) (off : Nat) : Prop := 0x1000 ≤ off ∧ off < 0x1000 + p.opw

/-- X[rd] holds the value `v`, all of its words written. -/
def Holds (t : State) (rd : RegId) (v : Int) : Prop := t.val rd = v ∧ regWritten t.x[rd] = true

end Sys2Proof.Spec
end

