-- ==== Sys2Proof/Certificates/Slice0/Obligations.lean ====
section
/-! DEFINITION. The statements for the provers. Each docstring names the rules of spec/ it formalises; where a clause rests
on a choice of the model, it names the log entry. -/

open Sys2Proof Sys2Proof.Machine Sys2Proof.Spec

/-! ### Encoding -/

/-- 30_encoding.md R121-R129: the decoder reads every command back from its word, with every field at every value. -/
def Obligations.DecodeReadsEncodedCommand : Prop :=
  ∀ (npcg nxo : Nat) (i : Instr), i.coresPresent npcg nxo = true → decode npcg nxo (encode i) = .ok i

/-- 30_encoding.md R125, R129: a word that decodes is the word of the command it decodes to, so each word has one meaning. -/
def Obligations.DecodedWordIsItsEncoding : Prop :=
  ∀ (npcg nxo : Nat) (c : Word32) (i : Instr), decode npcg nxo c = .ok i →
    encode i = c ∧ i.coresPresent npcg nxo = true

/-- 30_encoding.md R130: the five kinds of illegal word are rejected. -/
def Obligations.IllegalWordsAreRejected : Prop :=
  ∀ (npcg nxo : Nat) (c : Word32),
    ((opOf c = 0 ∨ opOf c ∈ List.range' 0x05 11 ∨ opOf c ∈ List.range' 0x14 4 ∨ opOf c ∈ List.range' 0x1D 3 ∨
        opOf c ∈ List.range' 0x22 30) → ∃ why, decode npcg nxo c = .error why) ∧
    (∀ op mask, (op, mask) ∈ unusedBits → opOf c = op → c &&& mask ≠ 0 → ∃ why, decode npcg nxo c = .error why) ∧
    (opOf c = 0x20 → fieldS c = 2 ∨ fieldS c = 3 → ∃ why, decode npcg nxo c = .error why) ∧
    (opOf c = 0x21 → fieldS c = 0 ∨ fieldS c = 3 → ∃ why, decode npcg nxo c = .error why) ∧
    (opOf c = 0x21 → fieldS c = 1 → fieldF c ≠ 0 → ∃ why, decode npcg nxo c = .error why) ∧
    (∀ i : Instr, i.coresPresent npcg nxo = false → ∃ why, decode npcg nxo (encode i) = .error why)

/-- 30_encoding.md R141: example words of every format of R124 (R2, R3, R1, ES, E0, EN, EB and FL) decode to the commands
the table gives them, on a block of the default core counts (log entry 22). -/
def Obligations.ExampleWordsDecode : Prop :=
  decodeTableWord 32 0x05020000 = some (.residue 2 0 1) ∧ decodeTableWord 32 0x09828000 = some (.modpow 3 0 1 2) ∧
  decodeTableWord 32 0x0E020000 = some (.jacobi 4 0 1) ∧ decodeTableWord 32 0x12800000 = some (.mr2 5 0) ∧
  decodeTableWord 32 0x40000800 = some (.pcgSeed 1 0) ∧ decodeTableWord 32 0x60400000 = some (.xoSeed 0 4) ∧
  decodeTableWord 32 0x44000800 = some (.pcgDflt 1) ∧ decodeTableWord 32 0x48800800 = some (.pcgNext 1 1) ∧
  decodeTableWord 32 0x6B000000 = some (.xoNext 6 0) ∧
  decodeTableWord 32 0x4D300000 = some (.pcgBnd32 2 0 3) ∧ decodeTableWord 32 0x6FD00000 = some (.xoBnd64 7 0 5) ∧
  decodeTableWord 32 0x84800180 = some (.flt64PP 1 0 1)

/-! ### The machine as a whole -/

/-- The state after reset is legal. -/
def Obligations.ResetIsLegal : Prop := State.reset.Inv

/-- Every step keeps a state legal: OPW-bit registers, NPCG and NXO cores, odd increments (10_state.md R60), ERRCODE at
most 3 and set with ERR, and a clean STATUS and a latched command while BUSY. -/
def Obligations.StepKeepsStateLegal : Prop :=
  ∀ s t : State, s.Inv → step s = .next t → t.Inv

/-- 60_exceptions.md R320: the engine's step decodes PENDING and runs the command, on an engine turn and when no turn is
left (70_reset_and_hazards.md R391; log entry 6). The step takes the turn off the schedule first. -/
def Obligations.StepRunsDecodedCommand : Prop :=
  ∀ (s : State) (i : Instr), s.busy = true → decode s.cfg.npcg s.cfg.nxo s.pending = .ok i →
    (∀ rest, s.turns = .engine :: rest → step s = exec i { s with turns := rest }) ∧
    (s.turns = [] → step s = exec i s)

/-- 30_encoding.md R132: a word that is ILLEGAL changes only STATUS. -/
def Obligations.IllegalCommandChangesOnlyStatus : Prop :=
  ∀ (s : State) (why : Illegal) (rest : List Turn), s.busy = true → s.turns = .engine :: rest →
    decode s.cfg.npcg s.cfg.nxo s.pending = .error why →
    step s = .next { s with turns := rest, busy := false, done := true, err := true, errcode := 1 }

/-- 60_exceptions.md R320, R321: an engine step always ends the pending command, in one of the four ways STATUS reports. -/
def Obligations.EngineStepEndsCommand : Prop :=
  ∀ (s : State) (rest : List Turn), s.busy = true → s.turns = .engine :: rest →
    ∃ t, step s = .next t ∧ t.turns = rest ∧
      (Succeeded t ∨ (t.busy = false ∧ t.done = true ∧ t.err = true ∧ (t.errcode = 1 ∨ t.errcode = 2 ∨ t.errcode = 3)))

/-- 20_memory.md R80, R93: a host turn performs its access and no more; a store whose value does not fit in its bytes is
no access (log entry 11). -/
def Obligations.HostTurnPerformsItsAccess : Prop :=
  ∀ (s : State) (a : Access) (rest : List Turn), s.turns = .host a :: rest →
    (a.fits = true → step s = .next (State.access { s with turns := rest } a)) ∧
    (a.fits = false → step s = .fault .storeTooWide)

/-! ### Frames -/

/-- 10_state.md R32, R33 and 60_exceptions.md R320: a command leaves every register but its destination, and everything
but STATUS and the cores, unchanged. -/
def Obligations.CommandFrame : Prop :=
  ∀ (i : Instr) (s t : State), exec i s = .next t →
    (∀ r : RegId, dest i ≠ some r → t.x[r] = s.x[r]) ∧
    t.cfg = s.cfg ∧ t.lastcmd = s.lastcmd ∧ t.pending = s.pending ∧ t.haz = s.haz ∧ t.ie = s.ie ∧
    t.history = s.history ∧ t.turns = s.turns ∧ t.freeIndex = s.freeIndex

/-- 60_exceptions.md R321: an error completion writes no operand register, and ILLEGAL and INVALID_ARG leave every core
unchanged. -/
def Obligations.ErrorCompletionFrame : Prop :=
  ∀ (i : Instr) (s t : State), exec i s = .next t → t.err = true →
    t.x = s.x ∧ (t.errcode = 1 ∨ t.errcode = 2 → t.pcg = s.pcg ∧ t.xo = s.xo)

/-- 10_state.md R64: a command changes only the cores it selects. -/
def Obligations.CommandChangesOnlySelectedCores : Prop :=
  ∀ (i : Instr) (s t : State), exec i s = .next t →
    t.pcg.length = s.pcg.length ∧ t.xo.length = s.xo.length ∧
    (∀ k : Nat, (∀ e ∈ pcgCores i, e.val ≠ k) → t.pcg[k]? = s.pcg[k]?) ∧
    (∀ k : Nat, (∀ e ∈ xoCores i, e.val ≠ k) → t.xo[k]? = s.xo[k]?)

/-- Every byte of the aperture stays as it was but those of STATUS and of the destination's window (10_state.md R32, R84). -/
def Obligations.CommandApertureFrame : Prop :=
  ∀ (i : Instr) (s t : State) (off : Nat), s.cfg.legal = true → exec i s = .next t → off < 0x018 ∨ 0x020 ≤ off →
    (∀ r : RegId, dest i = some r → ¬InWindow s.cfg r off) → apertureByte t off = apertureByte s off

/-- 10_state.md R34, R72, 60_exceptions.md R327: a command that reads an operand word nothing has written marks the run,
and no command clears the mark (log entry 2). -/
def Obligations.UnwrittenSourceMarksRun : Prop :=
  ∀ (i : Instr) (s t : State), i.coresPresent s.pcg.length s.xo.length = true → exec i s = .next t →
    (t.faultMark = true ↔ s.faultMark = true ∨ ∃ r ∈ sources i, regWritten s.x[r] = false)

/-! ### Modular arithmetic -/

/-- 40_modular.md R161: RESIDUE gives the unique r with 0 ≤ r < m and m | n − r, and INVALID_ARG for m ≤ 0. -/
def Obligations.ResidueResult : Prop :=
  ∀ (s : State) (rd ra rb : RegId), s.Inv →
    Spells (.residue rd ra rb) 0x04000000 0xFC01FFFF ∧
    (0 < s.val rb → ∃ t r, exec (.residue rd ra rb) s = .next t ∧ Succeeded t ∧ Holds t rd r ∧
      0 ≤ r ∧ r < s.val rb ∧ s.val rb ∣ s.val ra - r) ∧
    (s.val rb ≤ 0 → ∃ t, exec (.residue rd ra rb) s = .next t ∧ FailedWith 2 s t)

/-- 40_modular.md R163, R165, R166: MODPOW gives ((base mod mod)^power) mod mod with x^0 = 1, for every mod ≥ 1, and
INVALID_ARG for mod < 1 or power < 0. -/
def Obligations.ModpowResult : Prop :=
  ∀ (s : State) (rd ra rb rc : RegId), s.Inv →
    Spells (.modpow rd ra rb rc) 0x08000000 0xFC003FFF ∧
    (1 ≤ s.val rc → 0 ≤ s.val rb → ∃ t, exec (.modpow rd ra rb rc) s = .next t ∧ Succeeded t ∧
      Holds t rd ((s.val ra % s.val rc) ^ (s.val rb).toNat % s.val rc)) ∧
    (s.val rc < 1 ∨ s.val rb < 0 → ∃ t, exec (.modpow rd ra rb rc) s = .next t ∧ FailedWith 2 s t)

/-- 40_modular.md R170, R171: JACOBI gives the Jacobi symbol (a/n), −1 as all ones, and INVALID_ARG for n < 1 or n even. -/
def Obligations.JacobiResult : Prop :=
  ∀ (s : State) (rd ra rb : RegId), s.Inv →
    Spells (.jacobi rd ra rb) 0x0C000000 0xFC01FFFF ∧
    (1 ≤ s.val rb → s.val rb % 2 = 1 → ∃ t, exec (.jacobi rd ra rb) s = .next t ∧ Succeeded t ∧
      Holds t rd (jacobiSym (s.val ra) (s.val rb).toNat)) ∧
    (s.val rb < 1 ∨ s.val rb % 2 = 0 → ∃ t, exec (.jacobi rd ra rb) s = .next t ∧ FailedWith 2 s t)

/-- 41_miller_rabin.md R201: MR2 gives 1 when, with n − 1 = d·2^k and d odd, 2^d is 1 modulo n or 2^(d·2^i) is n − 1 for
some i < k, else 0; INVALID_ARG for n < 3 or n even. -/
def Obligations.MillerRabinResult : Prop :=
  ∀ (s : State) (rd ra : RegId), s.Inv →
    Spells (.mr2 rd ra) 0x10000000 0xFC0FFFFF ∧
    (∀ d k : Nat, 3 ≤ s.val ra → s.val ra % 2 = 1 → d % 2 = 1 → s.val ra - 1 = d * 2 ^ k →
      ∃ t v, exec (.mr2 rd ra) s = .next t ∧ Succeeded t ∧ Holds t rd v ∧ (v = 0 ∨ v = 1) ∧
        (v = 1 ↔ (2 : Int) ^ d % s.val ra = 1 ∨ ∃ i < k, (2 : Int) ^ (d * 2 ^ i) % s.val ra = s.val ra - 1)) ∧
    (s.val ra < 3 ∨ s.val ra % 2 = 0 → ∃ t, exec (.mr2 rd ra) s = .next t ∧ FailedWith 2 s t)

/-- 41_miller_rabin.md R202: every odd prime n ≥ 3 gives 1, so a 0 is conclusive. -/
def Obligations.MillerRabinAcceptsOddPrimes : Prop :=
  ∀ (s : State) (rd ra : RegId), s.Inv → 3 ≤ s.val ra → (s.val ra).toNat.Prime →
    ∃ t, exec (.mr2 rd ra) s = .next t ∧ Succeeded t ∧ Holds t rd 1

/-- 00_scope.md R10, 40_modular.md R167: MODEXP_IMPL changes no result of any command. -/
def Obligations.ModexpImplChangesNoResult : Prop :=
  ∀ (i : Instr) (s t : State) (m : ModexpImpl), exec i s = .next t →
    exec i { s with cfg := { s.cfg with modexpImpl := m } } = .next { t with cfg := { t.cfg with modexpImpl := m } }

/-! ### PRNG cores -/

/-- 42_prng.md R221, R222, R223: a PCG draw on state words as integers. -/
def Obligations.PcgDrawMatchesRule : Prop :=
  ∀ c : PcgCore, c.step.ps.toNat = pcgStep c.ps.toNat c.pi.toNat ∧ c.step.pi = c.pi ∧
    c.output.toNat = pcgOutput c.ps.toNat ∧
    ∀ (e : CoreId) (cs : List PcgCore), cs[e.val]? = some c → pcgDraw e cs = (c.output.toNat, cs.set e.val c.step)

/-- 42_prng.md R241, R242: a Xoshiro draw on state words as integers. -/
def Obligations.XoDrawMatchesRule : Prop :=
  ∀ c : XoCore, xoWords (Machine.xoStep c) = Spec.xoStep c.s0.toNat c.s1.toNat c.s2.toNat c.s3.toNat ∧
    (Machine.xoOutput c).toNat = Spec.xoOutput c.s0.toNat c.s3.toNat ∧
    ∀ (e : CoreId) (cs : List XoCore), cs[e.val]? = some c →
      xoDraw e cs = ((Machine.xoOutput c).toNat, cs.set e.val (Machine.xoStep c))

/-- 42_prng.md R225: PCG.SEED's two steps, from initstate = v[63:0] and initseq = v[127:64]; INVALID_ARG outside
[0, 2^128), the core unchanged. -/
def Obligations.PcgSeedEffect : Prop :=
  ∀ (s : State) (e : CoreId) (ra : RegId), e.val < s.pcg.length →
    Spells (.pcgSeed e ra) 0x40000000 0xFF8FC7FF ∧
    (0 ≤ s.val ra → s.val ra < 2 ^ 128 → ∃ t c, exec (.pcgSeed e ra) s = .next t ∧ Succeeded t ∧ t.x = s.x ∧
      t.xo = s.xo ∧ t.pcg = s.pcg.set e.val c ∧
      c.pi.toNat = (2 * ((s.val ra).toNat / 2 ^ 64) + 1) % 2 ^ 64 ∧
      c.ps.toNat = pcgStep ((c.pi.toNat + (s.val ra).toNat % 2 ^ 64) % 2 ^ 64) c.pi.toNat) ∧
    (s.val ra < 0 ∨ 2 ^ 128 ≤ s.val ra → ∃ t, exec (.pcgSeed e ra) s = .next t ∧ FailedWith 2 s t)

/-- 42_prng.md R246: XO.SEED loads word i from v[64i+63:64i], with no mixing; INVALID_ARG outside [0, 2^256), the core
unchanged. -/
def Obligations.XoSeedEffect : Prop :=
  ∀ (s : State) (e : CoreId) (ra : RegId), e.val < s.xo.length →
    Spells (.xoSeed e ra) 0x60000000 0xFF8FC7FF ∧
    (0 ≤ s.val ra → s.val ra < 2 ^ 256 → ∃ t c, exec (.xoSeed e ra) s = .next t ∧ Succeeded t ∧ t.x = s.x ∧
      t.pcg = s.pcg ∧ t.xo = s.xo.set e.val c ∧
      (s.val ra).toNat = c.s0.toNat + 2 ^ 64 * c.s1.toNat + 2 ^ 128 * c.s2.toNat + 2 ^ 192 * c.s3.toNat) ∧
    (s.val ra < 0 ∨ 2 ^ 256 ≤ s.val ra → ∃ t, exec (.xoSeed e ra) s = .next t ∧ FailedWith 2 s t)

/-- 42_prng.md R226, R247: PCG.DFLT and XO.DFLT load the default constants, which are parameters. -/
def Obligations.DefaultSeedEffect : Prop :=
  ∀ (s : State) (e : CoreId),
    Spells (.pcgDflt e) 0x44000000 0xFFFFC7FF ∧ Spells (.xoDflt e) 0x64000000 0xFFFFC7FF ∧
    (e.val < s.pcg.length → ∃ t, exec (.pcgDflt e) s = .next t ∧ Succeeded t ∧ t.x = s.x ∧ t.xo = s.xo ∧
      t.pcg = s.pcg.set e.val ⟨s.cfg.pcgDefState, s.cfg.pcgDefInc⟩ ∧ t.faultMark = s.faultMark) ∧
    (e.val < s.xo.length → ∃ t, exec (.xoDflt e) s = .next t ∧ Succeeded t ∧ t.x = s.x ∧ t.pcg = s.pcg ∧
      t.xo = s.xo.set e.val s.cfg.xoDef ∧ t.faultMark = s.faultMark)

/-- 42_prng.md R227: PCG.NEXT writes the raw draw from the pre-step state and advances the core once. -/
def Obligations.PcgNextResult : Prop :=
  ∀ (s : State) (rd : RegId) (e : CoreId) (c : PcgCore), s.cfg.legal = true → s.pcg[e.val]? = some c →
    Spells (.pcgNext rd e) 0x48000000 0xFC7FC7FF ∧
    ∃ t, exec (.pcgNext rd e) s = .next t ∧ Succeeded t ∧ Holds t rd (pcgOutput c.ps.toNat) ∧
      t.pcg = s.pcg.set e.val c.step ∧ t.xo = s.xo

/-- 42_prng.md R248: XO.NEXT writes the raw draw from the pre-step state and advances the core once. -/
def Obligations.XoNextResult : Prop :=
  ∀ (s : State) (rd : RegId) (e : CoreId) (c : XoCore), s.cfg.legal = true → s.xo[e.val]? = some c →
    Spells (.xoNext rd e) 0x68000000 0xFC7FC7FF ∧
    ∃ t, exec (.xoNext rd e) s = .next t ∧ Succeeded t ∧ Holds t rd (Spec.xoOutput c.s0.toNat c.s3.toNat) ∧
      t.xo = s.xo.set e.val (Machine.xoStep c) ∧ t.pcg = s.pcg

/-- 42_prng.md R224, R228: PCG.BND32 returns the first of at most RETRY_MAX samples that is at or above 2^32 mod bound,
reduced modulo bound, is EXHAUSTED when there is none, and keeps every advance; INVALID_ARG for a bound outside
[1, 2^32]. -/
def Obligations.PcgBound32Result : Prop :=
  ∀ (s : State) (rd : RegId) (e : CoreId) (ra : RegId) (c : PcgCore), s.cfg.legal = true → s.pcg[e.val]? = some c →
    Spells (.pcgBnd32 rd e ra) 0x4C000000 0xFC0FC7FF ∧
    (∀ b k : Nat, s.val ra = b → 1 ≤ b → b ≤ 2 ^ 32 → k < s.cfg.retryMax →
      (∀ j < k, (PcgCore.step^[j] c).output.toNat < 2 ^ 32 % b) → 2 ^ 32 % b ≤ (PcgCore.step^[k] c).output.toNat →
      ∃ t, exec (.pcgBnd32 rd e ra) s = .next t ∧ Succeeded t ∧
        Holds t rd ((PcgCore.step^[k] c).output.toNat % b : Nat) ∧
        t.pcg = s.pcg.set e.val (PcgCore.step^[k + 1] c) ∧ t.xo = s.xo) ∧
    (∀ b : Nat, s.val ra = b → 1 ≤ b → b ≤ 2 ^ 32 →
      (∀ j < s.cfg.retryMax, (PcgCore.step^[j] c).output.toNat < 2 ^ 32 % b) →
      ∃ t, exec (.pcgBnd32 rd e ra) s = .next t ∧
        FailedWith 3 { s with pcg := s.pcg.set e.val (PcgCore.step^[s.cfg.retryMax] c) } t) ∧
    (s.val ra < 1 ∨ 2 ^ 32 < s.val ra → ∃ t, exec (.pcgBnd32 rd e ra) s = .next t ∧ FailedWith 2 s t)

/-- 42_prng.md R224, R249: XO.BND64, the same scheme with 64-bit samples and bounds up to 2^64. -/
def Obligations.XoBound64Result : Prop :=
  ∀ (s : State) (rd : RegId) (e : CoreId) (ra : RegId) (c : XoCore), s.cfg.legal = true → s.xo[e.val]? = some c →
    Spells (.xoBnd64 rd e ra) 0x6C000000 0xFC0FC7FF ∧
    (∀ b k : Nat, s.val ra = b → 1 ≤ b → b ≤ 2 ^ 64 → k < s.cfg.retryMax →
      (∀ j < k, (Machine.xoOutput (Machine.xoStep^[j] c)).toNat < 2 ^ 64 % b) →
      2 ^ 64 % b ≤ (Machine.xoOutput (Machine.xoStep^[k] c)).toNat →
      ∃ t, exec (.xoBnd64 rd e ra) s = .next t ∧ Succeeded t ∧
        Holds t rd ((Machine.xoOutput (Machine.xoStep^[k] c)).toNat % b : Nat) ∧
        t.xo = s.xo.set e.val (Machine.xoStep^[k + 1] c) ∧ t.pcg = s.pcg) ∧
    (∀ b : Nat, s.val ra = b → 1 ≤ b → b ≤ 2 ^ 64 →
      (∀ j < s.cfg.retryMax, (Machine.xoOutput (Machine.xoStep^[j] c)).toNat < 2 ^ 64 % b) →
      ∃ t, exec (.xoBnd64 rd e ra) s = .next t ∧
        FailedWith 3 { s with xo := s.xo.set e.val (Machine.xoStep^[s.cfg.retryMax] c) } t) ∧
    (s.val ra < 1 ∨ 2 ^ 64 < s.val ra → ∃ t, exec (.xoBnd64 rd e ra) s = .next t ∧ FailedWith 2 s t)

/-- 42_prng.md R224, R250: XO.BND32, 64-bit samples and threshold 2^64 mod bound with bounds up to 2^32. -/
def Obligations.XoBound32Result : Prop :=
  ∀ (s : State) (rd : RegId) (e : CoreId) (ra : RegId) (c : XoCore), s.cfg.legal = true → s.xo[e.val]? = some c →
    Spells (.xoBnd32 rd e ra) 0x70000000 0xFC0FC7FF ∧
    (∀ b k : Nat, s.val ra = b → 1 ≤ b → b ≤ 2 ^ 32 → k < s.cfg.retryMax →
      (∀ j < k, (Machine.xoOutput (Machine.xoStep^[j] c)).toNat < 2 ^ 64 % b) →
      2 ^ 64 % b ≤ (Machine.xoOutput (Machine.xoStep^[k] c)).toNat →
      ∃ t, exec (.xoBnd32 rd e ra) s = .next t ∧ Succeeded t ∧
        Holds t rd ((Machine.xoOutput (Machine.xoStep^[k] c)).toNat % b : Nat) ∧
        t.xo = s.xo.set e.val (Machine.xoStep^[k + 1] c) ∧ t.pcg = s.pcg) ∧
    (∀ b : Nat, s.val ra = b → 1 ≤ b → b ≤ 2 ^ 32 →
      (∀ j < s.cfg.retryMax, (Machine.xoOutput (Machine.xoStep^[j] c)).toNat < 2 ^ 64 % b) →
      ∃ t, exec (.xoBnd32 rd e ra) s = .next t ∧
        FailedWith 3 { s with xo := s.xo.set e.val (Machine.xoStep^[s.cfg.retryMax] c) } t) ∧
    (s.val ra < 1 ∨ 2 ^ 32 < s.val ra → ∃ t, exec (.xoBnd32 rd e ra) s = .next t ∧ FailedWith 2 s t)

/-- 42_prng.md R230: every non-error result of a bounded draw lies in [0, bound). -/
def Obligations.BoundedResultsInRange : Prop :=
  ∀ (s t : State) (rd : RegId) (e : CoreId) (ra : RegId) (i : Instr), s.cfg.legal = true →
    i = .pcgBnd32 rd e ra ∨ i = .xoBnd64 rd e ra ∨ i = .xoBnd32 rd e ra →
    exec i s = .next t → t.err = false → 0 ≤ t.val rd ∧ t.val rd < s.val ra

/-- 42_prng.md R251: the all-zero Xoshiro state returns 0 and stays, and only the engine's step that runs XO.SEED with v = 0
creates it. -/
def Obligations.AllZeroXoOnlyBySeed : Prop :=
  Machine.xoOutput ⟨0, 0, 0, 0⟩ = 0 ∧ Machine.xoStep ⟨0, 0, 0, 0⟩ = ⟨0, 0, 0, 0⟩ ∧
  ∀ (s t : State) (k : Nat), s.cfg.legal = true → step s = .next t → t.xo[k]? = some ⟨0, 0, 0, 0⟩ →
    s.xo[k]? = some ⟨0, 0, 0, 0⟩ ∨
    ∃ e ra, EngineRuns s (.xoSeed e ra) ∧ e.val = k ∧ s.val ra = 0

/-! ### Float synthesis -/

/-- 43_float.md R281, R284, R285: FLT32.P. After k rejected first words the next attempt's bit pattern is written, and the
core keeps every draw; EXHAUSTED when RETRY_MAX attempts are rejected. -/
def Obligations.Float32PcgResult : Prop :=
  ∀ (s : State) (rd : RegId) (e : CoreId) (c : PcgCore) (words : Nat → Nat), s.cfg.legal = true →
    s.pcg[e.val]? = some c → (∀ j, words j = (PcgCore.step^[j] c).output.toNat) →
    Spells (.flt32P rd e) 0x80000000 0xFC7FC7FF ∧
    (∀ k < s.cfg.retryMax, (∀ j < k, Rejected 32 8 (words j)) → ¬Rejected 32 8 (words k) →
      ∃ t, exec (.flt32P rd e) s = .next t ∧ Succeeded t ∧
        Holds t rd (pattern 32 8 126 23 fun j => words (k + j)) ∧
        t.pcg = s.pcg.set e.val (PcgCore.step^[k + wordsUsed 32 8 126 fun j => words (k + j)] c) ∧ t.xo = s.xo) ∧
    ((∀ j < s.cfg.retryMax, Rejected 32 8 (words j)) → ∃ t, exec (.flt32P rd e) s = .next t ∧
      FailedWith 3 { s with pcg := s.pcg.set e.val (PcgCore.step^[s.cfg.retryMax] c) } t)

/-- 43_float.md R281, R284, R286: FLT32.X, on the high halves of Xoshiro draws. -/
def Obligations.Float32XoResult : Prop :=
  ∀ (s : State) (rd : RegId) (e : CoreId) (c : XoCore) (words : Nat → Nat), s.cfg.legal = true →
    s.xo[e.val]? = some c → (∀ j, words j = (Machine.xoOutput (Machine.xoStep^[j] c)).toNat / 2 ^ 32) →
    Spells (.flt32X rd e) 0x80000040 0xFC7FC7FF ∧
    (∀ k < s.cfg.retryMax, (∀ j < k, Rejected 32 8 (words j)) → ¬Rejected 32 8 (words k) →
      ∃ t, exec (.flt32X rd e) s = .next t ∧ Succeeded t ∧
        Holds t rd (pattern 32 8 126 23 fun j => words (k + j)) ∧
        t.xo = s.xo.set e.val (Machine.xoStep^[k + wordsUsed 32 8 126 fun j => words (k + j)] c) ∧ t.pcg = s.pcg) ∧
    ((∀ j < s.cfg.retryMax, Rejected 32 8 (words j)) → ∃ t, exec (.flt32X rd e) s = .next t ∧
      FailedWith 3 { s with xo := s.xo.set e.val (Machine.xoStep^[s.cfg.retryMax] c) } t)

/-- 43_float.md R282, R284, R287: FLT64.X, on whole Xoshiro draws. -/
def Obligations.Float64XoResult : Prop :=
  ∀ (s : State) (rd : RegId) (e : CoreId) (c : XoCore) (words : Nat → Nat), s.cfg.legal = true →
    s.xo[e.val]? = some c → (∀ j, words j = (Machine.xoOutput (Machine.xoStep^[j] c)).toNat) →
    Spells (.flt64X rd e) 0x84000040 0xFC7FC7FF ∧
    (∀ k < s.cfg.retryMax, (∀ j < k, Rejected 64 11 (words j)) → ¬Rejected 64 11 (words k) →
      ∃ t, exec (.flt64X rd e) s = .next t ∧ Succeeded t ∧
        Holds t rd (pattern 64 11 1022 52 fun j => words (k + j)) ∧
        t.xo = s.xo.set e.val (Machine.xoStep^[k + wordsUsed 64 11 1022 fun j => words (k + j)] c) ∧ t.pcg = s.pcg) ∧
    ((∀ j < s.cfg.retryMax, Rejected 64 11 (words j)) → ∃ t, exec (.flt64X rd e) s = .next t ∧
      FailedWith 3 { s with xo := s.xo.set e.val (Machine.xoStep^[s.cfg.retryMax] c) } t)

/-- 43_float.md R282, R284, R288: FLT64.PP. Word j is hi·2^32 + lo, from draw j of core e and draw j of core f when they
differ, and from draws 2j and 2j + 1 of the one core when e = f. -/
def Obligations.Float64PairResult : Prop :=
  ∀ (s : State) (rd : RegId) (e f : CoreId) (c d : PcgCore) (words : Nat → Nat) (after : Nat → List PcgCore),
    s.cfg.legal = true → s.pcg[e.val]? = some c → s.pcg[f.val]? = some d →
    (e ≠ f → (∀ j, words j = (PcgCore.step^[j] c).output.toNat * 2 ^ 32 + (PcgCore.step^[j] d).output.toNat) ∧
      ∀ n, after n = (s.pcg.set e.val (PcgCore.step^[n] c)).set f.val (PcgCore.step^[n] d)) →
    (e = f → (∀ j, words j =
        (PcgCore.step^[2 * j] c).output.toNat * 2 ^ 32 + (PcgCore.step^[2 * j + 1] c).output.toNat) ∧
      ∀ n, after n = s.pcg.set e.val (PcgCore.step^[2 * n] c)) →
    Spells (.flt64PP rd e f) 0x84000080 0xFC7FC0FF ∧
    (∀ k < s.cfg.retryMax, (∀ j < k, Rejected 64 11 (words j)) → ¬Rejected 64 11 (words k) →
      ∃ t, exec (.flt64PP rd e f) s = .next t ∧ Succeeded t ∧
        Holds t rd (pattern 64 11 1022 52 fun j => words (k + j)) ∧
        t.pcg = after (k + wordsUsed 64 11 1022 fun j => words (k + j)) ∧ t.xo = s.xo) ∧
    ((∀ j < s.cfg.retryMax, Rejected 64 11 (words j)) → ∃ t, exec (.flt64PP rd e f) s = .next t ∧
      FailedWith 3 { s with pcg := after s.cfg.retryMax } t)

/-- 43_float.md R283, R289: every non-error float result is a bit pattern below that of 1.0, with sign 0. -/
def Obligations.FloatResultsBelowOne : Prop :=
  ∀ (s t : State) (rd : RegId) (e f : CoreId) (i : Instr), s.cfg.legal = true → exec i s = .next t → t.err = false →
    (i = .flt32P rd e ∨ i = .flt32X rd e → 0 ≤ t.val rd ∧ t.val rd < 0x3F800000) ∧
    (i = .flt64X rd e ∨ i = .flt64PP rd e f → 0 ≤ t.val rd ∧ t.val rd < 0x3FF0000000000000)

/-! ### The host's side -/

/-- 10_state.md R51 (and the store cases of R43): a 4- or 8-byte store to CMD while BUSY = 0 accepts the word in bits
[31:0], in one step. -/
def Obligations.IdleStoreToCmdIsAccepted : Prop :=
  ∀ (s : State) (n v : Nat), s.busy = false → n = 4 ∨ n = 8 →
    s.access (.store (s.cfg.abase + 0x010) n v) =
      { s with
        lastcmd := BitVec.ofNat 32 v, pending := BitVec.ofNat 32 v
        busy := true, done := false, err := false, errcode := 0
        history := ⟨.store (s.cfg.abase + 0x010) n v, .stored⟩ :: s.history }

/-- 20_memory.md R91: while BUSY = 1 a window store and an issue are dropped and a window load returns an unspecified value,
each setting HAZ; no other access sets HAZ. (That the value is the model's numbered free value is log entry 8, and that
such a load leaves the fault mark as it is is log entry 13: the model's choices.) -/
def Obligations.BusyHazards : Prop :=
  ∀ (s : State) (off n v : Nat), s.busy = true → s.cfg.legal = true → off < 0x4000 → n = 4 ∨ n = 8 → off % n = 0 →
    (InWindows s.cfg off ∨ off = 0x010 → s.access (.store (s.cfg.abase + off) n v) =
      { s with haz := true, history := ⟨.store (s.cfg.abase + off) n v, .stored⟩ :: s.history }) ∧
    (InWindows s.cfg off → s.access (.load (s.cfg.abase + off) n) =
      { s with
        haz := true, freeIndex := s.freeIndex + 1
        history := ⟨.load (s.cfg.abase + off) n, .loaded (Config.freeData s.freeIndex n).toNat⟩ :: s.history }) ∧
    (¬InWindows s.cfg off → (s.access (.load (s.cfg.abase + off) n)).haz = s.haz) ∧
    (¬InWindows s.cfg off → off ≠ 0x010 → s.haz = false →
      (s.access (.store (s.cfg.abase + off) n v)).haz = false)

/-- 10_state.md R54: HAZ is sticky: only a STATUS store with bit 3 set and a reset clear it. -/
def Obligations.HazIsSticky : Prop :=
  ∀ s t : State, step s = .next t → s.haz = true → t.haz = false →
    ∃ rest, s.turns = .powerOn :: rest ∨
      ∃ n v, (n = 4 ∨ n = 8) ∧
        (s.turns = .host (.store (s.cfg.abase + 0x018) n v) :: rest ∧ v.testBit 3 = true ∨
          s.turns = .host (.store (s.cfg.abase + 0x020) n v) :: rest ∧ v.testBit 1 = true)

/-- 10_state.md R55: a store to STATUS clears DONE, ERR with ERRCODE, and HAZ where bits 1, 2 and 3 are set, BUSY or not,
and changes nothing else; a 4-byte store at 0x01C has no effect. -/
def Obligations.StatusStoreClearsByOnes : Prop :=
  ∀ (s : State) (n v : Nat), n = 4 ∨ n = 8 →
    s.access (.store (s.cfg.abase + 0x018) n v) =
      { s with
        done := if v.testBit 1 then false else s.done
        err := if v.testBit 2 then false else s.err
        errcode := if v.testBit 2 then 0 else s.errcode
        haz := if v.testBit 3 then false else s.haz
        history := ⟨.store (s.cfg.abase + 0x018) n v, .stored⟩ :: s.history } ∧
    s.access (.store (s.cfg.abase + 0x01C) 4 v) =
      { s with history := ⟨.store (s.cfg.abase + 0x01C) 4 v, .stored⟩ :: s.history }

/-- 10_state.md R57, R58 and 70_reset_and_hazards.md R371: a CTRL store sets IE to bit 0 and, with bit 1 set, soft-resets
first, BUSY or not: operand registers and written flags stay, every core returns to its default, LASTCMD and STATUS
become 0. (That PENDING becomes 0 and the fault mark stays is the model's choice, log entries 3 and 4.) -/
def Obligations.CtrlStoreAndSoftReset : Prop :=
  ∀ (s : State) (n v : Nat), n = 4 ∨ n = 8 →
    (v.testBit 1 = false → s.access (.store (s.cfg.abase + 0x020) n v) =
      { s with
        ie := v.testBit 0
        history := ⟨.store (s.cfg.abase + 0x020) n v, .stored⟩ :: s.history }) ∧
    (v.testBit 1 = true → s.access (.store (s.cfg.abase + 0x020) n v) =
      { s with
        lastcmd := 0, pending := 0, busy := false, done := false, err := false, haz := false, errcode := 0
        ie := v.testBit 0
        pcg := List.replicate s.cfg.npcg ⟨s.cfg.pcgDefState, s.cfg.pcgDefInc⟩
        xo := List.replicate s.cfg.nxo s.cfg.xoDef
        history := ⟨.store (s.cfg.abase + 0x020) n v, .stored⟩ :: s.history })

/-- 10_state.md R41, R42, R43, R50, R57: the values 8-byte loads of the control registers return, BUSY or not. -/
def Obligations.ControlRegisterLoads : Prop :=
  ∀ (s : State), s.cfg.legal = true →
    s.load 0x000 8 = (0x0000000755464E4D, s) ∧
    s.load 0x008 8 = (s.cfg.opw + s.cfg.npcg * 2 ^ 16 + s.cfg.nxo * 2 ^ 20 +
      (if s.cfg.modexpImpl = .montgomery then 2 ^ 24 else 0) + s.cfg.retryMax * 2 ^ 32, s) ∧
    s.load 0x010 8 = (s.lastcmd.toNat, s) ∧
    s.load 0x018 8 = (s.busy.toNat + 2 * s.done.toNat + 4 * s.err.toNat + 8 * s.haz.toNat + 16 * s.errcode.toNat, s) ∧
    s.load 0x020 8 = (s.ie.toNat, s)

/-- 20_memory.md R86, R93: with BUSY = 0 a window load returns what the last store to the same bytes stored, and the
store marks the words it covers written, so that the load does not mark the run. -/
def Obligations.WindowLoadReturnsStoredValue : Prop :=
  ∀ (s : State) (off n v : Nat), s.Inv → s.busy = false → InWindows s.cfg off → n = 4 ∨ n = 8 → off % n = 0 →
    v < 2 ^ (8 * n) →
    s.access (.store (s.cfg.abase + off) n v) =
      (s.store off n v).record (.store (s.cfg.abase + off) n v) .stored ∧
    (s.store off n v).load off n = (v, s.store off n v)

/-- 20_memory.md R86, 10_state.md R32, R34: with BUSY = 0 a window store changes the operand registers alone, of the
aperture's bytes only those it covers, and of the registers' words, written flags included, only those it covers, whose
flags it sets. -/
def Obligations.WindowStoreFrame : Prop :=
  ∀ (s : State) (off n v : Nat), s.Inv → s.busy = false → InWindows s.cfg off → n = 4 ∨ n = 8 → off % n = 0 →
    s.store off n v = { s with x := (s.store off n v).x } ∧
    (∀ a : Nat, a < off ∨ off + n ≤ a → apertureByte (s.store off n v) a = apertureByte s a) ∧
    ∀ (r : RegId) (j a : Nat), j < s.cfg.opw / 32 → a = 0x1000 + r.val * (s.cfg.opw / 8) + 4 * j →
      (a < off ∨ off + n ≤ a → (s.store off n v).x[r][j]? = s.x[r][j]?) ∧
      (off ≤ a → a < off + n → ∃ w, (s.store off n v).x[r][j]? = some w ∧ w.written = true)

/-- 20_memory.md R84, R85: an 8-byte read is the two 4-byte halves, the half at +4 giving bits [63:32]. -/
def Obligations.EightByteReadIsTwoHalves : Prop :=
  ∀ (s : State) (off : Nat),
    apertureBytes s off 8 = apertureBytes s off 4 + 2 ^ 32 * apertureBytes s (off + 4) 4 ∧
    apertureBytes s off 4 < 2 ^ 32

/-- 20_memory.md R83, 10_state.md R40, R43: a legal load of a reserved offset reads 0 with no effect, and a legal store to
a reserved offset, to ID, to CFG or to the upper half of CMD is ignored. -/
def Obligations.ReservedOffsetsReadZeroIgnoreWrites : Prop :=
  ∀ (s : State) (off n v : Nat), s.cfg.legal = true → off < 0x4000 → n = 4 ∨ n = 8 → off % n = 0 →
    (0x028 ≤ off → ¬InWindows s.cfg off → s.load off n = (0, s) ∧ s.store off n v = s) ∧
    (off < 0x010 ∨ off = 0x014 → s.store off n v = s)

/-- 20_memory.md R89, R80 and 60_exceptions.md R326: an access of any other size or alignment gets a bus error and
changes no state; an address outside the aperture is not decoded. (The history and the free value's index, the model's
own bookkeeping, move on: log entries 8, 9 and 19.) -/
def Obligations.IllegalAccessChangesNoState : Prop :=
  ∀ (s : State) (addr n v : Nat),
    (∀ off, addr = s.cfg.abase + off → off < 0x4000 → ¬((n = 4 ∨ n = 8) ∧ off % n = 0) →
      s.access (.store addr n v) = { s with history := ⟨.store addr n v, .busError none⟩ :: s.history } ∧
      s.access (.load addr n) =
        { s with
          freeIndex := s.freeIndex + 1
          history := ⟨.load addr n, .busError (some (Config.freeData s.freeIndex n).toNat)⟩ :: s.history }) ∧
    (addr < s.cfg.abase ∨ s.cfg.abase + 0x4000 ≤ addr →
      s.access (.store addr n v) = { s with history := ⟨.store addr n v, .notDecoded⟩ :: s.history } ∧
      s.access (.load addr n) = { s with history := ⟨.load addr n, .notDecoded⟩ :: s.history })

/-- 20_memory.md R90 (b): a load has no effect on the architectural state, but that a window load while BUSY = 1 sets
HAZ. -/
def Obligations.LoadsHaveNoSideEffects : Prop :=
  ∀ (s : State) (addr n : Nat), ∃ mark index past,
    s.access (.load addr n) =
      { s with haz := (s.access (.load addr n)).haz, faultMark := mark, freeIndex := index, history := past } ∧
    ((s.access (.load addr n)).haz ≠ s.haz →
      s.busy = true ∧ ∃ i k, locate s.cfg (addr - s.cfg.abase) = .window i k)

/-- 10_state.md R34, R72: with BUSY = 0 a window load, of 4 bytes or of 8, marks the run exactly when a word it covers was
never written. (That it sets the mark and goes on, with the words' value, is the model's choice: log entries 1 and 2.) -/
def Obligations.UnwrittenLoadMarksRun : Prop :=
  ∀ (s : State) (i : RegId) (j : Nat) (w : OpWord), s.cfg.legal = true → s.busy = false →
    4 * j < s.cfg.opw / 8 → s.x[i][j]? = some w →
    s.load (0x1000 + i.val * (s.cfg.opw / 8) + 4 * j) 4 =
      (w.bits.toNat, { s with faultMark := s.faultMark || !w.written }) ∧
    ∀ u : OpWord, j % 2 = 0 → s.x[i][j + 1]? = some u →
      s.load (0x1000 + i.val * (s.cfg.opw / 8) + 4 * j) 8 =
        (w.bits.toNat + 2 ^ 32 * u.bits.toNat, { s with faultMark := s.faultMark || !(w.written && u.written) })

/-- 30_encoding.md R143: WRX, made while BUSY = 0, sets x[i] to enc_OPW(v) with every written flag of X[i] set, and changes
nothing else of the machine. -/
def Obligations.WrxWritesWholeRegister : Prop :=
  ∀ (s : State) (i : RegId) (v : Int), s.Inv → s.busy = false → -2 ^ (s.cfg.opw - 1) ≤ v → v < 2 ^ (s.cfg.opw - 1) →
    ∃ t past, s.accesses (hostWrx s.cfg i v) = t ∧ Holds t i v ∧ (∀ r : RegId, r ≠ i → t.x[r] = s.x[r]) ∧
      t = { s with x := t.x, history := past }

/-- 60_exceptions.md R330, 10_state.md R68: irq is IE ∧ DONE. A completion raises it when IE = 1; a STATUS store with bit 1
set, the acceptance of the next command and a reset lower it; setting IE while DONE = 1 raises it at once, and clearing IE
lowers it without changing DONE. -/
def Obligations.InterruptLine : Prop :=
  ∀ (s : State) (n v : Nat) (rest : List Turn), n = 4 ∨ n = 8 →
    (s.irq = true ↔ s.ie = true ∧ s.done = true) ∧
    (s.busy = true → s.turns = .engine :: rest → ∃ t, step s = .next t ∧ t.irq = s.ie) ∧
    (v.testBit 1 = true → (s.access (.store (s.cfg.abase + 0x018) n v)).irq = false ∧
      (s.access (.store (s.cfg.abase + 0x020) n v)).irq = false) ∧
    (s.busy = false → (s.access (.store (s.cfg.abase + 0x010) n v)).irq = false) ∧
    (v.testBit 1 = false →
      (s.access (.store (s.cfg.abase + 0x020) n v)).irq = (v.testBit 0 && s.done) ∧
      (s.access (.store (s.cfg.abase + 0x020) n v)).done = s.done) ∧
    s.powerOn.irq = false

/-! ### Whole-machine rules -/

/-- 10_state.md R62: PRNG core state is hidden. Two states that differ in their cores alone give every access the same
response and differ afterwards in their cores alone. -/
def Obligations.CoresAreHiddenFromHost : Prop :=
  ∀ (s : State) (a : Access) (pcg : List PcgCore) (xo : List XoCore),
    ∃ pcg' xo', State.access { s with pcg := pcg, xo := xo } a = { s.access a with pcg := pcg', xo := xo' }

/-- 10_state.md R51: nothing but the engine's completion step and a reset clears BUSY. -/
def Obligations.OnlyCompletionOrResetClearsBusy : Prop :=
  ∀ s t : State, step s = .next t → s.busy = true → t.busy = false →
    s.turns = [] ∨ ∃ rest, s.turns = .engine :: rest ∨ s.turns = .powerOn :: rest ∨
      ∃ n v, (n = 4 ∨ n = 8) ∧ v.testBit 1 = true ∧ s.turns = .host (.store (s.cfg.abase + 0x020) n v) :: rest

/-- 10_state.md R32: an operand register changes only by the engine's step that runs a command with that destination and
ends without error, by a host store to its window
while BUSY = 0, or by power-on reset. -/
def Obligations.OperandRegisterWriters : Prop :=
  ∀ (s t : State) (r : RegId), s.cfg.legal = true → step s = .next t → t.x[r] ≠ s.x[r] →
    (∃ i, EngineRuns s i ∧ dest i = some r ∧ t.err = false) ∨
    (s.busy = false ∧ ∃ off n v rest, InWindow s.cfg r off ∧
      s.turns = .host (.store (s.cfg.abase + off) n v) :: rest) ∨
    ∃ rest, s.turns = .powerOn :: rest

/-- 10_state.md R64: a PRNG core changes only by the engine's step that runs a command that selects it, or by a reset. -/
def Obligations.CoreStateWriters : Prop :=
  ∀ (s t : State) (k : Nat), step s = .next t →
    (t.pcg[k]? ≠ s.pcg[k]? →
      (∃ i, EngineRuns s i ∧ ∃ e ∈ pcgCores i, e.val = k) ∨
      ∃ rest, s.turns = .powerOn :: rest ∨
        ∃ n v, (n = 4 ∨ n = 8) ∧ v.testBit 1 = true ∧ s.turns = .host (.store (s.cfg.abase + 0x020) n v) :: rest) ∧
    (t.xo[k]? ≠ s.xo[k]? →
      (∃ i, EngineRuns s i ∧ ∃ e ∈ xoCores i, e.val = k) ∨
      ∃ rest, s.turns = .powerOn :: rest ∨
        ∃ n v, (n = 4 ∨ n = 8) ∧ v.testBit 1 = true ∧ s.turns = .host (.store (s.cfg.abase + 0x020) n v) :: rest)

/-- 10_state.md R72: no step but a power-on reset clears the fault mark (for a soft reset, log entry 3). -/
def Obligations.FaultMarkIsSticky : Prop :=
  ∀ s t : State, step s = .next t → s.faultMark = true →
    t.faultMark = true ∨ ∃ rest, s.turns = .powerOn :: rest

/-- 70_reset_and_hazards.md R370, 10_state.md R63: what power-on reset leaves, in `State.reset` and after a power-on turn of
any state. That power-on reset clears the fault mark, which R72 calls "never cleared", is the model's reading of R370 (log
entry 3). (The operand registers' content, PENDING and the bookkeeping are the model's choice, log entries 1, 4 and 17, and
not stated.) -/
def Obligations.PowerOnResetValues : Prop :=
  ∀ t : State, t = State.reset ∨ (∃ s rest, s.turns = .powerOn :: rest ∧ step s = .next t) →
    t.lastcmd = 0 ∧ t.busy = false ∧ t.done = false ∧ t.err = false ∧ t.haz = false ∧ t.errcode = 0 ∧ t.ie = false ∧
    t.irq = false ∧ t.faultMark = false ∧
    (∀ r : RegId, ∀ w ∈ t.x[r], w.written = false) ∧
    t.pcg = List.replicate t.cfg.npcg ⟨t.cfg.pcgDefState, t.cfg.pcgDefInc⟩ ∧
    t.xo = List.replicate t.cfg.nxo t.cfg.xoDef

/-! ### The host's wait -/

/-- 30_encoding.md R144: WAIT polls STATUS until BUSY = 0 and ends with the value that showed it: at once when BUSY = 0,
else after the engine's completion, whatever the number `n` of polls that show BUSY = 1 (log entry 24). No poll changes
anything but the history (log entry 19). -/
def Obligations.WaitEndsWithStatusOfIdleBlock : Prop :=
  ∀ (s : State) (n : Nat),
    let polled (t : State) : State := t.record (hostPoll t.cfg) (.loaded t.statusWord.toNat)
    (s.busy = false → s.wait n = (s.statusWord.toNat, polled s)) ∧
    (s.busy = true → ∃ t, engineStep (polled^[n] s) = .next t ∧ s.wait n = (t.statusWord.toNat, polled t) ∧
      t.statusWord.getLsbD 0 = false)
end

