-- ==== Sys2Proof/Laws/State.lean ====
section
/-! SUPPORT. One lemma per field of `State` per update, each true by unfolding, so that no later proof unfolds a record
update. -/

namespace Sys2Proof.Machine

/-! ### `s.setHaz` -/

@[simp] theorem State.setHaz_cfg (s : State) : (s.setHaz).cfg = s.cfg := rfl
@[simp] theorem State.setHaz_x (s : State) : (s.setHaz).x = s.x := rfl
@[simp] theorem State.setHaz_lastcmd (s : State) : (s.setHaz).lastcmd = s.lastcmd := rfl
@[simp] theorem State.setHaz_pending (s : State) : (s.setHaz).pending = s.pending := rfl
@[simp] theorem State.setHaz_busy (s : State) : (s.setHaz).busy = s.busy := rfl
@[simp] theorem State.setHaz_done (s : State) : (s.setHaz).done = s.done := rfl
@[simp] theorem State.setHaz_err (s : State) : (s.setHaz).err = s.err := rfl
@[simp] theorem State.setHaz_haz (s : State) : (s.setHaz).haz = true := rfl
@[simp] theorem State.setHaz_errcode (s : State) : (s.setHaz).errcode = s.errcode := rfl
@[simp] theorem State.setHaz_ie (s : State) : (s.setHaz).ie = s.ie := rfl
@[simp] theorem State.setHaz_pcg (s : State) : (s.setHaz).pcg = s.pcg := rfl
@[simp] theorem State.setHaz_xo (s : State) : (s.setHaz).xo = s.xo := rfl
@[simp] theorem State.setHaz_faultMark (s : State) : (s.setHaz).faultMark = s.faultMark := rfl
@[simp] theorem State.setHaz_history (s : State) : (s.setHaz).history = s.history := rfl
@[simp] theorem State.setHaz_turns (s : State) : (s.setHaz).turns = s.turns := rfl
@[simp] theorem State.setHaz_freeIndex (s : State) : (s.setHaz).freeIndex = s.freeIndex := rfl

/-! ### `s.accept c` -/

@[simp] theorem State.accept_cfg (s : State) (c : Word32) : (s.accept c).cfg = s.cfg := rfl
@[simp] theorem State.accept_x (s : State) (c : Word32) : (s.accept c).x = s.x := rfl
@[simp] theorem State.accept_lastcmd (s : State) (c : Word32) : (s.accept c).lastcmd = c := rfl
@[simp] theorem State.accept_pending (s : State) (c : Word32) : (s.accept c).pending = c := rfl
@[simp] theorem State.accept_busy (s : State) (c : Word32) : (s.accept c).busy = true := rfl
@[simp] theorem State.accept_done (s : State) (c : Word32) : (s.accept c).done = false := rfl
@[simp] theorem State.accept_err (s : State) (c : Word32) : (s.accept c).err = false := rfl
@[simp] theorem State.accept_haz (s : State) (c : Word32) : (s.accept c).haz = s.haz := rfl
@[simp] theorem State.accept_errcode (s : State) (c : Word32) : (s.accept c).errcode = 0 := rfl
@[simp] theorem State.accept_ie (s : State) (c : Word32) : (s.accept c).ie = s.ie := rfl
@[simp] theorem State.accept_pcg (s : State) (c : Word32) : (s.accept c).pcg = s.pcg := rfl
@[simp] theorem State.accept_xo (s : State) (c : Word32) : (s.accept c).xo = s.xo := rfl
@[simp] theorem State.accept_faultMark (s : State) (c : Word32) : (s.accept c).faultMark = s.faultMark := rfl
@[simp] theorem State.accept_history (s : State) (c : Word32) : (s.accept c).history = s.history := rfl
@[simp] theorem State.accept_turns (s : State) (c : Word32) : (s.accept c).turns = s.turns := rfl
@[simp] theorem State.accept_freeIndex (s : State) (c : Word32) : (s.accept c).freeIndex = s.freeIndex := rfl

/-! ### `s.complete` -/

@[simp] theorem State.complete_cfg (s : State) : (s.complete).cfg = s.cfg := rfl
@[simp] theorem State.complete_x (s : State) : (s.complete).x = s.x := rfl
@[simp] theorem State.complete_lastcmd (s : State) : (s.complete).lastcmd = s.lastcmd := rfl
@[simp] theorem State.complete_pending (s : State) : (s.complete).pending = s.pending := rfl
@[simp] theorem State.complete_busy (s : State) : (s.complete).busy = false := rfl
@[simp] theorem State.complete_done (s : State) : (s.complete).done = true := rfl
@[simp] theorem State.complete_err (s : State) : (s.complete).err = false := rfl
@[simp] theorem State.complete_haz (s : State) : (s.complete).haz = s.haz := rfl
@[simp] theorem State.complete_errcode (s : State) : (s.complete).errcode = 0 := rfl
@[simp] theorem State.complete_ie (s : State) : (s.complete).ie = s.ie := rfl
@[simp] theorem State.complete_pcg (s : State) : (s.complete).pcg = s.pcg := rfl
@[simp] theorem State.complete_xo (s : State) : (s.complete).xo = s.xo := rfl
@[simp] theorem State.complete_faultMark (s : State) : (s.complete).faultMark = s.faultMark := rfl
@[simp] theorem State.complete_history (s : State) : (s.complete).history = s.history := rfl
@[simp] theorem State.complete_turns (s : State) : (s.complete).turns = s.turns := rfl
@[simp] theorem State.complete_freeIndex (s : State) : (s.complete).freeIndex = s.freeIndex := rfl

/-! ### `s.errorCompletion e` -/

@[simp] theorem State.errorCompletion_cfg (s : State) (e : ErrCode) : (s.errorCompletion e).cfg = s.cfg := rfl
@[simp] theorem State.errorCompletion_x (s : State) (e : ErrCode) : (s.errorCompletion e).x = s.x := rfl
@[simp] theorem State.errorCompletion_lastcmd (s : State) (e : ErrCode) : (s.errorCompletion e).lastcmd = s.lastcmd := rfl
@[simp] theorem State.errorCompletion_pending (s : State) (e : ErrCode) : (s.errorCompletion e).pending = s.pending := rfl
@[simp] theorem State.errorCompletion_busy (s : State) (e : ErrCode) : (s.errorCompletion e).busy = false := rfl
@[simp] theorem State.errorCompletion_done (s : State) (e : ErrCode) : (s.errorCompletion e).done = true := rfl
@[simp] theorem State.errorCompletion_err (s : State) (e : ErrCode) : (s.errorCompletion e).err = true := rfl
@[simp] theorem State.errorCompletion_haz (s : State) (e : ErrCode) : (s.errorCompletion e).haz = s.haz := rfl
@[simp] theorem State.errorCompletion_errcode (s : State) (e : ErrCode) : (s.errorCompletion e).errcode = e.code := rfl
@[simp] theorem State.errorCompletion_ie (s : State) (e : ErrCode) : (s.errorCompletion e).ie = s.ie := rfl
@[simp] theorem State.errorCompletion_pcg (s : State) (e : ErrCode) : (s.errorCompletion e).pcg = s.pcg := rfl
@[simp] theorem State.errorCompletion_xo (s : State) (e : ErrCode) : (s.errorCompletion e).xo = s.xo := rfl
@[simp] theorem State.errorCompletion_faultMark (s : State) (e : ErrCode) : (s.errorCompletion e).faultMark = s.faultMark := rfl
@[simp] theorem State.errorCompletion_history (s : State) (e : ErrCode) : (s.errorCompletion e).history = s.history := rfl
@[simp] theorem State.errorCompletion_turns (s : State) (e : ErrCode) : (s.errorCompletion e).turns = s.turns := rfl
@[simp] theorem State.errorCompletion_freeIndex (s : State) (e : ErrCode) : (s.errorCompletion e).freeIndex = s.freeIndex := rfl

/-! ### `s.storeStatus w` -/

@[simp] theorem State.storeStatus_cfg (s : State) (w : Nat) : (s.storeStatus w).cfg = s.cfg := rfl
@[simp] theorem State.storeStatus_x (s : State) (w : Nat) : (s.storeStatus w).x = s.x := rfl
@[simp] theorem State.storeStatus_lastcmd (s : State) (w : Nat) : (s.storeStatus w).lastcmd = s.lastcmd := rfl
@[simp] theorem State.storeStatus_pending (s : State) (w : Nat) : (s.storeStatus w).pending = s.pending := rfl
@[simp] theorem State.storeStatus_busy (s : State) (w : Nat) : (s.storeStatus w).busy = s.busy := rfl
@[simp] theorem State.storeStatus_done (s : State) (w : Nat) : (s.storeStatus w).done = (s.done && !w.testBit 1) := rfl
@[simp] theorem State.storeStatus_err (s : State) (w : Nat) : (s.storeStatus w).err = (s.err && !w.testBit 2) := rfl
@[simp] theorem State.storeStatus_haz (s : State) (w : Nat) : (s.storeStatus w).haz = (s.haz && !w.testBit 3) := rfl
@[simp] theorem State.storeStatus_errcode (s : State) (w : Nat) : (s.storeStatus w).errcode = (if w.testBit 2 then 0 else s.errcode) := rfl
@[simp] theorem State.storeStatus_ie (s : State) (w : Nat) : (s.storeStatus w).ie = s.ie := rfl
@[simp] theorem State.storeStatus_pcg (s : State) (w : Nat) : (s.storeStatus w).pcg = s.pcg := rfl
@[simp] theorem State.storeStatus_xo (s : State) (w : Nat) : (s.storeStatus w).xo = s.xo := rfl
@[simp] theorem State.storeStatus_faultMark (s : State) (w : Nat) : (s.storeStatus w).faultMark = s.faultMark := rfl
@[simp] theorem State.storeStatus_history (s : State) (w : Nat) : (s.storeStatus w).history = s.history := rfl
@[simp] theorem State.storeStatus_turns (s : State) (w : Nat) : (s.storeStatus w).turns = s.turns := rfl
@[simp] theorem State.storeStatus_freeIndex (s : State) (w : Nat) : (s.storeStatus w).freeIndex = s.freeIndex := rfl

/-! ### `s.softReset b` -/

@[simp] theorem State.softReset_cfg (s : State) (b : Bool) : (s.softReset b).cfg = s.cfg := rfl
@[simp] theorem State.softReset_x (s : State) (b : Bool) : (s.softReset b).x = s.x := rfl
@[simp] theorem State.softReset_lastcmd (s : State) (b : Bool) : (s.softReset b).lastcmd = 0 := rfl
@[simp] theorem State.softReset_pending (s : State) (b : Bool) : (s.softReset b).pending = 0 := rfl
@[simp] theorem State.softReset_busy (s : State) (b : Bool) : (s.softReset b).busy = false := rfl
@[simp] theorem State.softReset_done (s : State) (b : Bool) : (s.softReset b).done = false := rfl
@[simp] theorem State.softReset_err (s : State) (b : Bool) : (s.softReset b).err = false := rfl
@[simp] theorem State.softReset_haz (s : State) (b : Bool) : (s.softReset b).haz = false := rfl
@[simp] theorem State.softReset_errcode (s : State) (b : Bool) : (s.softReset b).errcode = 0 := rfl
@[simp] theorem State.softReset_ie (s : State) (b : Bool) : (s.softReset b).ie = b := rfl
@[simp] theorem State.softReset_pcg (s : State) (b : Bool) : (s.softReset b).pcg = List.replicate s.cfg.npcg ⟨s.cfg.pcgDefState, s.cfg.pcgDefInc⟩ := rfl
@[simp] theorem State.softReset_xo (s : State) (b : Bool) : (s.softReset b).xo = List.replicate s.cfg.nxo s.cfg.xoDef := rfl
@[simp] theorem State.softReset_faultMark (s : State) (b : Bool) : (s.softReset b).faultMark = s.faultMark := rfl
@[simp] theorem State.softReset_history (s : State) (b : Bool) : (s.softReset b).history = s.history := rfl
@[simp] theorem State.softReset_turns (s : State) (b : Bool) : (s.softReset b).turns = s.turns := rfl
@[simp] theorem State.softReset_freeIndex (s : State) (b : Bool) : (s.softReset b).freeIndex = s.freeIndex := rfl

/-! ### `s.powerOn` -/

@[simp] theorem State.powerOn_cfg (s : State) : (s.powerOn).cfg = s.cfg := rfl
@[simp] theorem State.powerOn_x (s : State) : (s.powerOn).x = Vector.replicate 8 (OpReg.reset s.cfg) := rfl
@[simp] theorem State.powerOn_lastcmd (s : State) : (s.powerOn).lastcmd = 0 := rfl
@[simp] theorem State.powerOn_pending (s : State) : (s.powerOn).pending = 0 := rfl
@[simp] theorem State.powerOn_busy (s : State) : (s.powerOn).busy = false := rfl
@[simp] theorem State.powerOn_done (s : State) : (s.powerOn).done = false := rfl
@[simp] theorem State.powerOn_err (s : State) : (s.powerOn).err = false := rfl
@[simp] theorem State.powerOn_haz (s : State) : (s.powerOn).haz = false := rfl
@[simp] theorem State.powerOn_errcode (s : State) : (s.powerOn).errcode = 0 := rfl
@[simp] theorem State.powerOn_ie (s : State) : (s.powerOn).ie = false := rfl
@[simp] theorem State.powerOn_pcg (s : State) : (s.powerOn).pcg = List.replicate s.cfg.npcg ⟨s.cfg.pcgDefState, s.cfg.pcgDefInc⟩ := rfl
@[simp] theorem State.powerOn_xo (s : State) : (s.powerOn).xo = List.replicate s.cfg.nxo s.cfg.xoDef := rfl
@[simp] theorem State.powerOn_faultMark (s : State) : (s.powerOn).faultMark = false := rfl
@[simp] theorem State.powerOn_history (s : State) : (s.powerOn).history = s.history := rfl
@[simp] theorem State.powerOn_turns (s : State) : (s.powerOn).turns = s.turns := rfl
@[simp] theorem State.powerOn_freeIndex (s : State) : (s.powerOn).freeIndex = s.freeIndex := rfl

/-! ### `s.writeReg i v` -/

@[simp] theorem State.writeReg_cfg (s : State) (i : RegId) (v : Int) : (s.writeReg i v).cfg = s.cfg := rfl
@[simp] theorem State.writeReg_x (s : State) (i : RegId) (v : Int) : (s.writeReg i v).x = s.x.set i (regOfInt s.cfg.opw v) := rfl
@[simp] theorem State.writeReg_lastcmd (s : State) (i : RegId) (v : Int) : (s.writeReg i v).lastcmd = s.lastcmd := rfl
@[simp] theorem State.writeReg_pending (s : State) (i : RegId) (v : Int) : (s.writeReg i v).pending = s.pending := rfl
@[simp] theorem State.writeReg_busy (s : State) (i : RegId) (v : Int) : (s.writeReg i v).busy = s.busy := rfl
@[simp] theorem State.writeReg_done (s : State) (i : RegId) (v : Int) : (s.writeReg i v).done = s.done := rfl
@[simp] theorem State.writeReg_err (s : State) (i : RegId) (v : Int) : (s.writeReg i v).err = s.err := rfl
@[simp] theorem State.writeReg_haz (s : State) (i : RegId) (v : Int) : (s.writeReg i v).haz = s.haz := rfl
@[simp] theorem State.writeReg_errcode (s : State) (i : RegId) (v : Int) : (s.writeReg i v).errcode = s.errcode := rfl
@[simp] theorem State.writeReg_ie (s : State) (i : RegId) (v : Int) : (s.writeReg i v).ie = s.ie := rfl
@[simp] theorem State.writeReg_pcg (s : State) (i : RegId) (v : Int) : (s.writeReg i v).pcg = s.pcg := rfl
@[simp] theorem State.writeReg_xo (s : State) (i : RegId) (v : Int) : (s.writeReg i v).xo = s.xo := rfl
@[simp] theorem State.writeReg_faultMark (s : State) (i : RegId) (v : Int) : (s.writeReg i v).faultMark = s.faultMark := rfl
@[simp] theorem State.writeReg_history (s : State) (i : RegId) (v : Int) : (s.writeReg i v).history = s.history := rfl
@[simp] theorem State.writeReg_turns (s : State) (i : RegId) (v : Int) : (s.writeReg i v).turns = s.turns := rfl
@[simp] theorem State.writeReg_freeIndex (s : State) (i : RegId) (v : Int) : (s.writeReg i v).freeIndex = s.freeIndex := rfl

/-! ### `s.readSources rs` -/

@[simp] theorem State.readSources_cfg (s : State) (rs : List RegId) : (s.readSources rs).cfg = s.cfg := rfl
@[simp] theorem State.readSources_x (s : State) (rs : List RegId) : (s.readSources rs).x = s.x := rfl
@[simp] theorem State.readSources_lastcmd (s : State) (rs : List RegId) : (s.readSources rs).lastcmd = s.lastcmd := rfl
@[simp] theorem State.readSources_pending (s : State) (rs : List RegId) : (s.readSources rs).pending = s.pending := rfl
@[simp] theorem State.readSources_busy (s : State) (rs : List RegId) : (s.readSources rs).busy = s.busy := rfl
@[simp] theorem State.readSources_done (s : State) (rs : List RegId) : (s.readSources rs).done = s.done := rfl
@[simp] theorem State.readSources_err (s : State) (rs : List RegId) : (s.readSources rs).err = s.err := rfl
@[simp] theorem State.readSources_haz (s : State) (rs : List RegId) : (s.readSources rs).haz = s.haz := rfl
@[simp] theorem State.readSources_errcode (s : State) (rs : List RegId) : (s.readSources rs).errcode = s.errcode := rfl
@[simp] theorem State.readSources_ie (s : State) (rs : List RegId) : (s.readSources rs).ie = s.ie := rfl
@[simp] theorem State.readSources_pcg (s : State) (rs : List RegId) : (s.readSources rs).pcg = s.pcg := rfl
@[simp] theorem State.readSources_xo (s : State) (rs : List RegId) : (s.readSources rs).xo = s.xo := rfl
@[simp] theorem State.readSources_faultMark (s : State) (rs : List RegId) : (s.readSources rs).faultMark = (s.faultMark || !(rs.all fun i => regWritten s.x[i])) := rfl
@[simp] theorem State.readSources_history (s : State) (rs : List RegId) : (s.readSources rs).history = s.history := rfl
@[simp] theorem State.readSources_turns (s : State) (rs : List RegId) : (s.readSources rs).turns = s.turns := rfl
@[simp] theorem State.readSources_freeIndex (s : State) (rs : List RegId) : (s.readSources rs).freeIndex = s.freeIndex := rfl

/-! ### `s.record a r` -/

@[simp] theorem State.record_cfg (s : State) (a : Access) (r : Response) : (s.record a r).cfg = s.cfg := rfl
@[simp] theorem State.record_x (s : State) (a : Access) (r : Response) : (s.record a r).x = s.x := rfl
@[simp] theorem State.record_lastcmd (s : State) (a : Access) (r : Response) : (s.record a r).lastcmd = s.lastcmd := rfl
@[simp] theorem State.record_pending (s : State) (a : Access) (r : Response) : (s.record a r).pending = s.pending := rfl
@[simp] theorem State.record_busy (s : State) (a : Access) (r : Response) : (s.record a r).busy = s.busy := rfl
@[simp] theorem State.record_done (s : State) (a : Access) (r : Response) : (s.record a r).done = s.done := rfl
@[simp] theorem State.record_err (s : State) (a : Access) (r : Response) : (s.record a r).err = s.err := rfl
@[simp] theorem State.record_haz (s : State) (a : Access) (r : Response) : (s.record a r).haz = s.haz := rfl
@[simp] theorem State.record_errcode (s : State) (a : Access) (r : Response) : (s.record a r).errcode = s.errcode := rfl
@[simp] theorem State.record_ie (s : State) (a : Access) (r : Response) : (s.record a r).ie = s.ie := rfl
@[simp] theorem State.record_pcg (s : State) (a : Access) (r : Response) : (s.record a r).pcg = s.pcg := rfl
@[simp] theorem State.record_xo (s : State) (a : Access) (r : Response) : (s.record a r).xo = s.xo := rfl
@[simp] theorem State.record_faultMark (s : State) (a : Access) (r : Response) : (s.record a r).faultMark = s.faultMark := rfl
@[simp] theorem State.record_history (s : State) (a : Access) (r : Response) : (s.record a r).history = ⟨a, r⟩ :: s.history := rfl
@[simp] theorem State.record_turns (s : State) (a : Access) (r : Response) : (s.record a r).turns = s.turns := rfl
@[simp] theorem State.record_freeIndex (s : State) (a : Access) (r : Response) : (s.record a r).freeIndex = s.freeIndex := rfl

/-! ### `(s.drawFree n).2` -/

@[simp] theorem State.drawFree_cfg (s : State) (n : Nat) : ((s.drawFree n).2).cfg = s.cfg := rfl
@[simp] theorem State.drawFree_x (s : State) (n : Nat) : ((s.drawFree n).2).x = s.x := rfl
@[simp] theorem State.drawFree_lastcmd (s : State) (n : Nat) : ((s.drawFree n).2).lastcmd = s.lastcmd := rfl
@[simp] theorem State.drawFree_pending (s : State) (n : Nat) : ((s.drawFree n).2).pending = s.pending := rfl
@[simp] theorem State.drawFree_busy (s : State) (n : Nat) : ((s.drawFree n).2).busy = s.busy := rfl
@[simp] theorem State.drawFree_done (s : State) (n : Nat) : ((s.drawFree n).2).done = s.done := rfl
@[simp] theorem State.drawFree_err (s : State) (n : Nat) : ((s.drawFree n).2).err = s.err := rfl
@[simp] theorem State.drawFree_haz (s : State) (n : Nat) : ((s.drawFree n).2).haz = s.haz := rfl
@[simp] theorem State.drawFree_errcode (s : State) (n : Nat) : ((s.drawFree n).2).errcode = s.errcode := rfl
@[simp] theorem State.drawFree_ie (s : State) (n : Nat) : ((s.drawFree n).2).ie = s.ie := rfl
@[simp] theorem State.drawFree_pcg (s : State) (n : Nat) : ((s.drawFree n).2).pcg = s.pcg := rfl
@[simp] theorem State.drawFree_xo (s : State) (n : Nat) : ((s.drawFree n).2).xo = s.xo := rfl
@[simp] theorem State.drawFree_faultMark (s : State) (n : Nat) : ((s.drawFree n).2).faultMark = s.faultMark := rfl
@[simp] theorem State.drawFree_history (s : State) (n : Nat) : ((s.drawFree n).2).history = s.history := rfl
@[simp] theorem State.drawFree_turns (s : State) (n : Nat) : ((s.drawFree n).2).turns = s.turns := rfl
@[simp] theorem State.drawFree_freeIndex (s : State) (n : Nat) : ((s.drawFree n).2).freeIndex = s.freeIndex + 1 := rfl

/-! ### `s.withFetchWord nbits w` -/

@[simp] theorem State.withFetchWord_cfg (s : State) (nbits w : Nat) : (s.withFetchWord nbits w).cfg = s.cfg := rfl
@[simp] theorem State.withFetchWord_x (s : State) (nbits w : Nat) : (s.withFetchWord nbits w).x = s.x := rfl
@[simp] theorem State.withFetchWord_lastcmd (s : State) (nbits w : Nat) : (s.withFetchWord nbits w).lastcmd = BitVec.ofNat 32 (w % 2 ^ nbits) := rfl
@[simp] theorem State.withFetchWord_pending (s : State) (nbits w : Nat) : (s.withFetchWord nbits w).pending = BitVec.ofNat 32 (w % 2 ^ nbits) := rfl
@[simp] theorem State.withFetchWord_busy (s : State) (nbits w : Nat) : (s.withFetchWord nbits w).busy = true := rfl
@[simp] theorem State.withFetchWord_done (s : State) (nbits w : Nat) : (s.withFetchWord nbits w).done = false := rfl
@[simp] theorem State.withFetchWord_err (s : State) (nbits w : Nat) : (s.withFetchWord nbits w).err = false := rfl
@[simp] theorem State.withFetchWord_haz (s : State) (nbits w : Nat) : (s.withFetchWord nbits w).haz = s.haz := rfl
@[simp] theorem State.withFetchWord_errcode (s : State) (nbits w : Nat) : (s.withFetchWord nbits w).errcode = 0 := rfl
@[simp] theorem State.withFetchWord_ie (s : State) (nbits w : Nat) : (s.withFetchWord nbits w).ie = s.ie := rfl
@[simp] theorem State.withFetchWord_pcg (s : State) (nbits w : Nat) : (s.withFetchWord nbits w).pcg = s.pcg := rfl
@[simp] theorem State.withFetchWord_xo (s : State) (nbits w : Nat) : (s.withFetchWord nbits w).xo = s.xo := rfl
@[simp] theorem State.withFetchWord_faultMark (s : State) (nbits w : Nat) : (s.withFetchWord nbits w).faultMark = s.faultMark := rfl
@[simp] theorem State.withFetchWord_history (s : State) (nbits w : Nat) : (s.withFetchWord nbits w).history = s.history := rfl
@[simp] theorem State.withFetchWord_turns (s : State) (nbits w : Nat) : (s.withFetchWord nbits w).turns = .engine :: s.turns := rfl
@[simp] theorem State.withFetchWord_freeIndex (s : State) (nbits w : Nat) : (s.withFetchWord nbits w).freeIndex = s.freeIndex := rfl

end Sys2Proof.Machine
end

