-- ==== Sys2Proof/Laws/Operands.lean ====
section
/-! SUPPORT. Operand registers: the value written is the value read (R16, R17), lengths, and written flags (R34). -/

namespace Sys2Proof.Machine

@[simp] theorem regOfNat_length (c u : Nat) : (regOfNat c u).length = c := by
  induction c generalizing u with
  | zero => rfl
  | succ c ih => simp [regOfNat, ih]

@[simp] theorem regOfInt_length (opw : Nat) (v : Int) : (regOfInt opw v).length = opw / 32 := by
  simp [regOfInt]

@[simp] theorem regWritten_regOfNat (c u : Nat) : regWritten (regOfNat c u) = true := by
  induction c generalizing u with
  | zero => rfl
  | succ c ih =>
    rw [regOfNat, regWritten, List.all_cons, Bool.true_and]
    exact ih _

@[simp] theorem regWritten_regOfInt (opw : Nat) (v : Int) : regWritten (regOfInt opw v) = true :=
  regWritten_regOfNat _ _

theorem regUint_regOfNat (c u : Nat) : regUint (regOfNat c u) = u % 2 ^ (32 * c) := by
  induction c generalizing u with
  | zero => simp [regOfNat, regUint, Nat.mod_one]
  | succ c ih =>
    rw [regOfNat, regUint, ih, BitVec.toNat_ofNat, show 32 * (c + 1) = 32 + 32 * c by ring, pow_add, Nat.mod_mul]

theorem regUint_lt (r : OpReg) : regUint r < 2 ^ (32 * r.length) := by
  induction r with
  | nil => simp [regUint]
  | cons w ws ih =>
    have hw := w.bits.isLt
    rw [regUint, List.length_cons, show 32 * (ws.length + 1) = 32 + 32 * ws.length by ring, pow_add]
    nlinarith

@[simp] theorem regSetWords_length (c : Nat) (r : OpReg) (j v : Nat) : (regSetWords r j c v).length = r.length := by
  induction c generalizing r j v with
  | zero => rfl
  | succ c ih => simp [regSetWords, ih]

/-- `sint_N` undoes `enc_N` on the values an N-bit string can hold (R16). -/
theorem sintOf_emod {n : Nat} (hn : 0 < n) {v : Int} (hl : -2 ^ (n - 1) ≤ v) (hu : v < 2 ^ (n - 1)) :
    sintOf n (v % 2 ^ n).toNat = v := by
  have h2 : (2 : Int) ^ n = 2 * 2 ^ (n - 1) := by rw [← pow_succ']; congr 1; omega
  have hc : (((2 : Nat) ^ (n - 1) : Nat) : Int) = 2 ^ (n - 1) := by push_cast; rfl
  have hp : (0 : Int) < 2 ^ (n - 1) := by positivity
  unfold sintOf
  rcases lt_or_ge v 0 with hv | hv
  · have he : v % 2 ^ n = v + 2 ^ n := by
      rw [← Int.add_emod_right, Int.emod_eq_of_lt] <;> omega
    rw [if_pos (by zify; rw [Int.toNat_of_nonneg (by omega)]; omega), Int.toNat_of_nonneg (by omega)]
    omega
  · have he : v % 2 ^ n = v := Int.emod_eq_of_lt hv (by omega)
    rw [if_neg (by zify; rw [Int.toNat_of_nonneg (by omega)]; omega), Int.toNat_of_nonneg (by omega)]
    omega

/-- A register of OPW/32 words holds a value in [−2^(OPW−1), 2^(OPW−1)) (00_scope.md R7). -/
theorem sintOf_bounds {n u : Nat} (hn : 0 < n) (hu : u < 2 ^ n) :
    -2 ^ (n - 1) ≤ sintOf n u ∧ sintOf n u < 2 ^ (n - 1) := by
  have h2 : (2 : Int) ^ n = 2 * 2 ^ (n - 1) := by rw [← pow_succ']; congr 1; omega
  have hp : (0 : Int) < 2 ^ (n - 1) := by positivity
  zify at hu
  unfold sintOf
  split <;> rename_i h <;> zify at h <;> constructor <;> omega

theorem sintOf_regOfInt {opw : Nat} (h32 : 32 ∣ opw) (h0 : 0 < opw) {v : Int} (hl : -2 ^ (opw - 1) ≤ v)
    (hu : v < 2 ^ (opw - 1)) : sintOf opw (regUint (regOfInt opw v)) = v := by
  have hlt : (v % 2 ^ opw).toNat < 2 ^ opw := by
    have := Int.emod_lt_of_pos v (show (0 : Int) < 2 ^ opw by positivity)
    have := Int.emod_nonneg v (show (2 : Int) ^ opw ≠ 0 by positivity)
    zify
    omega
  rw [regOfInt, regUint_regOfNat, Nat.mul_div_cancel' h32, Nat.mod_eq_of_lt hlt, sintOf_emod h0 hl hu]

@[simp] theorem State.writeReg_get_self (s : State) (i : RegId) (v : Int) :
    (s.writeReg i v).x[i] = regOfInt s.cfg.opw v := by
  simp [State.writeReg]

theorem State.writeReg_get_ne (s : State) {i j : RegId} (h : i ≠ j) (v : Int) : (s.writeReg i v).x[j] = s.x[j] := by
  have : i.val ≠ j.val := fun e => h (Fin.ext e)
  simp [State.writeReg, Vector.getElem_set_ne _ _ this]

theorem State.val_writeReg_self (s : State) (i : RegId) {v : Int} (h32 : 32 ∣ s.cfg.opw) (h0 : 0 < s.cfg.opw)
    (hl : -2 ^ (s.cfg.opw - 1) ≤ v) (hu : v < 2 ^ (s.cfg.opw - 1)) : (s.writeReg i v).val i = v := by
  simp only [State.val, State.writeReg_get_self, State.writeReg_cfg]
  exact sintOf_regOfInt h32 h0 hl hu

theorem State.val_writeReg_ne (s : State) {i j : RegId} (h : i ≠ j) (v : Int) : (s.writeReg i v).val j = s.val j := by
  simp only [State.val, State.writeReg_cfg, State.writeReg_get_ne s h]

/-- A legal OPW is a positive multiple of 64, from 256 up. -/
theorem Params.legal_opw {p : Params} (h : p.legal = true) : 64 ∣ p.opw ∧ 256 ≤ p.opw ∧ p.opw ≤ 8192 := by
  simp [Params.legal] at h
  obtain ⟨⟨⟨⟨⟨⟨h, -⟩, -⟩, -⟩, -⟩, -⟩, -⟩ := h
  rcases h with ((((h | h) | h) | h) | h) | h <;> rw [h] <;> decide

end Sys2Proof.Machine
end

