-- ==== Sys2Proof/Laws/Ops.lean ====
section
/-! SUPPORT. What each shared operation can do, said once: the two ends of a command, a command on a core, the issue of
a command, a store to CTRL, the draws of a core, and a step. -/

namespace Sys2Proof.Machine

/-! ### The ends of a command -/

@[simp] theorem State.finish_ok (s : State) (rd : RegId) (v : Int) :
    s.finish rd (.ok v) = (s.writeReg rd v).complete := rfl

@[simp] theorem State.finish_error (s : State) (rd : RegId) (e : ErrCode) :
    s.finish rd (.error e) = s.errorCompletion e := rfl

@[simp] theorem State.finish_cfg (s : State) (rd : RegId) (r : Except ErrCode Int) : (s.finish rd r).cfg = s.cfg := by
  cases r <;> rfl

@[simp] theorem State.finish_lastcmd (s : State) (rd : RegId) (r : Except ErrCode Int) : (s.finish rd r).lastcmd = s.lastcmd := by
  cases r <;> rfl

@[simp] theorem State.finish_pending (s : State) (rd : RegId) (r : Except ErrCode Int) : (s.finish rd r).pending = s.pending := by
  cases r <;> rfl

@[simp] theorem State.finish_haz (s : State) (rd : RegId) (r : Except ErrCode Int) : (s.finish rd r).haz = s.haz := by
  cases r <;> rfl

@[simp] theorem State.finish_ie (s : State) (rd : RegId) (r : Except ErrCode Int) : (s.finish rd r).ie = s.ie := by
  cases r <;> rfl

@[simp] theorem State.finish_faultMark (s : State) (rd : RegId) (r : Except ErrCode Int) : (s.finish rd r).faultMark = s.faultMark := by
  cases r <;> rfl

@[simp] theorem State.finish_history (s : State) (rd : RegId) (r : Except ErrCode Int) : (s.finish rd r).history = s.history := by
  cases r <;> rfl

@[simp] theorem State.finish_turns (s : State) (rd : RegId) (r : Except ErrCode Int) : (s.finish rd r).turns = s.turns := by
  cases r <;> rfl

@[simp] theorem State.finish_freeIndex (s : State) (rd : RegId) (r : Except ErrCode Int) : (s.finish rd r).freeIndex = s.freeIndex := by
  cases r <;> rfl

@[simp] theorem State.finish_pcg (s : State) (rd : RegId) (r : Except ErrCode Int) : (s.finish rd r).pcg = s.pcg := by
  cases r <;> rfl

@[simp] theorem State.finish_xo (s : State) (rd : RegId) (r : Except ErrCode Int) : (s.finish rd r).xo = s.xo := by
  cases r <;> rfl

@[simp] theorem State.finish_busy (s : State) (rd : RegId) (r : Except ErrCode Int) : (s.finish rd r).busy = false := by
  cases r <;> rfl

@[simp] theorem State.finish_done (s : State) (rd : RegId) (r : Except ErrCode Int) : (s.finish rd r).done = true := by
  cases r <;> rfl

@[simp] theorem State.finishPcg_cfg (s : State) (rd : RegId) (r : Except ErrCode Int × List PcgCore) :
    (s.finishPcg rd r).cfg = s.cfg := by
  rcases r with ⟨_ | _, _⟩ <;> rfl

@[simp] theorem State.finishPcg_lastcmd (s : State) (rd : RegId) (r : Except ErrCode Int × List PcgCore) :
    (s.finishPcg rd r).lastcmd = s.lastcmd := by
  rcases r with ⟨_ | _, _⟩ <;> rfl

@[simp] theorem State.finishPcg_pending (s : State) (rd : RegId) (r : Except ErrCode Int × List PcgCore) :
    (s.finishPcg rd r).pending = s.pending := by
  rcases r with ⟨_ | _, _⟩ <;> rfl

@[simp] theorem State.finishPcg_haz (s : State) (rd : RegId) (r : Except ErrCode Int × List PcgCore) :
    (s.finishPcg rd r).haz = s.haz := by
  rcases r with ⟨_ | _, _⟩ <;> rfl

@[simp] theorem State.finishPcg_ie (s : State) (rd : RegId) (r : Except ErrCode Int × List PcgCore) :
    (s.finishPcg rd r).ie = s.ie := by
  rcases r with ⟨_ | _, _⟩ <;> rfl

@[simp] theorem State.finishPcg_faultMark (s : State) (rd : RegId) (r : Except ErrCode Int × List PcgCore) :
    (s.finishPcg rd r).faultMark = s.faultMark := by
  rcases r with ⟨_ | _, _⟩ <;> rfl

@[simp] theorem State.finishPcg_history (s : State) (rd : RegId) (r : Except ErrCode Int × List PcgCore) :
    (s.finishPcg rd r).history = s.history := by
  rcases r with ⟨_ | _, _⟩ <;> rfl

@[simp] theorem State.finishPcg_turns (s : State) (rd : RegId) (r : Except ErrCode Int × List PcgCore) :
    (s.finishPcg rd r).turns = s.turns := by
  rcases r with ⟨_ | _, _⟩ <;> rfl

@[simp] theorem State.finishPcg_freeIndex (s : State) (rd : RegId) (r : Except ErrCode Int × List PcgCore) :
    (s.finishPcg rd r).freeIndex = s.freeIndex := by
  rcases r with ⟨_ | _, _⟩ <;> rfl

@[simp] theorem State.finishPcg_xo (s : State) (rd : RegId) (r : Except ErrCode Int × List PcgCore) :
    (s.finishPcg rd r).xo = s.xo := by
  rcases r with ⟨_ | _, _⟩ <;> rfl

@[simp] theorem State.finishPcg_pcg (s : State) (rd : RegId) (r : Except ErrCode Int × List PcgCore) :
    (s.finishPcg rd r).pcg = r.2 := by
  rcases r with ⟨_ | _, _⟩ <;> rfl

theorem State.onPcg_of_lt {s : State} {e : CoreId} (h : e.val < s.pcg.length) (run : State → State) :
    s.onPcg e run = run s := if_pos h

theorem State.onPcg_of_not_lt {s : State} {e : CoreId} (h : ¬e.val < s.pcg.length) (run : State → State) :
    s.onPcg e run = s.errorCompletion .illegal := if_neg h

@[simp] theorem State.finishXo_cfg (s : State) (rd : RegId) (r : Except ErrCode Int × List XoCore) :
    (s.finishXo rd r).cfg = s.cfg := by
  rcases r with ⟨_ | _, _⟩ <;> rfl

@[simp] theorem State.finishXo_lastcmd (s : State) (rd : RegId) (r : Except ErrCode Int × List XoCore) :
    (s.finishXo rd r).lastcmd = s.lastcmd := by
  rcases r with ⟨_ | _, _⟩ <;> rfl

@[simp] theorem State.finishXo_pending (s : State) (rd : RegId) (r : Except ErrCode Int × List XoCore) :
    (s.finishXo rd r).pending = s.pending := by
  rcases r with ⟨_ | _, _⟩ <;> rfl

@[simp] theorem State.finishXo_haz (s : State) (rd : RegId) (r : Except ErrCode Int × List XoCore) :
    (s.finishXo rd r).haz = s.haz := by
  rcases r with ⟨_ | _, _⟩ <;> rfl

@[simp] theorem State.finishXo_ie (s : State) (rd : RegId) (r : Except ErrCode Int × List XoCore) :
    (s.finishXo rd r).ie = s.ie := by
  rcases r with ⟨_ | _, _⟩ <;> rfl

@[simp] theorem State.finishXo_faultMark (s : State) (rd : RegId) (r : Except ErrCode Int × List XoCore) :
    (s.finishXo rd r).faultMark = s.faultMark := by
  rcases r with ⟨_ | _, _⟩ <;> rfl

@[simp] theorem State.finishXo_history (s : State) (rd : RegId) (r : Except ErrCode Int × List XoCore) :
    (s.finishXo rd r).history = s.history := by
  rcases r with ⟨_ | _, _⟩ <;> rfl

@[simp] theorem State.finishXo_turns (s : State) (rd : RegId) (r : Except ErrCode Int × List XoCore) :
    (s.finishXo rd r).turns = s.turns := by
  rcases r with ⟨_ | _, _⟩ <;> rfl

@[simp] theorem State.finishXo_freeIndex (s : State) (rd : RegId) (r : Except ErrCode Int × List XoCore) :
    (s.finishXo rd r).freeIndex = s.freeIndex := by
  rcases r with ⟨_ | _, _⟩ <;> rfl

@[simp] theorem State.finishXo_pcg (s : State) (rd : RegId) (r : Except ErrCode Int × List XoCore) :
    (s.finishXo rd r).pcg = s.pcg := by
  rcases r with ⟨_ | _, _⟩ <;> rfl

@[simp] theorem State.finishXo_xo (s : State) (rd : RegId) (r : Except ErrCode Int × List XoCore) :
    (s.finishXo rd r).xo = r.2 := by
  rcases r with ⟨_ | _, _⟩ <;> rfl

theorem State.onXo_of_lt {s : State} {e : CoreId} (h : e.val < s.xo.length) (run : State → State) :
    s.onXo e run = run s := if_pos h

theorem State.onXo_of_not_lt {s : State} {e : CoreId} (h : ¬e.val < s.xo.length) (run : State → State) :
    s.onXo e run = s.errorCompletion .illegal := if_neg h

/-! ### Issue and CTRL -/

theorem State.issue_of_idle {s : State} (h : s.busy = false) (c : Word32) : s.issue c = s.accept c := by
  simp [State.issue, h]

theorem State.issue_of_busy {s : State} (h : s.busy = true) (c : Word32) : s.issue c = s.setHaz := by
  simp [State.issue, h]

theorem State.storeCtrl_of_srst {s : State} {w : Nat} (h : w.testBit 1 = true) :
    s.storeCtrl w = s.softReset (w.testBit 0) := by
  simp [State.storeCtrl, h]

theorem State.storeCtrl_of_not_srst {s : State} {w : Nat} (h : w.testBit 1 = false) :
    s.storeCtrl w = { s with ie := w.testBit 0 } := by
  simp [State.storeCtrl, h]

/-! ### Draws -/

theorem pcgDraw_of_get {e : CoreId} {cs : List PcgCore} {c : PcgCore} (h : cs[e.val]? = some c) :
    pcgDraw e cs = (c.output.toNat, cs.set e.val c.step) := by
  simp [pcgDraw, h]

@[simp] theorem pcgDraw_length (e : CoreId) (cs : List PcgCore) : (pcgDraw e cs).2.length = cs.length := by
  unfold pcgDraw
  split <;> simp

theorem pcgDraw_get_ne {e : CoreId} {k : Nat} (h : e.val ≠ k) (cs : List PcgCore) : (pcgDraw e cs).2[k]? = cs[k]? := by
  unfold pcgDraw
  split <;> simp [h]

theorem xoDraw_of_get {e : CoreId} {cs : List XoCore} {c : XoCore} (h : cs[e.val]? = some c) :
    xoDraw e cs = ((xoOutput c).toNat, cs.set e.val (xoStep c)) := by
  simp [xoDraw, h]

@[simp] theorem xoDraw_length (e : CoreId) (cs : List XoCore) : (xoDraw e cs).2.length = cs.length := by
  unfold xoDraw
  split <;> simp

theorem xoDraw_get_ne {e : CoreId} {k : Nat} (h : e.val ≠ k) (cs : List XoCore) : (xoDraw e cs).2[k]? = cs[k]? := by
  unfold xoDraw
  split <;> simp [h]

/-- A draw changes a PCG core's state word only: its increment stays (R221). -/
@[simp] theorem PcgCore.step_pi (c : PcgCore) : c.step.pi = c.pi := by
  cases c
  rfl

/-- Every core a draw leaves has the increment of a core that was there. -/
theorem pcgDraw_pi {e : CoreId} {cs : List PcgCore} {c : PcgCore} (h : c ∈ (pcgDraw e cs).2) :
    ∃ d ∈ cs, c.pi = d.pi := by
  unfold pcgDraw at h
  split at h
  · rename_i d hd
    rcases List.mem_or_eq_of_mem_set h with h | rfl
    · exact ⟨c, h, rfl⟩
    · exact ⟨d, List.mem_of_getElem? hd, d.step_pi⟩
  · exact ⟨c, h, rfl⟩

/-- What every draw keeps, a bounded draw keeps (R224). -/
theorem boundedLoop_keeps {σ : Type} {draw : σ → Nat × σ} {P : σ → Prop} (hd : ∀ st, P st → P (draw st).2)
    (thr bound k : Nat) (st : σ) (h : P st) : P (boundedLoop draw thr bound k st).2 := by
  induction k generalizing st with
  | zero => exact h
  | succ k ih =>
    rw [boundedLoop]
    split
    rename_i r st' he
    have hp : P st' := by simpa [he] using hd st h
    split
    · exact hp
    · exact ih st' hp

theorem bounded_keeps {σ : Type} {draw : σ → Nat × σ} {P : σ → Prop} (hd : ∀ st, P st → P (draw st).2)
    (n : Nat) (bound limit : Int) (k : Nat) (st : σ) (h : P st) : P (bounded draw n bound limit k st).2 := by
  unfold bounded
  split
  · exact h
  · exact boundedLoop_keeps hd _ _ _ _ h

theorem zeroPath_keeps {σ : Type} {word : σ → Nat × σ} {P : σ → Prop} (hd : ∀ st, P st → P (word st).2)
    (w fuel : Nat) (ex : Int) (st : σ) (h : P st) : P (zeroPath word w fuel ex st).2 := by
  induction fuel generalizing ex st with
  | zero => exact h
  | succ k ih =>
    rw [zeroPath]
    split
    rename_i v st' he
    have hp : P st' := by simpa [he] using hd st h
    split
    · split
      · exact hp
      · exact ih _ st' hp
    · exact hp

theorem attemptExponent_keeps {σ : Type} {word : σ → Nat × σ} {P : σ → Prop} (hd : ∀ st, P st → P (word st).2)
    (f : FloatFormat) (r1 : Nat) (st : σ) (h : P st) : P (attemptExponent word f r1 st).2 := by
  unfold attemptExponent
  split
  · exact h
  · exact zeroPath_keeps hd _ _ _ _ h

theorem attempt_keeps {σ : Type} {word : σ → Nat × σ} {P : σ → Prop} (hd : ∀ st, P st → P (word st).2)
    (f : FloatFormat) (st : σ) (h : P st) : P (attempt word f st).2 := by
  have hp := attemptExponent_keeps hd f (word st).1 _ (hd st h)
  unfold attempt
  generalize word st = r at hp ⊢
  obtain ⟨r1, st1⟩ := r
  dsimp only at hp ⊢
  generalize attemptExponent word f r1 st1 = q at hp ⊢
  obtain ⟨ex, st2⟩ := q
  dsimp only at hp ⊢
  split <;> split <;> exact hp

/-- What every word drawn keeps, a synthesis keeps (R281). -/
theorem synth_keeps {σ : Type} {word : σ → Nat × σ} {P : σ → Prop} (hd : ∀ st, P st → P (word st).2)
    (f : FloatFormat) (k : Nat) (st : σ) (h : P st) : P (synth word f k st).2 := by
  induction k generalizing st with
  | zero => exact h
  | succ k ih =>
    have hp := attempt_keeps hd f st h
    rw [synth]
    split <;> rename_i he <;> rw [he] at hp
    · exact hp
    · exact ih _ hp

/-! ### A step -/

/-- All a step can do, by the next turn (R30, R329). -/
theorem step_cases {s : State} {o : Host.Outcome State Fault Refusal} (h : step s = o) :
    (s.turns = [] ∧ s.busy = false ∧ o = .next s) ∨
    (s.turns = [] ∧ s.busy = true ∧ o = engineStep s) ∨
    (∃ rest, s.turns = .engine :: rest ∧ s.busy = false ∧ o = .next { s with turns := rest }) ∨
    (∃ rest, s.turns = .engine :: rest ∧ s.busy = true ∧ o = engineStep { s with turns := rest }) ∨
    (∃ a rest, s.turns = .host a :: rest ∧ a.fits = true ∧ o = .next (State.access { s with turns := rest } a)) ∨
    (∃ a rest, s.turns = .host a :: rest ∧ a.fits = false ∧ o = .fault .storeTooWide) ∨
    (∃ rest, s.turns = .powerOn :: rest ∧ o = .next (State.powerOn { s with turns := rest })) := by
  subst h
  unfold step
  rcases ht : s.turns with _ | ⟨a | _ | _, rest⟩
  · cases hb : s.busy <;> simp
  · cases hf : a.fits
    · simp [hf]
    · refine .inr (.inr (.inr (.inr (.inl ⟨a, rest, rfl, hf, ?_⟩))))
      simp [hf]
  · cases hb : s.busy <;> simp
  · simp

/-- The engine's step: an ILLEGAL completion, or the decoded command's meaning (R320). -/
theorem engineStep_cases (s : State) :
    (∃ why, decode s.cfg.npcg s.cfg.nxo s.pending = .error why ∧
      engineStep s = .next (s.errorCompletion .illegal)) ∨
    (∃ i, decode s.cfg.npcg s.cfg.nxo s.pending = .ok i ∧ engineStep s = exec i s) := by
  unfold engineStep
  split <;> simp_all

end Sys2Proof.Machine
end

