-- ==== Sys2Proof/Laws/Aperture.lean ====
section
/-! SUPPORT. The aperture: where an offset lies (R82), what a legal access does, and reading and writing the words of an
operand window (R84, R86). -/

namespace Sys2Proof.Machine

open Sys2Proof.Spec

/-! ### Where an offset lies -/

@[simp] theorem offsetOf_add {p : Params} {off : Nat} (h : off < 0x4000) : offsetOf p (p.abase + off) = some off := by
  unfold offsetOf apertureSize
  rw [if_pos (by omega), Nat.add_sub_cancel_left]

theorem offsetOf_eq_some {p : Params} {addr off : Nat} (h : offsetOf p addr = some off) :
    addr = p.abase + off ∧ off < 0x4000 := by
  unfold offsetOf apertureSize at h
  split at h
  · cases h
    omega
  · cases h

theorem offsetOf_eq_none {p : Params} {addr : Nat} (h : addr < p.abase ∨ p.abase + 0x4000 ≤ addr) :
    offsetOf p addr = none := if_neg (by unfold apertureSize; omega)

@[simp] theorem locate_cmd (p : Params) : locate p 0x010 = .cmd 0 := rfl
@[simp] theorem locate_status (p : Params) : locate p 0x018 = .status 0 := rfl
@[simp] theorem locate_ctrl (p : Params) : locate p 0x020 = .ctrl 0 := rfl

/-- A byte of X[i]'s window is found in it (R82, R86). -/
theorem locate_window {p : Params} (i : RegId) {k : Nat} (hk : k < p.opw / 8) :
    locate p (0x1000 + i.val * (p.opw / 8) + k) = .window i k := by
  have hd : (i.val * (p.opw / 8) + k) / (p.opw / 8) = i.val := by
    rw [Nat.mul_comm, Nat.mul_add_div (by omega), Nat.div_eq_of_lt hk, add_zero]
  have hm : (i.val * (p.opw / 8) + k) % (p.opw / 8) = k := by
    rw [Nat.mul_comm, Nat.mul_add_mod, Nat.mod_eq_of_lt hk]
  have he : 0x1000 + i.val * (p.opw / 8) + k - 0x1000 = i.val * (p.opw / 8) + k := by omega
  unfold locate
  simp only [show ¬0x1000 + i.val * (p.opw / 8) + k < 0x1000 by omega,
    show ∀ n, n ≤ 0x1000 → ¬0x1000 + i.val * (p.opw / 8) + k < n from fun n h => by omega, if_false, he,
    Nat.reduceLeDiff]
  unfold locateWindow
  rw [dif_pos (by rw [hd]; exact i.isLt)]
  simp [hd, hm]

theorem legal_opw8 {p : Params} (h : p.legal = true) : 32 ≤ p.opw / 8 ∧ p.opw / 8 ≤ 1024 ∧ 8 * (p.opw / 8) = p.opw ∧
    p.opw / 8 % 8 = 0 ∧ 4 * (p.opw / 32) = p.opw / 8 := by
  obtain ⟨⟨c, hc⟩, h1, h2⟩ := Params.legal_opw h
  omega

/-- An offset in the operand windows lies in one of them (R82). -/
theorem exists_window {p : Params} (hl : p.legal = true) {off : Nat} (h : InWindows p off) :
    ∃ (i : RegId) (k : Nat), k < p.opw / 8 ∧ off = 0x1000 + i.val * (p.opw / 8) + k := by
  obtain ⟨h1, -, h3, -, -⟩ := legal_opw8 hl
  obtain ⟨ha, hb⟩ := h
  have hlt : (off - 0x1000) / (p.opw / 8) < 8 := Nat.div_lt_of_lt_mul (by omega)
  refine ⟨⟨(off - 0x1000) / (p.opw / 8), hlt⟩, (off - 0x1000) % (p.opw / 8), Nat.mod_lt _ (by omega), ?_⟩
  have := Nat.div_add_mod (off - 0x1000) (p.opw / 8)
  rw [mul_comm] at this
  simp only
  omega

/-- What a window offset says of its window (R82). -/
theorem locate_eq_window {p : Params} {off k : Nat} {i : RegId} (h : locate p off = .window i k) :
    0x1000 ≤ off ∧ (off - 0x1000) / (p.opw / 8) = i.val ∧ k = (off - 0x1000) % (p.opw / 8) := by
  unfold locate at h
  repeat (split at h; · cases h)
  unfold locateWindow at h
  split at h
  · cases h
    exact ⟨by omega, rfl, rfl⟩
  · cases h

/-- An offset from 0x28 on that is in no window is reserved (R82). -/
theorem locate_reserved {p : Params} (hl : p.legal = true) {off : Nat} (h : 0x028 ≤ off) (hw : ¬InWindows p off) :
    locate p off = .reserved := by
  obtain ⟨h1, -, h3, -, -⟩ := legal_opw8 hl
  unfold locate
  repeat rw [if_neg (by omega)]
  split
  · rfl
  · unfold InWindows at hw
    unfold locateWindow
    rw [dif_neg]
    have := (Nat.le_div_iff_mul_le (x := 8) (y := off - 0x1000) (by omega : 0 < p.opw / 8)).mpr (by omega)
    omega

/-! ### What an access does -/

theorem legalAccess_iff {off n : Nat} : legalAccess off n = true ↔ (n = 4 ∨ n = 8) ∧ off % n = 0 := by
  simp [legalAccess]

theorem access_store {s : State} {off n v : Nat} (h : off < 0x4000) (hn : n = 4 ∨ n = 8) (ha : off % n = 0) :
    s.access (.store (s.cfg.abase + off) n v) =
      (s.store off n v).record (.store (s.cfg.abase + off) n v) .stored := by
  unfold State.access
  simp only [offsetOf_add h, legalAccess_iff.mpr ⟨hn, ha⟩, if_true]

theorem access_load {s : State} {off n : Nat} (h : off < 0x4000) (hn : n = 4 ∨ n = 8) (ha : off % n = 0) :
    s.access (.load (s.cfg.abase + off) n) =
      (s.load off n).2.record (.load (s.cfg.abase + off) n) (.loaded (s.load off n).1) := by
  unfold State.access
  simp only [offsetOf_add h, legalAccess_iff.mpr ⟨hn, ha⟩, if_true]

/-- All a legal store can do (R40, R43, R55, R57, R58, R83, R86, R91). -/
theorem store_cases (s : State) (off n v : Nat) :
    (off = 0x010 ∧ s.store off n v = s.issue (wordOf v 0)) ∨
    (off = 0x018 ∧ s.store off n v = s.storeStatus v) ∨
    (off = 0x020 ∧ s.store off n v = s.storeCtrl v) ∨
    (∃ i k, locate s.cfg off = .window i k ∧ s.store off n v = s.storeWindow i k n v) ∨
    s.store off n v = s := by
  unfold State.store
  split
  · rename_i h
    refine .inl ⟨?_, rfl⟩
    unfold locate locateWindow at h
    repeat' split at h
    all_goals first
      | omega
      | cases h
      | (injection h; omega)
  · rename_i h
    refine .inr (.inl ⟨?_, rfl⟩)
    unfold locate locateWindow at h
    repeat' split at h
    all_goals first
      | omega
      | cases h
      | (injection h; omega)
  · rename_i h
    refine .inr (.inr (.inl ⟨?_, rfl⟩))
    unfold locate locateWindow at h
    repeat' split at h
    all_goals first
      | omega
      | cases h
      | (injection h; omega)
  · rename_i i k h
    exact .inr (.inr (.inr (.inl ⟨i, k, h, rfl⟩)))
  · exact .inr (.inr (.inr (.inr rfl)))

/-- All a legal load can do beside its value (R34, R90, R91). -/
theorem load_cases (s : State) (off n : Nat) :
    (∃ i k, locate s.cfg off = .window i k ∧ s.busy = true ∧ (s.load off n).2 = (s.drawFree n).2.setHaz) ∨
    (∃ mark, (s.load off n).2 = { s with faultMark := s.faultMark || mark }) := by
  unfold State.load
  split
  · rename_i i k h
    split
    · rename_i hb
      exact .inl ⟨i, k, h, hb, rfl⟩
    · exact .inr ⟨_, rfl⟩
  · exact .inr ⟨false, by simp⟩

/-- All a host access can do: not decoded, a bus error, a legal load, or a legal store (R80, R89). -/
theorem access_cases (s : State) (a : Access) :
    (∃ r, s.access a = s.record a r) ∨
    (∃ n r, s.access a = (s.drawFree n).2.record a r) ∨
    (∃ off n r, a = .load (s.cfg.abase + off) n ∧ off < 0x4000 ∧ (n = 4 ∨ n = 8) ∧ off % n = 0 ∧
      s.access a = (s.load off n).2.record a r) ∨
    (∃ off n v r, a = .store (s.cfg.abase + off) n v ∧ off < 0x4000 ∧ (n = 4 ∨ n = 8) ∧ off % n = 0 ∧
      s.access a = (s.store off n v).record a r) := by
  rcases a with ⟨addr, n⟩ | ⟨addr, n, v⟩
  · unfold State.access
    dsimp only
    split
    · exact .inl ⟨_, rfl⟩
    · rename_i off h
      obtain ⟨rfl, hlt⟩ := offsetOf_eq_some h
      split
      · rename_i hL
        obtain ⟨hn, ha⟩ := legalAccess_iff.mp hL
        exact .inr (.inr (.inl ⟨off, n, _, rfl, hlt, hn, ha, rfl⟩))
      · exact .inr (.inl ⟨n, _, rfl⟩)
  · unfold State.access
    dsimp only
    split
    · exact .inl ⟨_, rfl⟩
    · rename_i off h
      obtain ⟨rfl, hlt⟩ := offsetOf_eq_some h
      split
      · rename_i hL
        obtain ⟨hn, ha⟩ := legalAccess_iff.mp hL
        exact .inr (.inr (.inr ⟨off, n, v, _, rfl, hlt, hn, ha, rfl⟩))
      · exact .inl ⟨_, rfl⟩

/-! ### The words of a register -/

theorem regSetWords_get_lt {c : Nat} {r : OpReg} {j v m : Nat} (h : m < j) : (regSetWords r j c v)[m]? = r[m]? := by
  induction c generalizing r j v with
  | zero => rfl
  | succ c ih =>
    rw [regSetWords, ih (by omega), List.getElem?_set_ne (by omega)]

theorem regSetWords_get_ge {c : Nat} {r : OpReg} {j v m : Nat} (h : j + c ≤ m) : (regSetWords r j c v)[m]? = r[m]? := by
  induction c generalizing r j v with
  | zero => rfl
  | succ c ih =>
    rw [regSetWords, ih (by omega), List.getElem?_set_ne (by omega)]

/-- A word inside a stored range is the stored value's word, and written (R86). -/
theorem regSetWords_get {c : Nat} {r : OpReg} {j v m : Nat} (hm : m < c) (hr : j + c ≤ r.length) :
    (regSetWords r j c v)[j + m]? = some ⟨wordOf v m, true⟩ := by
  induction c generalizing r j v m with
  | zero => omega
  | succ c ih =>
    rw [regSetWords]
    rcases m with _ | m
    · rw [add_zero, regSetWords_get_lt (by omega), List.getElem?_set_self (by omega)]
      simp [wordOf]
    · have := ih (r := r.set j ⟨BitVec.ofNat 32 v, true⟩) (j := j + 1) (v := v / 2 ^ 32) (m := m) (by omega)
        (by rw [List.length_set]; omega)
      rw [show j + (m + 1) = j + 1 + m by omega, this, wordOf, wordOf, Nat.div_div_eq_div_mul, ← pow_add,
        show 32 + 32 * m = 32 * (m + 1) by ring]

/-- Four bytes of a word, low byte first, are the word (R84). -/
theorem bytes_of_word (b : Word32) :
    (b.extractLsb' 0 8).toNat + 2 ^ 8 * ((b.extractLsb' 8 8).toNat + 2 ^ 8 * ((b.extractLsb' 16 8).toNat +
      2 ^ 8 * (b.extractLsb' 24 8).toNat)) = b.toNat := by
  have := b.isLt
  simp only [BitVec.extractLsb'_toNat, Nat.shiftRight_eq_div_pow]
  omega

/-- A 4-byte read inside a window is the register's word (R84, R86). -/
theorem apertureBytes_window {s : State} {i : RegId} {j : Nat} {w : OpWord} (hW : s.cfg.opw / 8 % 4 = 0)
    (hj : 4 * j < s.cfg.opw / 8) (hw : s.x[i][j]? = some w) :
    apertureBytes s (0x1000 + i.val * (s.cfg.opw / 8) + 4 * j) 4 = w.bits.toNat := by
  have hb : ∀ b < 4, apertureByte s (0x1000 + i.val * (s.cfg.opw / 8) + 4 * j + b) = w.bits.extractLsb' (8 * b) 8 := by
    intro b hb
    rw [apertureByte, add_assoc, locate_window i (k := 4 * j + b) (by omega)]
    simp only [regByte, show (4 * j + b) / 4 = j by omega, show (4 * j + b) % 4 = b by omega, hw]
  have h0 := hb 0 (by omega)
  have h1 := hb 1 (by omega)
  have h2 := hb 2 (by omega)
  have h3 := hb 3 (by omega)
  simp only [add_zero, Nat.mul_zero, Nat.mul_one, Nat.reduceMul] at h0 h1 h2 h3
  rw [← bytes_of_word w.bits]
  simp only [apertureBytes, add_assoc, Nat.reduceAdd] at *
  rw [h0, h1, h2, h3]
  ring

theorem apertureBytes_split (s : State) (off a b : Nat) :
    apertureBytes s off (a + b) = apertureBytes s off a + 2 ^ (8 * a) * apertureBytes s (off + a) b := by
  induction a generalizing off with
  | zero => simp [apertureBytes]
  | succ a ih =>
    rw [show a + 1 + b = (a + b) + 1 by omega, apertureBytes, ih, apertureBytes, show off + 1 + a = off + (a + 1) by omega,
      show 8 * (a + 1) = 8 + 8 * a by ring, pow_add]
    ring

theorem apertureBytes_lt (s : State) (off n : Nat) : apertureBytes s off n < 2 ^ (8 * n) := by
  induction n generalizing off with
  | zero => simp [apertureBytes]
  | succ n ih =>
    have h := (apertureByte s off).isLt
    have := ih (off + 1)
    rw [apertureBytes, show 8 * (n + 1) = 8 + 8 * n by ring, pow_add]
    nlinarith

/-- Reserved bytes read 0 (R83). -/
theorem apertureBytes_reserved {s : State} {off n : Nat} (h : ∀ k < n, locate s.cfg (off + k) = .reserved) :
    apertureBytes s off n = 0 := by
  induction n generalizing off with
  | zero => rfl
  | succ n ih =>
    have h0 := h 0 (by omega)
    rw [add_zero] at h0
    rw [apertureBytes, ih (fun k hk => by rw [add_assoc, add_comm 1 k]; exact h (k + 1) (by omega))]
    simp [apertureByte, h0]

/-- A legal access to the operand windows stays in one window and covers whole words of it (R82, R86, R89). -/
theorem exists_window_words {p : Params} (hl : p.legal = true) {off n : Nat} (h : InWindows p off) (hn : n = 4 ∨ n = 8)
    (ha : off % n = 0) :
    ∃ (i : RegId) (j : Nat), 4 * j + n ≤ p.opw / 8 ∧ off = 0x1000 + i.val * (p.opw / 8) + 4 * j ∧
      locate p off = .window i (4 * j) := by
  obtain ⟨i, k, hk, rfl⟩ := exists_window hl h
  obtain ⟨l1, l2, l3, l4, l5⟩ := legal_opw8 hl
  obtain ⟨q, hq⟩ : ∃ q, p.opw / 8 = 8 * q := ⟨p.opw / 8 / 8, by omega⟩
  have hm : i.val * (p.opw / 8) = 8 * (i.val * q) := by rw [hq]; ring
  have : 4 * (k / 4) = k := by rcases hn with rfl | rfl <;> omega
  refine ⟨i, k / 4, ?_, by rw [this], by rw [locate_window i hk, this]⟩
  rcases hn with rfl | rfl <;> omega

/-- A value stored to the words of a window is read back from them (R84, R86). -/
theorem apertureBytes_store {s : State} {i : RegId} {j v n : Nat} (hn : n = 4 ∨ n = 8) (hl : s.cfg.legal = true)
    (hr : s.x[i].length = s.cfg.opw / 32) (hj : 4 * j + n ≤ s.cfg.opw / 8) (hv : v < 2 ^ (8 * n)) :
    apertureBytes { s with x := s.x.set i (regSetWords s.x[i] j (n / 4) v) }
      (0x1000 + i.val * (s.cfg.opw / 8) + 4 * j) n = v := by
  obtain ⟨l1, l2, l3, l4, l5⟩ := legal_opw8 hl
  have hword : ∀ c m, m < c → 4 * (j + c) ≤ s.cfg.opw / 8 →
      apertureBytes { s with x := s.x.set i (regSetWords s.x[i] j c v) }
        (0x1000 + i.val * (s.cfg.opw / 8) + 4 * (j + m)) 4 = (wordOf v m).toNat := by
    intro c m hm hc
    exact apertureBytes_window (s := { s with x := s.x.set i (regSetWords s.x[i] j c v) }) (w := ⟨wordOf v m, true⟩)
      (by show s.cfg.opw / 8 % 4 = 0; omega) (by show 4 * (j + m) < s.cfg.opw / 8; omega)
      (by simpa using regSetWords_get (r := s.x[i]) hm (by omega))
  rcases hn with rfl | rfl
  · refine (hword 1 0 (by omega) (by omega)).trans ?_
    simp only [wordOf, Nat.mul_zero, pow_zero, Nat.div_one, BitVec.toNat_ofNat]
    omega
  · have h0 := hword 2 0 (by omega) (by omega)
    have h1 := hword 2 1 (by omega) (by omega)
    refine (apertureBytes_split _ _ 4 4).trans ?_
    rw [show 0x1000 + i.val * (s.cfg.opw / 8) + 4 * j + 4 = 0x1000 + i.val * (s.cfg.opw / 8) + 4 * (j + 1) by ring]
    rw [add_zero] at h0
    rw [h0, h1]
    simp only [wordOf, Nat.mul_zero, pow_zero, Nat.div_one, Nat.mul_one, BitVec.toNat_ofNat]
    omega

end Sys2Proof.Machine
end

