-- ==== Sys2Proof/Laws/Arithmetic.lean ====
section
/-! SUPPORT. What the loops of the arithmetic units compute, in Mathlib's terms: trailing zeros (R15), square-and-multiply
(R165), and the two loops of the Jacobi symbol (R170). -/

namespace Sys2Proof.Machine

/-! ### Trailing zeros -/

theorem ctzUpTo_eq (fuel x : Nat) (h0 : x ≠ 0) (h : x.log2 ≤ fuel) : ctzUpTo fuel x = padicValNat 2 x := by
  induction fuel generalizing x with
  | zero =>
    have : x < 2 ^ (0 + 1) := (Nat.log2_lt h0).mp (by omega)
    obtain rfl : x = 1 := by omega
    simp [ctzUpTo]
  | succ k ih =>
    rw [ctzUpTo]
    split
    · rw [padicValNat.eq_zero_of_not_dvd (by omega)]
    · have hx : x = 2 * (x / 2) := by omega
      have h2 : x / 2 ≠ 0 := by omega
      have hl : (x / 2).log2 ≤ k := by
        have : x < 2 ^ (k + 1 + 1) := (Nat.log2_lt h0).mp (by omega)
        have : x / 2 < 2 ^ (k + 1) := by omega
        have := (Nat.log2_lt h2).mpr this
        omega
      rw [ih _ h2 hl]
      conv_rhs => rw [hx, padicValNat.mul (by norm_num) h2, padicValNat.self (by norm_num)]

/-- `ctz(x)` is the exponent of 2 in x (R15). -/
theorem ctz_eq {x : Nat} (h : x ≠ 0) : ctz x = padicValNat 2 x := ctzUpTo_eq _ _ h le_rfl

theorem ctz_dvd {x : Nat} (h : x ≠ 0) : 2 ^ ctz x ∣ x := by
  rw [ctz_eq h]
  exact pow_padicValNat_dvd

theorem div_ctz_odd {x : Nat} (h : x ≠ 0) : x / 2 ^ ctz x % 2 = 1 := by
  rw [ctz_eq h]
  have := Nat.not_dvd_ordCompl Nat.prime_two h
  rw [Nat.factorization_def _ Nat.prime_two] at this
  omega

/-! ### Modular exponentiation -/

theorem modpowLoop_lt {m fuel acc b p : Nat} (h : acc < m) : modpowLoop m fuel acc b p < m := by
  induction fuel generalizing acc b p with
  | zero => exact h
  | succ k ih =>
    rw [modpowLoop]
    split
    · exact h
    · apply ih
      split
      · exact Nat.mod_lt _ (by omega)
      · exact h

/-- The loop of R165 multiplies the accumulator by b^p modulo m. -/
theorem modpowLoop_mod {m fuel acc b p : Nat} (h : p < 2 ^ fuel) :
    modpowLoop m fuel acc b p ≡ acc * b ^ p [MOD m] := by
  induction fuel generalizing acc b p with
  | zero =>
    obtain rfl : p = 0 := by simpa using h
    simpa [modpowLoop] using Nat.ModEq.refl acc
  | succ k ih =>
    rw [modpowLoop]
    split
    · rename_i hp
      subst hp
      simpa using Nat.ModEq.refl acc
    · have hp : p / 2 < 2 ^ k := by rw [pow_succ] at h; omega
      refine (ih hp).trans ?_
      have hb : (b * b % m) ^ (p / 2) ≡ (b * b) ^ (p / 2) [MOD m] := (Nat.mod_modEq _ _).pow _
      split
      · rename_i h1
        have hpow : b ^ p = b * (b * b) ^ (p / 2) := by
          conv_lhs => rw [← Nat.div_add_mod p 2, h1, pow_succ, pow_mul, pow_two]
          ring
        rw [hpow, ← mul_assoc]
        exact (Nat.mod_modEq _ _).mul hb
      · rename_i h1
        have hpow : b ^ p = (b * b) ^ (p / 2) := by
          conv_lhs => rw [← Nat.div_add_mod p 2, show p % 2 = 0 by omega, add_zero, pow_mul, pow_two]
        rw [hpow]
        exact (Nat.ModEq.refl _).mul hb

/-- `modpow` with its fast paths (R164) and its loop (R165) is the power modulo m. -/
theorem modpow_eq {b p m : Int} (hm : 1 ≤ m) (hp : 0 ≤ p) : modpow b p m = .ok (b ^ p.toNat % m) := by
  unfold modpow
  rw [if_neg (by omega), if_neg (by omega)]
  split
  · rename_i h1
    rw [h1, Int.emod_one]
  split
  · rename_i h1 h0
    rw [h0, Int.toNat_zero, pow_zero, Int.emod_eq_of_lt (by omega) (by omega)]
  rename_i h1 h0
  rw [residue, if_neg (by omega), if_neg (by omega)]
  show (if _ then _ else _) = _
  have hb0 := Int.emod_nonneg b (show m ≠ 0 by omega)
  have hbm := Int.emod_lt_of_pos b (show 0 < m by omega)
  have key : b ^ p.toNat % m = (b % m) ^ p.toNat % m := (Int.ModEq.pow _ (Int.mod_modEq b m)).symm
  rw [key]
  generalize b % m = r at *
  have hpn : p.toNat ≠ 0 := by omega
  split
  · rename_i h
    rcases h with rfl | rfl
    · rw [zero_pow hpn, Int.zero_emod]
    · rw [one_pow, Int.emod_eq_of_lt (by omega) (by omega)]
  split
  · rename_i h
    have hr : r ≡ -1 [ZMOD m] := by rw [h]; exact (Int.modEq_iff_dvd.mpr ⟨-1, by ring⟩)
    have hpw := hr.pow p.toNat
    congr 1
    split
    · rename_i ho
      have : Odd p.toNat := by rw [Nat.odd_iff]; omega
      rw [this.neg_one_pow] at hpw
      rw [hpw]
      symm
      rw [← Int.add_emod_right, Int.emod_eq_of_lt] <;> omega
    · rename_i ho
      have : Even p.toNat := by rw [Nat.even_iff]; omega
      rw [this.neg_one_pow] at hpw
      rw [hpw]
      exact (Int.emod_eq_of_lt (by omega) (by omega)).symm
  · congr 1
    have hlt : p.toNat < 2 ^ (p.toNat.log2 + 1) := Nat.lt_log2_self
    have h := modpowLoop_mod (m := m.toNat) (acc := 1) (b := r.toNat) hlt
    have hl := modpowLoop_lt (m := m.toNat) (fuel := p.toNat.log2 + 1) (acc := 1) (b := r.toNat) (p := p.toNat) (by omega)
    rw [one_mul] at h
    have e : modpowLoop m.toNat (p.toNat.log2 + 1) 1 r.toNat p.toNat = r.toNat ^ p.toNat % m.toNat := by
      rw [← h, Nat.mod_eq_of_lt hl]
    rw [e]
    push_cast
    rw [Int.toNat_of_nonneg hb0, Int.toNat_of_nonneg (by omega : 0 ≤ m)]

/-! ### The Jacobi symbol -/

theorem jacobiSym_two {n : Nat} (hn : n % 2 = 1) : jacobiSym 2 n = if n % 8 = 3 ∨ n % 8 = 5 then -1 else 1 := by
  rw [jacobiSym.at_two (Nat.odd_iff.mpr hn), ZMod.χ₈_nat_eq_if_mod_eight]
  split <;> split <;> first
    | rfl
    | omega

/-- The inner loop of R170 leaves an odd factor and moves the twos' symbol into the sign. -/
theorem stripTwos_spec {n fuel a : Nat} {t : Int} (hn : n % 2 = 1) (ha : a ≠ 0) (hf : a < 2 ^ fuel) :
    (stripTwos n fuel a t).1 % 2 = 1 ∧ (stripTwos n fuel a t).1 ≤ a ∧
      jacobiSym (stripTwos n fuel a t).1 n * (stripTwos n fuel a t).2 = jacobiSym a n * t := by
  induction fuel generalizing a t with
  | zero => simp at hf; omega
  | succ k ih =>
    rw [stripTwos]
    split
    · have hh : a / 2 ≠ 0 := by omega
      have hk : a / 2 < 2 ^ k := by rw [pow_succ] at hf; omega
      obtain ⟨h1, h2, h3⟩ := ih (t := if n % 8 = 3 ∨ n % 8 = 5 then -t else t) hh hk
      refine ⟨h1, by omega, h3.trans ?_⟩
      have hmul : ((a : Nat) : Int) = 2 * ((a / 2 : Nat) : Int) := by omega
      rw [hmul, jacobiSym.mul_left, jacobiSym_two hn]
      split <;> ring
    · exact ⟨by dsimp only; omega, le_rfl, rfl⟩

/-- The outer loop of R170 computes the Jacobi symbol, given passes enough. -/
theorem jacobiLoop_spec {fuel a n : Nat} {t : Int} (hn : n % 2 = 1) (hf : a * n < 2 ^ fuel) (hlt : a < n) :
    jacobiLoop (fuel + 1) a n t = jacobiSym a n * t := by
  induction fuel generalizing a n t with
  | zero =>
    have h0 : a = 0 := by
      have : a * n = 0 := by omega
      rcases Nat.mul_eq_zero.mp this with h | h <;> omega
    subst h0
    rw [jacobiLoop, if_pos rfl]
    split
    · rename_i h
      simp [h]
    · rw [Nat.cast_zero, jacobiSym.zero_left (by omega), zero_mul]
  | succ k ih =>
    rw [jacobiLoop]
    split
    · rename_i h0
      subst h0
      split
      · rename_i h
        simp [h]
      · rw [Nat.cast_zero, jacobiSym.zero_left (by omega), zero_mul]
    · rename_i h0
      obtain ⟨h1, h2, h3⟩ := stripTwos_spec (t := t) hn h0 (Nat.lt_log2_self (n := a))
      rcases hs : stripTwos n (a.log2 + 1) a t with ⟨a', t'⟩
      rw [hs] at h1 h2 h3
      dsimp only at h1 h2 h3 ⊢
      have hr : n % a' < a' := Nat.mod_lt _ (by omega)
      have hhalf : 2 * (n % a') ≤ n := by
        have := Nat.div_add_mod n a'
        have : 1 ≤ n / a' := Nat.div_pos (by omega) (by omega)
        nlinarith
      have hfuel : n % a' * a' < 2 ^ k := by
        rw [pow_succ] at hf
        nlinarith
      rw [ih h1 hfuel hr, ← h3]
      have hmod : jacobiSym ((n % a' : Nat) : Int) a' = jacobiSym n a' := by
        rw [jacobiSym.mod_left n a']
        norm_cast
      rw [hmod, ← jacobiSym.quadratic_reciprocity_if h1 hn]
      have hcomm : (n % 4 = 3 ∧ a' % 4 = 3) ↔ (a' % 4 = 3 ∧ n % 4 = 3) := And.comm
      simp only [hcomm]
      split <;> ring

/-- `jacobi` is the Jacobi symbol for every odd n ≥ 1 (R170). -/
theorem jacobi_eq {a n : Int} (h1 : 1 ≤ n) (ho : n % 2 = 1) : jacobi a n = .ok (jacobiSym a n.toNat) := by
  unfold jacobi
  rw [if_neg (by omega), if_neg (by omega), residue, if_neg (by omega), if_neg (by omega)]
  show Except.ok _ = _
  have h0 := Int.emod_nonneg a (show n ≠ 0 by omega)
  have hl := Int.emod_lt_of_pos a (show 0 < n by omega)
  rw [jacobiLoop_spec (by omega) Nat.lt_log2_self (by omega), mul_one, Int.toNat_of_nonneg h0, jacobiSym.mod_left a,
    Int.toNat_of_nonneg (by omega : 0 ≤ n)]

end Sys2Proof.Machine
end

