-- ==== Sys2Proof/Laws/Draws.lean ====
section
/-! SUPPORT. What the drawing loops compute, from the stream of samples their source supplies: the bounded scheme (R224)
and the float synthesis (R281). A source with states `st j` supplies `smp j` when `draw (st j) = (smp j, st (j + 1))`. -/

namespace Sys2Proof.Machine

/-! ### Bounded draws -/

/-- The first sample at or above the threshold is accepted, and the source has moved past it (R224). -/
theorem boundedLoop_accept {σ : Type} {draw : σ → Nat × σ} {thr b : Nat} {smp : Nat → Nat} {st : Nat → σ} {k n : Nat}
    (h : ∀ j, draw (st j) = (smp j, st (j + 1))) (hk : k < n) (hrej : ∀ j < k, smp j < thr) (hacc : thr ≤ smp k) :
    boundedLoop draw thr b n (st 0) = (.ok ((smp k % b : Nat) : Int), st (k + 1)) := by
  induction n generalizing k smp st with
  | zero => omega
  | succ n ih =>
    rw [boundedLoop, h 0]
    rcases k with _ | k
    · simp [hacc]
    · have h0 := hrej 0 (by omega)
      simp only [not_le.mpr h0, if_false]
      exact ih (smp := fun j => smp (j + 1)) (st := fun j => st (j + 1)) (fun j => h (j + 1)) (by omega)
        (fun j hj => hrej (j + 1) (by omega)) hacc

/-- With every sample below the threshold the loop is exhausted, and the source keeps all its advances (R224). -/
theorem boundedLoop_exhaust {σ : Type} {draw : σ → Nat × σ} {thr b : Nat} {smp : Nat → Nat} {st : Nat → σ} {n : Nat}
    (h : ∀ j, draw (st j) = (smp j, st (j + 1))) (hrej : ∀ j < n, smp j < thr) :
    boundedLoop draw thr b n (st 0) = (.error .exhausted, st n) := by
  induction n generalizing smp st with
  | zero => rfl
  | succ n ih =>
    rw [boundedLoop, h 0]
    have h0 := hrej 0 (by omega)
    simp only [not_le.mpr h0, if_false]
    exact ih (smp := fun j => smp (j + 1)) (st := fun j => st (j + 1)) (fun j => h (j + 1))
      (fun j hj => hrej (j + 1) (by omega))

/-- A bounded draw's result lies in [0, bound) (R230). -/
theorem boundedLoop_range {σ : Type} {draw : σ → Nat × σ} {thr b n : Nat} {st : σ} {v : Int} (hb : 0 < b)
    (h : (boundedLoop draw thr b n st).1 = .ok v) : 0 ≤ v ∧ v < b := by
  induction n generalizing st with
  | zero => cases h
  | succ n ih =>
    rw [boundedLoop] at h
    split at h
    split at h
    · cases h
      have := Nat.mod_lt (by assumption) hb
      omega
    · exact ih h

/-! ### The float synthesis -/

theorem padicValNat_two_lt {a w : Nat} (h0 : a ≠ 0) (h : a < 2 ^ w) : padicValNat 2 a < w := by
  by_contra hc
  have h1 : 2 ^ w ∣ a := (pow_dvd_pow 2 (not_lt.mp hc)).trans pow_padicValNat_dvd
  exact absurd (Nat.le_of_dvd (Nat.pos_of_ne_zero h0) h1) (not_le.mpr h)

theorem padicValNat_two_add {a w b : Nat} (h0 : a ≠ 0) (h : a < 2 ^ w) :
    padicValNat 2 (a + 2 ^ w * b) = padicValNat 2 a := by
  have hv := padicValNat_two_lt h0 h
  have hs : a + 2 ^ w * b ≠ 0 := fun e => h0 (Nat.add_eq_zero_iff.mp e).1
  apply le_antisymm
  · by_contra hc
    have h1 : 2 ^ (padicValNat 2 a + 1) ∣ a + 2 ^ w * b := (pow_dvd_pow 2 (by omega)).trans pow_padicValNat_dvd
    have h2 : 2 ^ (padicValNat 2 a + 1) ∣ 2 ^ w * b := (pow_dvd_pow 2 (by omega)).mul_right b
    exact pow_succ_padicValNat_not_dvd h0 ((Nat.dvd_add_left h2).mp h1)
  · rw [← padicValNat_dvd_iff_le hs]
    exact dvd_add pow_padicValNat_dvd ((pow_dvd_pow 2 (by omega)).mul_right b)

/-- The exponent the zero path ends with: the trailing zeros of its words, low word first, taken from `ex`, and 0 where
that would be negative (R281, R291). -/
theorem zeroPath_spec {σ : Type} {word : σ → Nat × σ} {w fuel n ex : Nat} {words : Nat → Nat} {st : Nat → σ}
    (h : ∀ j, word (st j) = (words j, st (j + 1))) (hlt : ∀ j, words j < 2 ^ w) (hn : n = ex / w + 1) (hw : 0 < w)
    (hf : n ≤ fuel) :
    zeroPath word w fuel (ex : Int) (st 0) =
      (((if ∑ j ∈ Finset.range n, words j * 2 ^ (w * j) = 0 then 0
          else ex - padicValNat 2 (∑ j ∈ Finset.range n, words j * 2 ^ (w * j)) : Nat) : Int),
        st (Spec.zeroPathUse words n)) := by
  induction fuel generalizing n ex words st with
  | zero => exact absurd (hn ▸ hf) (Nat.not_succ_le_zero _)
  | succ f ih =>
    obtain ⟨n, rfl⟩ : ∃ m, n = m + 1 := ⟨ex / w, hn⟩
    have hsum : ∑ j ∈ Finset.range (n + 1), words j * 2 ^ (w * j) =
        words 0 + 2 ^ w * ∑ j ∈ Finset.range n, words (j + 1) * 2 ^ (w * j) := by
      rw [Finset.sum_range_succ', Finset.mul_sum, add_comm]
      congr 1
      · simp
      · refine Finset.sum_congr rfl fun j _ => ?_
        rw [mul_add, mul_one, pow_add]
        ring
    rw [hsum, zeroPath, h 0]
    dsimp only
    by_cases h0 : words 0 = 0
    · rw [if_pos h0, h0, zero_add, Spec.zeroPathUse, if_pos h0]
      by_cases hneg : (ex : Int) - w < 0
      · have hd : ex / w = 0 := Nat.div_eq_of_lt (by omega)
        obtain rfl : n = 0 := by omega
        simp [hneg, Spec.zeroPathUse]
      · have hle : w ≤ ex := by omega
        have hdiv : ex / w = (ex - w) / w + 1 := by
          rw [Nat.div_eq_sub_div hw hle]
        have := ih (words := fun j => words (j + 1)) (st := fun j => st (j + 1)) (ex := ex - w) (n := n)
          (fun j => h (j + 1)) (fun j => hlt (j + 1)) (by omega) (by omega)
        rw [if_neg hneg, show ((ex : Int) - w) = ((ex - w : Nat) : Int) by omega]
        simp only [zero_add] at this
        rw [this]
        congr 1
        · congr 1
          have hp : (2 : Nat) ^ w ≠ 0 := by positivity
          by_cases hz : ∑ j ∈ Finset.range n, words (j + 1) * 2 ^ (w * j) = 0
          · simp [hz]
          · rw [if_neg hz, if_neg (by simp [hz]), zero_add, padicValNat.mul hp hz, padicValNat.prime_pow]
            omega
        · congr 1
          omega
    · have hs : words 0 + 2 ^ w * ∑ j ∈ Finset.range n, words (j + 1) * 2 ^ (w * j) ≠ 0 := fun e =>
        h0 (Nat.add_eq_zero_iff.mp e).1
      rw [if_neg h0, if_neg hs, padicValNat_two_add h0 (hlt 0), ctz_eq h0, Spec.zeroPathUse, if_neg h0]
      congr 1
      split <;> omega

/-- The formats R281 and R282 give meet these. -/
structure FloatFormat.Fits (f : FloatFormat) : Prop where
  wPos : 0 < f.w
  lLt : f.l < f.w
  lPos : 0 < f.l
  lLe : f.l ≤ f.b
  mEq : f.m = f.w - 1 - f.l

theorem float32_fits : float32.Fits := by constructor <;> decide

theorem float64_fits : float64.Fits := by constructor <;> decide

theorem attemptExponent_spec {σ : Type} {word : σ → Nat × σ} {f : FloatFormat} {words : Nat → Nat} {st : Nat → σ}
    (hf : f.Fits) (h : ∀ j, word (st j) = (words j, st (j + 1))) (hlt : ∀ j, words j < 2 ^ f.w) :
    attemptExponent word f (words 0) (st 1) =
      ((Spec.exponent f.w f.l f.b words : Int), st (Spec.wordsUsed f.w f.l f.b words)) := by
  unfold attemptExponent Spec.exponent Spec.wordsUsed
  by_cases h0 : words 0 % 2 ^ f.l = 0
  · simp only [h0, ne_eq, not_true_eq_false, if_false]
    have hz := zeroPath_spec (words := fun j => words (j + 1)) (st := fun j => st (j + 1)) (w := f.w) (ex := f.b - f.l)
      (n := Spec.zeroPathMax f.w f.l f.b) (fuel := f.b + 1) (fun j => h (j + 1)) (fun j => hlt (j + 1)) rfl hf.wPos
      (by unfold Spec.zeroPathMax; have := Nat.div_le_self (f.b - f.l) f.w; omega)
    rw [show ((f.b : Int) - f.l) = ((f.b - f.l : Nat) : Int) by have := hf.lLe; omega]
    simp only [zero_add] at hz
    rw [hz, Spec.zeroPathBits, add_comm 1]
  · have hv := padicValNat_two_lt h0 (Nat.mod_lt (words 0) (by positivity : 0 < 2 ^ f.l))
    have := hf.lLe
    simp only [ne_eq, h0, not_false_eq_true, if_true]
    rw [ctz_eq h0]
    congr 1
    omega

theorem exponent_le {w l b : Nat} (words : Nat → Nat) : Spec.exponent w l b words ≤ b := by
  unfold Spec.exponent
  split
  · omega
  · split <;> omega

/-- The boundary correction takes the exponent past B exactly for the rejected first words (R283). -/
theorem rejected_iff {w l b : Nat} {words : Nat → Nat} (hl : l < w) (hl0 : 0 < l) (hb : l ≤ b) (hlt : words 0 < 2 ^ w) :
    Spec.Rejected w l (words 0) ↔
      Spec.exponent w l b words = b ∧ Spec.mantissa w l (words 0) = 0 ∧ (words 0).testBit (w - 1) = true := by
  generalize hr : words 0 = r at *
  have hw : 2 ^ w = 2 ^ (w - 1) * 2 := by rw [← pow_succ]; congr 1; omega
  have hp : 2 ^ (w - 1) = 2 ^ l * 2 ^ (w - 1 - l) := by rw [← pow_add]; congr 1; omega
  have hl2 : 2 ^ l = 2 * 2 ^ (l - 1) := by rw [← pow_succ']; congr 1; omega
  have hlp : 0 < 2 ^ l := by positivity
  have hsplit : r = 2 ^ l * (r / 2 ^ l) + r % 2 ^ l := (Nat.div_add_mod _ _).symm
  have hexp : Spec.exponent w l b words = b ↔ r % 2 ^ l % 2 = 1 := by
    unfold Spec.exponent
    rw [hr]
    constructor
    · intro h
      split at h
      · rename_i h0
        have hv : padicValNat 2 (r % 2 ^ l) = 0 := by omega
        by_contra hc
        have : 1 ≤ padicValNat 2 (r % 2 ^ l) := one_le_padicValNat_of_dvd h0 (by omega)
        omega
      · split at h <;> omega
    · intro h
      rw [if_pos (by omega), padicValNat.eq_zero_of_not_dvd (by omega), Nat.sub_zero]
  rw [hexp, Nat.testBit_eq_decide_div_mod_eq, decide_eq_true_iff]
  unfold Spec.Rejected Spec.mantissa
  constructor
  · rintro ⟨u, hu, hul, rfl⟩
    have hm : (2 ^ (w - 1) + u) % 2 ^ l = u := by
      rw [hp, Nat.mul_add_mod, Nat.mod_eq_of_lt hul]
    have hd : (2 ^ (w - 1) + u) / 2 ^ l = 2 ^ (w - 1 - l) := by
      rw [hp, Nat.mul_add_div hlp, Nat.div_eq_of_lt hul, add_zero]
    have h1 : (2 ^ (w - 1) + u) / 2 ^ (w - 1) = 1 := by
      have : u < 2 ^ (w - 1) := by rw [hp]; exact lt_of_lt_of_le hul (Nat.le_mul_of_pos_right _ (by positivity))
      rw [Nat.add_div_left _ (by positivity), Nat.div_eq_of_lt this]
    rw [hm, hd, h1]
    exact ⟨hu, Nat.mod_self _, rfl⟩
  · rintro ⟨ho, hm, ht⟩
    refine ⟨r % 2 ^ l, ho, Nat.mod_lt _ hlp, ?_⟩
    have h1 : r / 2 ^ (w - 1) = 1 := by
      have : r / 2 ^ (w - 1) < 2 := Nat.div_lt_of_lt_mul (hw ▸ hlt)
      exact (Nat.mod_eq_of_lt this).symm.trans ht
    have h2 : r / 2 ^ l / 2 ^ (w - 1 - l) = 1 := by rw [Nat.div_div_eq_div_mul, ← hp, h1]
    have h3 := Nat.div_add_mod (r / 2 ^ l) (2 ^ (w - 1 - l))
    rw [h2, hm, mul_one, add_zero] at h3
    rw [hp, h3]
    exact hsplit

/-- One attempt of the synthesis, from the stream of words its source supplies (R281). -/
theorem attempt_spec {σ : Type} {word : σ → Nat × σ} {f : FloatFormat} {words : Nat → Nat} {st : Nat → σ}
    (hf : f.Fits) (h : ∀ j, word (st j) = (words j, st (j + 1))) (hlt : ∀ j, words j < 2 ^ f.w) :
    (Spec.Rejected f.w f.l (words 0) → attempt word f (st 0) = (none, st 1)) ∧
    (¬Spec.Rejected f.w f.l (words 0) → attempt word f (st 0) =
      (some (Spec.pattern f.w f.l f.b f.m words : Int), st (Spec.wordsUsed f.w f.l f.b words))) := by
  have hrej := rejected_iff (words := words) hf.lLt hf.lPos hf.lLe (hlt 0)
  have hle := exponent_le (w := f.w) (l := f.l) (b := f.b) words
  have hman : Spec.mantissa f.w f.l (words 0) < 2 ^ f.m := by
    rw [hf.mEq]; exact Nat.mod_lt _ (by positivity)
  unfold attempt
  rw [h 0]
  dsimp only
  rw [attemptExponent_spec hf h hlt]
  dsimp only
  rw [show words 0 / 2 ^ f.l % 2 ^ (f.w - 1 - f.l) = Spec.mantissa f.w f.l (words 0) from rfl]
  constructor
  · intro hr
    obtain ⟨h1, h2, h3⟩ := hrej.mp hr
    have hu : Spec.wordsUsed f.w f.l f.b words = 1 := by
      obtain ⟨u, hu, hul, hw⟩ := hr
      have hp : 2 ^ (f.w - 1) = 2 ^ f.l * 2 ^ (f.w - 1 - f.l) := by
        rw [← pow_add]; congr 1; have := hf.lLt; omega
      have : words 0 % 2 ^ f.l = u := by rw [hw, hp, Nat.mul_add_mod, Nat.mod_eq_of_lt hul]
      rw [Spec.wordsUsed, if_pos (by omega)]
    rw [hu, h1, h2, h3]
    simp
  · intro hr
    have hshape : ∀ e : Nat, e <<< f.m ||| Spec.mantissa f.w f.l (words 0) =
        e * 2 ^ f.m + Spec.mantissa f.w f.l (words 0) := by
      intro e
      rw [← Nat.shiftLeft_add_eq_or_of_lt hman, Nat.shiftLeft_eq]
    by_cases hc : Spec.mantissa f.w f.l (words 0) = 0 ∧ (words 0).testBit (f.w - 1) = true
    · have hne : Spec.exponent f.w f.l f.b words ≠ f.b := fun e => hr (hrej.mpr ⟨e, hc⟩)
      rw [if_pos hc, if_neg (by omega), Spec.pattern, if_pos hc]
      rw [← hshape, show ((Spec.exponent f.w f.l f.b words : Int) + 1).toNat = Spec.exponent f.w f.l f.b words + 1 by omega]
    · rw [if_neg hc, if_neg (by omega), Spec.pattern, if_neg hc, add_zero, ← hshape, Int.toNat_natCast]

/-- After `k` rejected attempts, the first accepted one gives the synthesis its value (R281). -/
theorem synth_accept {σ : Type} {word : σ → Nat × σ} {f : FloatFormat} {words : Nat → Nat} {st : Nat → σ} {k n : Nat}
    (hf : f.Fits) (h : ∀ j, word (st j) = (words j, st (j + 1))) (hlt : ∀ j, words j < 2 ^ f.w) (hk : k < n)
    (hrej : ∀ j < k, Spec.Rejected f.w f.l (words j)) (hacc : ¬Spec.Rejected f.w f.l (words k)) :
    synth word f n (st 0) = (.ok (Spec.pattern f.w f.l f.b f.m (fun j => words (k + j)) : Int),
      st (k + Spec.wordsUsed f.w f.l f.b (fun j => words (k + j)))) := by
  induction n generalizing k words st with
  | zero => omega
  | succ n ih =>
    have ha := attempt_spec hf h hlt
    rw [synth]
    rcases k with _ | k
    · rw [ha.2 hacc]
      simp
    · rw [ha.1 (hrej 0 (by omega))]
      dsimp only
      have := ih (words := fun j => words (j + 1)) (st := fun j => st (j + 1)) (k := k) (fun j => h (j + 1))
        (fun j => hlt (j + 1)) (by omega) (fun j hj => hrej (j + 1) (by omega)) hacc
      simp only [zero_add] at this
      rw [this]
      have e : ∀ j, k + j + 1 = k + 1 + j := fun j => by omega
      simp only [e]

/-- With every attempt rejected the synthesis is exhausted, one word an attempt (R281, R283). -/
theorem synth_exhaust {σ : Type} {word : σ → Nat × σ} {f : FloatFormat} {words : Nat → Nat} {st : Nat → σ} {n : Nat}
    (hf : f.Fits) (h : ∀ j, word (st j) = (words j, st (j + 1))) (hlt : ∀ j, words j < 2 ^ f.w)
    (hrej : ∀ j < n, Spec.Rejected f.w f.l (words j)) : synth word f n (st 0) = (.error .exhausted, st n) := by
  induction n generalizing words st with
  | zero => rfl
  | succ n ih =>
    rw [synth, (attempt_spec hf h hlt).1 (hrej 0 (by omega))]
    exact ih (words := fun j => words (j + 1)) (st := fun j => st (j + 1)) (fun j => h (j + 1)) (fun j => hlt (j + 1))
      (fun j hj => hrej (j + 1) (by omega))

end Sys2Proof.Machine
end

