-- ==== Sys2Proof/Laws/Exec.lean ====
section
/-! SUPPORT. All a command can do, said once for every command: it completes, with an error and no register written, or
successfully with at most its destination written, and of the cores it changes those it selects. -/

namespace Sys2Proof.Machine

open Sys2Proof.Spec

/-- What a command may make of the fault mark and the cores. -/
structure Effects (i : Instr) (s : State) (mark : Bool) (pcg : List PcgCore) (xo : List XoCore) : Prop where
  /-- A command on cores that are there marks the run exactly when a source has an unwritten word (R34). -/
  markEq : i.coresPresent s.pcg.length s.xo.length = true →
    mark = (s.faultMark || !((sources i).all fun r => regWritten s.x[r]))
  /-- The mark is never cleared (R72). -/
  markKept : s.faultMark = true → mark = true
  pcgLength : pcg.length = s.pcg.length
  xoLength : xo.length = s.xo.length
  /-- A PCG core that is not selected stays (R64). -/
  pcgOther : ∀ k : Nat, (∀ e ∈ pcgCores i, e.val ≠ k) → pcg[k]? = s.pcg[k]?
  /-- A Xoshiro core that is not selected stays (R64). -/
  xoOther : ∀ k : Nat, (∀ e ∈ xoCores i, e.val ≠ k) → xo[k]? = s.xo[k]?
  /-- An increment is an old one, the default or odd (R60). -/
  inc : ∀ c ∈ pcg, (∃ d ∈ s.pcg, c.pi = d.pi) ∨ c.pi = s.cfg.pcgDefInc ∨ c.pi.getLsbD 0 = true

/-- How a command ends. -/
inductive Ends (i : Instr) (s : State) (mark : Bool) (pcg : List PcgCore) (xo : List XoCore) : Prop
  | error (e : ErrCode) (kept : e = .exhausted ∨ pcg = s.pcg ∧ xo = s.xo)
      (eq : exec i s = .next (State.errorCompletion { s with faultMark := mark, pcg := pcg, xo := xo } e))
  | plain (eq : exec i s = .next (State.complete { s with faultMark := mark, pcg := pcg, xo := xo }))
  | write (rd : RegId) (v : Int) (rd_eq : dest i = some rd)
      (eq : exec i s = .next (State.complete (State.writeReg { s with faultMark := mark, pcg := pcg, xo := xo } rd v)))

theorem Effects.same {i : Instr} {s : State} {mark : Bool}
    (h : i.coresPresent s.pcg.length s.xo.length = true →
      mark = (s.faultMark || !((sources i).all fun r => regWritten s.x[r])))
    (hk : s.faultMark = true → mark = true) : Effects i s mark s.pcg s.xo :=
  ⟨h, hk, rfl, rfl, fun _ _ => rfl, fun _ _ => rfl, fun c hc => .inl ⟨c, hc, rfl⟩⟩

theorem mark_kept {s : State} {b : Bool} (h : s.faultMark = true) : (s.faultMark || b) = true := by simp [h]

/-- A command that touches no core. -/
theorem ends_finish {i : Instr} {s : State} {rd : RegId} (hd : dest i = some rd) (r : Except ErrCode Int)
    (h : exec i s = .next ((s.readSources (sources i)).finish rd r)) :
    ∃ mark pcg xo, Effects i s mark pcg xo ∧ Ends i s mark pcg xo := by
  refine ⟨_, _, _, .same (fun _ => rfl) mark_kept, ?_⟩
  cases r with
  | ok v => exact .write rd v hd h
  | error e => exact .error e (.inr ⟨rfl, rfl⟩) h

/-- A command that names a core that is not there. -/
theorem ends_absent {i : Instr} {s : State} (hc : i.coresPresent s.pcg.length s.xo.length = false)
    (h : exec i s = .next (s.errorCompletion .illegal)) :
    ∃ mark pcg xo, Effects i s mark pcg xo ∧ Ends i s mark pcg xo :=
  ⟨s.faultMark, _, _, .same (fun h => by simp [hc] at h) id, .error .illegal (.inr ⟨rfl, rfl⟩) h⟩

/-- A drawing command on PCG cores. -/
theorem ends_finishPcg {i : Instr} {s : State} {rd : RegId} (hd : dest i = some rd)
    (r : Except ErrCode Int × List PcgCore) (hr : r.1 = .error .exhausted ∨ (∃ v, r.1 = .ok v) ∨ r.2 = s.pcg)
    (hl : r.2.length = s.pcg.length) (ho : ∀ k : Nat, (∀ e ∈ pcgCores i, e.val ≠ k) → r.2[k]? = s.pcg[k]?)
    (hi : ∀ c ∈ r.2, ∃ d ∈ s.pcg, c.pi = d.pi)
    (h : exec i s = .next ((s.readSources (sources i)).finishPcg rd r)) :
    ∃ mark pcg xo, Effects i s mark pcg xo ∧ Ends i s mark pcg xo := by
  refine ⟨_, r.2, s.xo, ⟨fun _ => rfl, mark_kept, hl, rfl, ho, fun _ _ => rfl, fun c hc => .inl (hi c hc)⟩, ?_⟩
  obtain ⟨_ | v, pcg⟩ := r
  · rename_i e
    refine .error e ?_ h
    rcases hr with hr | ⟨v, hr⟩ | hr
    · exact .inl (by cases hr; rfl)
    · cases hr
    · exact .inr ⟨hr, rfl⟩
  · exact .write rd v hd h

/-- A drawing command on a Xoshiro core. -/
theorem ends_finishXo {i : Instr} {s : State} {rd : RegId} (hd : dest i = some rd)
    (r : Except ErrCode Int × List XoCore) (hr : r.1 = .error .exhausted ∨ (∃ v, r.1 = .ok v) ∨ r.2 = s.xo)
    (hl : r.2.length = s.xo.length) (ho : ∀ k : Nat, (∀ e ∈ xoCores i, e.val ≠ k) → r.2[k]? = s.xo[k]?)
    (h : exec i s = .next ((s.readSources (sources i)).finishXo rd r)) :
    ∃ mark pcg xo, Effects i s mark pcg xo ∧ Ends i s mark pcg xo := by
  refine ⟨_, s.pcg, r.2, ⟨fun _ => rfl, mark_kept, rfl, hl, fun _ _ => rfl, ho, fun c hc => .inl ⟨c, hc, rfl⟩⟩, ?_⟩
  obtain ⟨_ | v, xo⟩ := r
  · rename_i e
    refine .error e ?_ h
    rcases hr with hr | ⟨v, hr⟩ | hr
    · exact .inl (by cases hr; rfl)
    · cases hr
    · exact .inr ⟨rfl, hr⟩
  · exact .write rd v hd h

/-! ### The ways a draw ends -/

theorem boundedLoop_result {σ : Type} (draw : σ → Nat × σ) (thr bound k : Nat) (st : σ) :
    (boundedLoop draw thr bound k st).1 = .error .exhausted ∨ ∃ v, (boundedLoop draw thr bound k st).1 = .ok v := by
  induction k generalizing st with
  | zero => exact .inl rfl
  | succ k ih =>
    rw [boundedLoop]
    split
    split
    · exact .inr ⟨_, rfl⟩
    · exact ih _

theorem bounded_result {σ : Type} (draw : σ → Nat × σ) (n : Nat) (bound limit : Int) (k : Nat) (st : σ) :
    (bounded draw n bound limit k st).1 = .error .exhausted ∨ (∃ v, (bounded draw n bound limit k st).1 = .ok v) ∨
      (bounded draw n bound limit k st).2 = st := by
  unfold bounded
  split
  · exact .inr (.inr rfl)
  · exact (boundedLoop_result draw _ _ k st).imp_right .inl

theorem synth_result {σ : Type} (word : σ → Nat × σ) (f : FloatFormat) (k : Nat) (st : σ) :
    (synth word f k st).1 = .error .exhausted ∨ (∃ v, (synth word f k st).1 = .ok v) := by
  induction k generalizing st with
  | zero => exact .inl rfl
  | succ k ih =>
    rw [synth]
    split
    · exact .inr ⟨_, rfl⟩
    · exact ih _

/-- What is kept of PCG cores by draws on the cores `es`. -/
def PcgKept (es : List CoreId) (cs cs' : List PcgCore) : Prop :=
  cs'.length = cs.length ∧ (∀ k : Nat, (∀ e ∈ es, e.val ≠ k) → cs'[k]? = cs[k]?) ∧ ∀ c ∈ cs', ∃ d ∈ cs, c.pi = d.pi

/-- What is kept of Xoshiro cores by draws on the cores `es`. -/
def XoKept (es : List CoreId) (cs cs' : List XoCore) : Prop :=
  cs'.length = cs.length ∧ ∀ k : Nat, (∀ e ∈ es, e.val ≠ k) → cs'[k]? = cs[k]?

theorem PcgKept.refl (es : List CoreId) (cs : List PcgCore) : PcgKept es cs cs :=
  ⟨rfl, fun _ _ => rfl, fun c h => ⟨c, h, rfl⟩⟩

theorem XoKept.refl (es : List CoreId) (cs : List XoCore) : XoKept es cs cs := ⟨rfl, fun _ _ => rfl⟩

theorem PcgKept.draw {es : List CoreId} {e : CoreId} (he : e ∈ es) {cs cs' : List PcgCore} (h : PcgKept es cs cs') :
    PcgKept es cs (pcgDraw e cs').2 := by
  obtain ⟨h1, h2, h3⟩ := h
  refine ⟨by simpa using h1, fun k hk => (pcgDraw_get_ne (hk e he) cs').trans (h2 k hk), fun c hc => ?_⟩
  obtain ⟨d, hd, e1⟩ := pcgDraw_pi hc
  obtain ⟨d', hd', e2⟩ := h3 d hd
  exact ⟨d', hd', e1.trans e2⟩

theorem XoKept.draw {es : List CoreId} {e : CoreId} (he : e ∈ es) {cs cs' : List XoCore} (h : XoKept es cs cs') :
    XoKept es cs (xoDraw e cs').2 :=
  ⟨by simpa using h.1, fun k hk => (xoDraw_get_ne (hk e he) cs').trans (h.2 k hk)⟩

theorem onPcg_next {i : Instr} {s : State} {e : CoreId} {run : State → State} (hp : e ∈ pcgCores i)
    (hw : ∀ np nx, i.coresPresent np nx = true → ∀ e ∈ pcgCores i, e.val < np)
    (h : exec i s = .next (s.onPcg e run))
    (hr : exec i s = .next (run s) → ∃ mark pcg xo, Effects i s mark pcg xo ∧ Ends i s mark pcg xo) :
    ∃ mark pcg xo, Effects i s mark pcg xo ∧ Ends i s mark pcg xo := by
  by_cases he : e.val < s.pcg.length
  · rw [State.onPcg_of_lt he] at h
    exact hr h
  · rw [State.onPcg_of_not_lt he] at h
    exact ends_absent (Bool.eq_false_iff.mpr fun hc => he (hw _ _ hc e hp)) h

theorem onXo_next {i : Instr} {s : State} {e : CoreId} {run : State → State} (hp : e ∈ xoCores i)
    (hw : ∀ np nx, i.coresPresent np nx = true → ∀ e ∈ xoCores i, e.val < nx)
    (h : exec i s = .next (s.onXo e run))
    (hr : exec i s = .next (run s) → ∃ mark pcg xo, Effects i s mark pcg xo ∧ Ends i s mark pcg xo) :
    ∃ mark pcg xo, Effects i s mark pcg xo ∧ Ends i s mark pcg xo := by
  by_cases he : e.val < s.xo.length
  · rw [State.onXo_of_lt he] at h
    exact hr h
  · rw [State.onXo_of_not_lt he] at h
    exact ends_absent (Bool.eq_false_iff.mpr fun hc => he (hw _ _ hc e hp)) h

theorem cores_present_pcg {i : Instr} (np nx : Nat) (h : i.coresPresent np nx = true) : ∀ e ∈ pcgCores i, e.val < np := by
  cases i <;> simp_all [Instr.coresPresent, pcgCores]

theorem cores_present_xo {i : Instr} (np nx : Nat) (h : i.coresPresent np nx = true) : ∀ e ∈ xoCores i, e.val < nx := by
  cases i <;> simp_all [Instr.coresPresent, xoCores]

theorem onPcg_finishPcg {i : Instr} {s : State} {e : CoreId} {rd : RegId} (hp : e ∈ pcgCores i) (hd : dest i = some rd)
    (r : State → Except ErrCode Int × List PcgCore)
    (hr : (r s).1 = .error .exhausted ∨ (∃ v, (r s).1 = .ok v) ∨ (r s).2 = s.pcg) (hk : PcgKept (pcgCores i) s.pcg (r s).2)
    (h : exec i s = .next (s.onPcg e fun s => (s.readSources (sources i)).finishPcg rd (r s))) :
    ∃ mark pcg xo, Effects i s mark pcg xo ∧ Ends i s mark pcg xo :=
  onPcg_next hp cores_present_pcg h (ends_finishPcg hd (r s) hr hk.1 hk.2.1 hk.2.2)

theorem onXo_finishXo {i : Instr} {s : State} {e : CoreId} {rd : RegId} (hp : e ∈ xoCores i) (hd : dest i = some rd)
    (r : State → Except ErrCode Int × List XoCore)
    (hr : (r s).1 = .error .exhausted ∨ (∃ v, (r s).1 = .ok v) ∨ (r s).2 = s.xo) (hk : XoKept (xoCores i) s.xo (r s).2)
    (h : exec i s = .next (s.onXo e fun s => (s.readSources (sources i)).finishXo rd (r s))) :
    ∃ mark pcg xo, Effects i s mark pcg xo ∧ Ends i s mark pcg xo :=
  onXo_next hp cores_present_xo h (ends_finishXo hd (r s) hr hk.1 hk.2)

@[simp] theorem State.readSources_nil (s : State) : s.readSources [] = s := by
  simp [State.readSources]

/-- The increment PCG.SEED constructs is odd (R60, R225). -/
theorem pcgSeeded_odd (v : Nat) : (pcgSeeded v).pi.getLsbD 0 = true := by
  simp [pcgSeeded, PcgCore.step_pi]

theorem mem_set_pcg {cs : List PcgCore} {k : Nat} {c d : PcgCore} (h : c ∈ cs.set k d) : c ∈ cs ∨ c = d :=
  List.mem_or_eq_of_mem_set h

/-- All a command can do. -/
theorem exec_form (i : Instr) (s : State) : ∃ mark pcg xo, Effects i s mark pcg xo ∧ Ends i s mark pcg xo := by
  cases i with
  | residue rd ra rb => exact ends_finish rfl _ rfl
  | modpow rd ra rb rc => exact ends_finish rfl _ rfl
  | jacobi rd ra rb => exact ends_finish rfl _ rfl
  | mr2 rd ra => exact ends_finish rfl _ rfl
  | pcgSeed e ra =>
    refine onPcg_next (e := e) (List.mem_singleton_self _) cores_present_pcg rfl fun h => ?_
    dsimp only at h
    split at h
    · exact ⟨_, _, _, .same (fun _ => rfl) mark_kept, .error _ (.inr ⟨rfl, rfl⟩) h⟩
    · refine ⟨_, _, s.xo, ⟨fun _ => rfl, mark_kept, List.length_set, rfl, fun k hk => ?_, fun _ _ => rfl, fun c hc => ?_⟩, .plain h⟩
      · exact List.getElem?_set_ne (hk e (List.mem_singleton_self _))
      · rcases mem_set_pcg hc with hc | rfl
        · exact .inl ⟨c, hc, rfl⟩
        · exact .inr (.inr (pcgSeeded_odd _))
  | pcgDflt e =>
    refine onPcg_next (e := e) (List.mem_singleton_self _) cores_present_pcg rfl fun h => ?_
    refine ⟨s.faultMark, _, s.xo, ⟨fun _ => by simp [sources], id, List.length_set, rfl, fun k hk => ?_, fun _ _ => rfl, fun c hc => ?_⟩, .plain h⟩
    · exact List.getElem?_set_ne (hk e (List.mem_singleton_self _))
    · rcases mem_set_pcg hc with hc | rfl
      · exact .inl ⟨c, hc, rfl⟩
      · exact .inr (.inl rfl)
  | pcgNext rd e =>
    exact onPcg_finishPcg (List.mem_singleton_self e) rfl (fun s => (.ok (pcgDraw e s.pcg).1, (pcgDraw e s.pcg).2))
      (.inr (.inl ⟨_, rfl⟩)) ((PcgKept.refl _ _).draw (List.mem_singleton_self e)) (by simp [sources, exec, execPcgNext])
  | pcgBnd32 rd e ra =>
    exact onPcg_finishPcg (List.mem_singleton_self e) rfl _ (bounded_result _ _ _ _ _ _)
      (bounded_keeps (fun _ h => h.draw (List.mem_singleton_self e)) _ _ _ _ _ (.refl _ _)) rfl
  | xoSeed e ra =>
    refine onXo_next (e := e) (List.mem_singleton_self _) cores_present_xo rfl fun h => ?_
    dsimp only at h
    split at h
    · exact ⟨_, _, _, .same (fun _ => rfl) mark_kept, .error _ (.inr ⟨rfl, rfl⟩) h⟩
    · exact ⟨_, s.pcg, _, ⟨fun _ => rfl, mark_kept, rfl, List.length_set, fun _ _ => rfl,
        fun k hk => List.getElem?_set_ne (hk e (List.mem_singleton_self _)), fun c hc => .inl ⟨c, hc, rfl⟩⟩, .plain h⟩
  | xoDflt e =>
    refine onXo_next (e := e) (List.mem_singleton_self _) cores_present_xo rfl fun h => ?_
    exact ⟨s.faultMark, s.pcg, _, ⟨fun _ => by simp [sources], id, rfl, List.length_set, fun _ _ => rfl,
      fun k hk => List.getElem?_set_ne (hk e (List.mem_singleton_self _)), fun c hc => .inl ⟨c, hc, rfl⟩⟩, .plain h⟩
  | xoNext rd e =>
    exact onXo_finishXo (List.mem_singleton_self e) rfl (fun s => (.ok (xoDraw e s.xo).1, (xoDraw e s.xo).2))
      (.inr (.inl ⟨_, rfl⟩)) ((XoKept.refl _ _).draw (List.mem_singleton_self e)) (by simp [sources, exec, execXoNext])
  | xoBnd64 rd e ra =>
    exact onXo_finishXo (List.mem_singleton_self e) rfl _ (bounded_result _ _ _ _ _ _)
      (bounded_keeps (fun _ h => h.draw (List.mem_singleton_self e)) _ _ _ _ _ (.refl _ _)) rfl
  | xoBnd32 rd e ra =>
    exact onXo_finishXo (List.mem_singleton_self e) rfl _ (bounded_result _ _ _ _ _ _)
      (bounded_keeps (fun _ h => h.draw (List.mem_singleton_self e)) _ _ _ _ _ (.refl _ _)) rfl
  | flt32P rd e =>
    exact onPcg_finishPcg (List.mem_singleton_self e) rfl (fun s => synth (pcgDraw e) float32 s.cfg.retryMax s.pcg)
      ((synth_result _ _ _ _).imp_right .inl)
      (synth_keeps (fun _ h => h.draw (List.mem_singleton_self e)) _ _ _ (.refl _ _)) (by simp [sources, exec, execFlt32P])
  | flt32X rd e =>
    exact onXo_finishXo (List.mem_singleton_self e) rfl (fun s => synth (xoHighDraw e) float32 s.cfg.retryMax s.xo)
      ((synth_result _ _ _ _).imp_right .inl)
      (synth_keeps (fun _ h => h.draw (List.mem_singleton_self e)) _ _ _ (.refl _ _)) (by simp [sources, exec, execFlt32X])
  | flt64X rd e =>
    exact onXo_finishXo (List.mem_singleton_self e) rfl (fun s => synth (xoDraw e) float64 s.cfg.retryMax s.xo)
      ((synth_result _ _ _ _).imp_right .inl)
      (synth_keeps (fun _ h => h.draw (List.mem_singleton_self e)) _ _ _ (.refl _ _)) (by simp [sources, exec, execFlt64X])
  | flt64PP rd e f =>
    refine onPcg_next (e := e) (List.mem_cons_self ..) cores_present_pcg rfl fun h => ?_
    refine onPcg_finishPcg (e := f) (List.mem_cons_of_mem _ (List.mem_singleton_self f)) rfl
      (fun s => synth (pcgPairDraw e f) float64 s.cfg.retryMax s.pcg) ((synth_result _ _ _ _).imp_right .inl)
      (synth_keeps (fun _ h => ?_) _ _ _ (.refl _ _)) (by simpa [sources] using h)
    exact (h.draw (List.mem_cons_self ..)).draw (List.mem_cons_of_mem _ (List.mem_singleton_self f))

end Sys2Proof.Machine
end

