-- ==== Sys2Proof/Laws/HostOps.lean ====
section
/-! SUPPORT. The host pseudo-operations: what a load of STATUS returns, that the engine's move always is a next state and
leaves BUSY = 0, that a command does not look at the turns, and that the turns of a WAIT make the run WAIT describes. -/

namespace Sys2Proof.Machine

open Sys2Proof.Spec

/-! ### Loads of STATUS -/

/-- The bytes of a 64-bit register from byte `k` on, low byte first, are the register's bits from 8k on (R84). -/
theorem apertureBytes_from {s : State} {off : Nat} (w : Word64) (h : ∀ k < 8, apertureByte s (off + k) = byteOf w k)
    (m : Nat) : ∀ k, k + m = 8 → apertureBytes s (off + k) m = w.toNat / 2 ^ (8 * k) := by
  induction m with
  | zero =>
    rintro k rfl
    exact (Nat.div_eq_of_lt w.isLt).symm
  | succ m ih =>
    intro k hk
    rw [apertureBytes, h k (by omega), add_assoc, ih (k + 1) (by omega), byteOf, BitVec.extractLsb'_toNat,
      Nat.shiftRight_eq_div_pow, show 8 * (k + 1) = 8 * k + 8 by ring, pow_add, ← Nat.div_div_eq_div_mul]
    exact Nat.mod_add_div _ _

/-- A load of STATUS returns STATUS and has no effect (R50, R90). -/
theorem load_status (s : State) : s.load 0x018 8 = (s.statusWord.toNat, s) := by
  unfold State.load
  rw [locate_status]
  refine Prod.ext ((apertureBytes_from s.statusWord (fun k hk => ?_) 8 0 rfl).trans (Nat.div_one _)) rfl
  interval_cases k <;> rfl

@[simp] theorem memRead_status (s : State) :
    s.memRead 0x018 8 = (s.statusWord.toNat, s.record (hostPoll s.cfg) (.loaded s.statusWord.toNat)) := by
  rw [State.memRead, access_load (by omega) (.inr rfl) (by omega), load_status, hostPoll]

/-- STATUS[0] is BUSY (R50). -/
theorem waitEnds_status (s : State) : waitEnds s.statusWord.toNat = !s.busy := by
  rw [waitEnds, BitVec.testBit_toNat, State.statusWord, BitVec.getLsbD_append]
  simp

/-! ### The engine's move -/

/-- The engine's step always is a next state, with BUSY = 0 (R320, R321). -/
theorem engineStep_next (s : State) : ∃ t, engineStep s = .next t ∧ t.busy = false ∧ t.cfg = s.cfg := by
  rcases engineStep_cases s with ⟨w, -, e⟩ | ⟨i, -, e⟩
  · exact ⟨_, e, rfl, rfl⟩
  · obtain ⟨m, p, x, -, hN⟩ := exec_form i s
    cases hN with
    | error c k eq => exact ⟨_, e.trans eq, rfl, rfl⟩
    | plain eq => exact ⟨_, e.trans eq, rfl, rfl⟩
    | write rd v h eq => exact ⟨_, e.trans eq, rfl, rfl⟩

theorem engineMove_of_idle {s : State} (h : s.busy = false) : s.engineMove = s := by
  simp [State.engineMove, h]

/-- While BUSY = 1 the engine's move is its completion step. -/
theorem engineStep_eq {s : State} (h : s.busy = true) : engineStep s = .next s.engineMove := by
  obtain ⟨t, e, -⟩ := engineStep_next s
  simp [State.engineMove, h, e]

@[simp] theorem engineMove_busy (s : State) : s.engineMove.busy = false := by
  cases h : s.busy
  · rw [engineMove_of_idle h, h]
  · obtain ⟨t, e, hb, -⟩ := engineStep_next s
    rwa [← (Host.Outcome.next.inj (e.symm.trans (engineStep_eq h)))]

@[simp] theorem engineMove_cfg (s : State) : s.engineMove.cfg = s.cfg := by
  cases h : s.busy
  · rw [engineMove_of_idle h]
  · obtain ⟨t, e, -, hc⟩ := engineStep_next s
    rwa [← (Host.Outcome.next.inj (e.symm.trans (engineStep_eq h)))]

/-! ### The turns of a WAIT -/

/-- A command neither looks at the turns nor changes them. -/
theorem exec_turns {i : Instr} {s t : State} (ts : List Turn) (h : exec i s = .next t) :
    exec i { s with turns := ts } = .next { t with turns := ts } := by
  have hv : ∀ r, ({ s with turns := ts } : State).val r = s.val r := fun _ => rfl
  cases i <;>
    simp only [exec, execResidue, execModpow, execJacobi, execMr2, execPcgSeed, execPcgDflt, execPcgNext, execPcgBnd32,
      execXoSeed, execXoDflt, execXoNext, execXoBnd64, execXoBnd32, execFlt32P, execFlt32X, execFlt64X, execFlt64PP,
      Host.Outcome.next.injEq] at h ⊢ <;>
    subst h <;>
    simp only [hv, State.onPcg, State.onXo, State.finishPcg, State.finishXo, State.finish]
  all_goals (repeat' split)
  all_goals rfl

theorem engineStep_turns {s t : State} (ts : List Turn) (h : engineStep s = .next t) :
    engineStep { s with turns := ts } = .next { t with turns := ts } := by
  unfold engineStep at h ⊢
  dsimp only
  split at h
  · cases h
    rfl
  · exact exec_turns ts h

theorem engineMove_turns (s : State) (ts : List Turn) :
    State.engineMove { s with turns := ts } = { s.engineMove with turns := ts } := by
  by_cases h : s.busy = true
  · exact Host.Outcome.next.inj ((engineStep_eq (s := { s with turns := ts }) h).symm.trans
      (engineStep_turns ts (engineStep_eq h)))
  · rw [engineMove_of_idle (s := s) (by simpa using h), engineMove_of_idle (by simpa using h)]

/-- The step on an engine turn is the engine's move (R30). -/
theorem step_engine_turn {s : State} {rest : List Turn} (h : s.turns = .engine :: rest) :
    step s = .next { s.engineMove with turns := rest } := by
  rw [← engineMove_turns]
  unfold step
  rw [h]
  dsimp only
  split
  · rename_i hb
    exact engineStep_eq hb
  · rename_i hb
    rw [engineMove_of_idle (by simpa using hb)]

/-- The step on a poll's turn is the poll (R30, R144). -/
theorem step_poll_turn {s : State} {rest : List Turn} (h : s.turns = .host (hostPoll s.cfg) :: rest) :
    step s = .next { (s.memRead 0x018 8).2 with turns := rest } := by
  have hp := congrArg Prod.snd (memRead_status { s with turns := rest })
  rw [memRead_status]
  unfold step
  rw [h]
  exact congrArg Host.Outcome.next hp

/-- WAIT polls on while BUSY = 1 (R144). -/
theorem wait_succ (s : State) (n : Nat) : s.wait (n + 1) =
    if s.busy then State.wait n (s.memRead 0x018 8).2 else s.memRead 0x018 8 := by
  rw [State.wait, memRead_status, waitEnds_status]
  cases s.busy <;> rfl

/-- WAIT neither looks at the turns nor changes them. -/
theorem wait_turns (s : State) (n : Nat) (ts : List Turn) :
    (State.wait n { s with turns := ts }) = ((s.wait n).1, { (s.wait n).2 with turns := ts }) := by
  induction n generalizing s with
  | zero =>
    simp only [State.wait, engineMove_turns, memRead_status]
    rfl
  | succ n ih =>
    simp only [wait_succ, memRead_status]
    split
    · exact ih (s.record (hostPoll s.cfg) (.loaded s.statusWord.toNat))
    · rfl

/-- The turns of a WAIT, made while BUSY = 1, are the run that WAIT describes, with its number of polls (R144, R329). -/
theorem runs_hostWait {s : State} {polls : Nat} {rest : List Turn} (hb : s.busy = true)
    (h : s.turns = hostWait s.cfg polls ++ rest) :
    core.run (polls + 2) s = .next { (s.wait polls).2 with turns := rest } := by
  induction polls generalizing s with
  | zero =>
    have h1 := step_engine_turn (rest := .host (hostPoll s.cfg) :: rest) h
    have h2 := step_poll_turn (s := { s.engineMove with turns := .host (hostPoll s.cfg) :: rest }) (rest := rest) (by simp)
    rw [memRead_status] at h2
    simp only [Host.Core.run, core, h1, h2, State.wait, memRead_status]
    rfl
  | succ polls ih =>
    have h1 := step_poll_turn (rest := hostWait s.cfg polls ++ rest) h
    have h2 := ih (s := { (s.memRead 0x018 8).2 with turns := hostWait s.cfg polls ++ rest }) (by simpa using hb) (by simp)
    rw [wait_turns] at h2
    rw [wait_succ, if_pos hb, show polls + 1 + 2 = (polls + 2) + 1 by rfl]
    exact (by simp only [Host.Core.run, core, h1] : _ = _).trans h2

end Sys2Proof.Machine
end

