-- ==== Sys2Proof/Laws/Inv.lean ====
section
/-! SUPPORT. The legality of a state (`State.Inv`), operation by operation. -/

namespace Sys2Proof.Machine

/-- Legality looks at no other field than these. -/
theorem State.Inv.congr {s t : State} (h : s.Inv) (hc : t.cfg = s.cfg) (hx : ∀ i : RegId, t.x[i].length = s.x[i].length)
    (hp : t.pcg = s.pcg) (ho : t.xo = s.xo) (hec : t.errcode = s.errcode) (he : t.err = s.err) (hb : t.busy = s.busy)
    (hd : t.done = s.done) (hpend : t.pending = s.pending) (hl : t.lastcmd = s.lastcmd) : t.Inv := by
  obtain ⟨a, b, c, d, e, f, g, i, j⟩ := h
  refine ⟨?_, fun i => ?_, ?_, ?_, ?_, ?_, ?_, ?_, ?_⟩ <;> simp_all

theorem State.Inv.withTurns {s : State} (h : s.Inv) (ts : List Turn) : State.Inv { s with turns := ts } :=
  h.congr rfl (fun _ => rfl) rfl rfl rfl rfl rfl rfl rfl rfl

/-- A reset to legal parameters is legal (R370). -/
theorem State.resetWith_inv {p : Params} (hp : p.legal = true) : (State.resetWith p).Inv := by
  refine ⟨hp, fun i => by simp [State.resetWith, OpReg.reset], by simp [State.resetWith], by simp [State.resetWith], ?_,
    by simp [State.resetWith], by simp [State.resetWith], fun h => ?_, fun h => ?_⟩
  · intro c hc
    rw [List.eq_of_mem_replicate hc]
    simp only [Params.legal, Bool.and_eq_true] at hp
    exact hp.1.1.2
  · cases h
  · cases h

/-- A command keeps a state legal. -/
theorem State.Inv.exec {i : Instr} {s t : State} (hI : s.Inv) (h : exec i s = .next t) : t.Inv := by
  obtain ⟨mark, pcg, xo, hE, hN⟩ := exec_form i s
  have hinc : ∀ c ∈ pcg, c.pi.getLsbD 0 = true := by
    intro c hc
    rcases hE.inc c hc with ⟨d, hd, e⟩ | e | e
    · rw [e]
      exact hI.incOdd d hd
    · have := hI.cfgLegal
      simp only [Params.legal, Bool.and_eq_true] at this
      rw [e]
      exact this.1.1.2
    · exact e
  have hp := hE.pcgLength.trans hI.pcgLength
  have ho := hE.xoLength.trans hI.xoLength
  have hno : ∀ P : Prop, false = true → P := fun P h => by cases h
  cases hN with
  | error e k eq =>
    rw [eq] at h
    cases h
    exact ⟨hI.cfgLegal, hI.regLength, hp, ho, hinc, by cases e <;> simp [ErrCode.code], by cases e <;> simp [ErrCode.code],
      hno _, hno _⟩
  | plain eq =>
    rw [eq] at h
    cases h
    exact ⟨hI.cfgLegal, hI.regLength, hp, ho, hinc, by simp, by simp, hno _, hno _⟩
  | write rd v hd eq =>
    rw [eq] at h
    cases h
    refine ⟨hI.cfgLegal, fun j => ?_, hp, ho, hinc, by simp, by simp, hno _, hno _⟩
    by_cases hj : rd = j
    · subst hj
      rw [State.complete_x, State.writeReg_get_self, regOfInt_length]
      rfl
    · rw [State.complete_x, State.writeReg_get_ne _ hj]
      exact hI.regLength j

/-- An ILLEGAL completion keeps a state legal. -/
theorem State.Inv.errorCompletion {s : State} (hI : s.Inv) (e : ErrCode) : (s.errorCompletion e).Inv := by
  obtain ⟨a, b, c, d, e', -, -, -, -⟩ := hI
  refine ⟨a, b, c, d, e', by cases e <;> simp [ErrCode.code], by cases e <;> simp [ErrCode.code], fun h => ?_, fun h => ?_⟩ <;>
    cases h

/-- A legal store keeps a state legal. -/
theorem State.Inv.store {s : State} (hI : s.Inv) (off n v : Nat) : (s.store off n v).Inv := by
  rcases store_cases s off n v with ⟨-, e⟩ | ⟨-, e⟩ | ⟨-, e⟩ | ⟨i, k, -, e⟩ | e <;> rw [e]
  · cases hb : s.busy
    · rw [State.issue_of_idle hb]
      exact ⟨hI.cfgLegal, hI.regLength, hI.pcgLength, hI.xoLength, hI.incOdd, by simp [State.accept], by simp [State.accept],
        by simp [State.accept], by simp [State.accept]⟩
    · rw [State.issue_of_busy hb]
      exact hI.congr rfl (fun _ => rfl) rfl rfl rfl rfl rfl rfl rfl rfl
  · obtain ⟨a, b, c, d, e, f, g, i, j⟩ := hI
    refine ⟨a, b, c, d, e, ?_, ?_, fun h => ?_, j⟩
    · rw [State.storeStatus_errcode]
      split
      · decide
      · exact f
    · simp only [State.storeStatus_err, State.storeStatus_errcode]
      cases v.testBit 2 <;> simp_all
    · have := i h
      simp_all
  · unfold State.storeCtrl
    split
    · obtain ⟨a, b, c, d, e, f, g, i, j⟩ := State.resetWith_inv hI.cfgLegal
      exact ⟨a, hI.regLength, c, d, e, f, g, i, j⟩
    · exact hI.congr rfl (fun _ => rfl) rfl rfl rfl rfl rfl rfl rfl rfl
  · unfold State.storeWindow
    split
    · exact hI.congr rfl (fun _ => rfl) rfl rfl rfl rfl rfl rfl rfl rfl
    · refine hI.congr rfl (fun j => ?_) rfl rfl rfl rfl rfl rfl rfl rfl
      by_cases h : i = j
      · subst h
        simp
      · have h' : i.val ≠ j.val := fun e => h (Fin.ext e)
        simp [Vector.getElem_set_ne _ _ h']
  · exact hI

/-- A host access keeps a state legal. -/
theorem State.Inv.access {s : State} (hI : s.Inv) (a : Access) : (s.access a).Inv := by
  rcases access_cases s a with ⟨r, e⟩ | ⟨n, r, e⟩ | ⟨off, n, r, -, -, -, -, e⟩ | ⟨off, n, v, r, -, -, -, -, e⟩ <;> rw [e]
  · exact hI.congr rfl (fun _ => rfl) rfl rfl rfl rfl rfl rfl rfl rfl
  · exact hI.congr rfl (fun _ => rfl) rfl rfl rfl rfl rfl rfl rfl rfl
  · rcases load_cases s off n with ⟨i, k, -, -, e⟩ | ⟨m, e⟩ <;> rw [e]
    · exact hI.congr rfl (fun _ => rfl) rfl rfl rfl rfl rfl rfl rfl rfl
    · exact hI.congr rfl (fun _ => rfl) rfl rfl rfl rfl rfl rfl rfl rfl
  · exact (hI.store off n v).congr rfl (fun _ => rfl) rfl rfl rfl rfl rfl rfl rfl rfl

end Sys2Proof.Machine
end

