-- ==== Sys2Proof/Laws/PerInstr.lean ====
section
/-! SUPPORT. The per-instruction family RowMatch: the word of a command matches its row of the opcode map (R125), and the
row builds the command back from the word's fields. -/

namespace Sys2Proof.Laws.RowMatch

/-- Some row of the opcode map matches the command's word and reads the command back from it. -/
def Statement (i : Instr) : Prop :=
  ∃ (k : Nat) (r : Row), opcodeMap[k]? = some r ∧ encode i &&& r.mask = r.pat ∧ r.build (encode i) = i

theorem residue (rd ra rb : RegId) : Statement (.residue rd ra rb) := by
  refine ⟨0, _, rfl, ?_⟩
  revert rd ra rb
  decide +kernel

theorem modpow (rd ra rb rc : RegId) : Statement (.modpow rd ra rb rc) := by
  refine ⟨1, _, rfl, ?_⟩
  revert rd ra rb rc
  decide +kernel

theorem jacobi (rd ra rb : RegId) : Statement (.jacobi rd ra rb) := by
  refine ⟨2, _, rfl, ?_⟩
  revert rd ra rb
  decide +kernel

theorem mr2 (rd ra : RegId) : Statement (.mr2 rd ra) := by
  refine ⟨3, _, rfl, ?_⟩
  revert rd ra
  decide +kernel

theorem pcgSeed (e : CoreId) (ra : RegId) : Statement (.pcgSeed e ra) := by
  refine ⟨4, _, rfl, ?_⟩
  revert e ra
  decide +kernel

theorem pcgDflt (e : CoreId) : Statement (.pcgDflt e) := by
  refine ⟨5, _, rfl, ?_⟩
  revert e
  decide +kernel

theorem pcgNext (rd : RegId) (e : CoreId) : Statement (.pcgNext rd e) := by
  refine ⟨6, _, rfl, ?_⟩
  revert rd e
  decide +kernel

theorem pcgBnd32 (rd : RegId) (e : CoreId) (ra : RegId) : Statement (.pcgBnd32 rd e ra) := by
  refine ⟨7, _, rfl, ?_⟩
  revert rd e ra
  decide +kernel

theorem xoSeed (e : CoreId) (ra : RegId) : Statement (.xoSeed e ra) := by
  refine ⟨8, _, rfl, ?_⟩
  revert e ra
  decide +kernel

theorem xoDflt (e : CoreId) : Statement (.xoDflt e) := by
  refine ⟨9, _, rfl, ?_⟩
  revert e
  decide +kernel

theorem xoNext (rd : RegId) (e : CoreId) : Statement (.xoNext rd e) := by
  refine ⟨10, _, rfl, ?_⟩
  revert rd e
  decide +kernel

theorem xoBnd64 (rd : RegId) (e : CoreId) (ra : RegId) : Statement (.xoBnd64 rd e ra) := by
  refine ⟨11, _, rfl, ?_⟩
  revert rd e ra
  decide +kernel

theorem xoBnd32 (rd : RegId) (e : CoreId) (ra : RegId) : Statement (.xoBnd32 rd e ra) := by
  refine ⟨12, _, rfl, ?_⟩
  revert rd e ra
  decide +kernel

theorem flt32P (rd : RegId) (e : CoreId) : Statement (.flt32P rd e) := by
  refine ⟨13, _, rfl, ?_⟩
  revert rd e
  decide +kernel

theorem flt32X (rd : RegId) (e : CoreId) : Statement (.flt32X rd e) := by
  refine ⟨14, _, rfl, ?_⟩
  revert rd e
  decide +kernel

theorem flt64X (rd : RegId) (e : CoreId) : Statement (.flt64X rd e) := by
  refine ⟨15, _, rfl, ?_⟩
  revert rd e
  decide +kernel

theorem flt64PP (rd : RegId) (e f : CoreId) : Statement (.flt64PP rd e f) := by
  refine ⟨16, _, rfl, ?_⟩
  revert rd e f
  decide +kernel

end Sys2Proof.Laws.RowMatch
end

