-- ==== Sys2Proof/Laws/Results.lean ====
section
/-! SUPPORT. What the result of a command comes to: a value written is held, a small value fits every legal operand width,
a source moves along its core's iterates, and the value of MR2 (R201). -/

namespace Sys2Proof.Machine

open Sys2Proof.Spec

/-! ### The end of a command -/

theorem finish_succeeded (s : State) (rd : RegId) (v : Int) : Succeeded (s.finish rd (.ok v)) := ⟨rfl, rfl, rfl, rfl⟩

/-- A value that fits OPW bits is held by the destination (R16, R17, R34). -/
theorem finish_holds {s : State} {rd : RegId} {v : Int} (hl : s.cfg.legal = true) (h1 : -2 ^ (s.cfg.opw - 1) ≤ v)
    (h2 : v < 2 ^ (s.cfg.opw - 1)) : Holds (s.finish rd (.ok v)) rd v := by
  obtain ⟨hd, hm, -⟩ := Params.legal_opw hl
  refine ⟨State.val_writeReg_self s rd ((by norm_num : 32 ∣ 64).trans hd) (by omega) h1 h2, ?_⟩
  show regWritten (s.writeReg rd v).x[rd] = true
  rw [State.writeReg_get_self]
  exact regWritten_regOfInt _ _

theorem finish_failed (s : State) (rs : List RegId) (rd : RegId) (e : ErrCode) :
    FailedWith e.code s ((s.readSources rs).finish rd (.error e)) := rfl

/-- Values from −1 to 2^64 − 1 fit every legal OPW (00_scope.md R7). -/
theorem small_fits {p : Params} (hl : p.legal = true) {v : Int} (h0 : -1 ≤ v) (h1 : v < 2 ^ 64) :
    -2 ^ (p.opw - 1) ≤ v ∧ v < 2 ^ (p.opw - 1) := by
  obtain ⟨hd, hm, -⟩ := Params.legal_opw hl
  have : (2 : Int) ^ 64 ≤ 2 ^ (p.opw - 1) := pow_le_pow_right₀ (by norm_num) (by omega)
  constructor <;> omega

/-- A register of a legal state holds an OPW-bit value. -/
theorem val_bounds {s : State} (h : s.Inv) (r : RegId) :
    -2 ^ (s.cfg.opw - 1) ≤ s.val r ∧ s.val r < 2 ^ (s.cfg.opw - 1) := by
  obtain ⟨hd, hm, -⟩ := Params.legal_opw h.cfgLegal
  have := regUint_lt s.x[r]
  rw [h.regLength, Nat.mul_div_cancel' ((by norm_num : 32 ∣ 64).trans hd)] at this
  exact sintOf_bounds (by omega) this

/-! ### A core as a source -/

theorem set_of_get {α : Type} {cs : List α} {k : Nat} {c : α} (h : cs[k]? = some c) : cs.set k c = cs := by
  obtain ⟨hk, rfl⟩ := List.getElem?_eq_some_iff.mp h
  simp

/-- Draws on core `e` walk along the iterates of its step. -/
theorem pcgDraw_iterate {cs : List PcgCore} {e : CoreId} {c : PcgCore} (h : cs[e.val]? = some c) (j : Nat) :
    pcgDraw e (cs.set e.val (PcgCore.step^[j] c)) =
      ((PcgCore.step^[j] c).output.toNat, cs.set e.val (PcgCore.step^[j + 1] c)) := by
  obtain ⟨hk, -⟩ := List.getElem?_eq_some_iff.mp h
  rw [pcgDraw_of_get (List.getElem?_set_self hk), List.set_set, Function.iterate_succ_apply']

/-- Draws on core `e` walk along the iterates of its step. -/
theorem xoDraw_iterate {cs : List XoCore} {e : CoreId} {c : XoCore} (h : cs[e.val]? = some c) (j : Nat) :
    xoDraw e (cs.set e.val (Machine.xoStep^[j] c)) =
      ((Machine.xoOutput (Machine.xoStep^[j] c)).toNat, cs.set e.val (Machine.xoStep^[j + 1] c)) := by
  obtain ⟨hk, -⟩ := List.getElem?_eq_some_iff.mp h
  rw [xoDraw_of_get (List.getElem?_set_self hk), List.set_set, Function.iterate_succ_apply']

/-! ### MR2 -/

/-- The rounds find n − 1 among the repeated squares of y, if it is there (R201). -/
theorem mr2Rounds_spec {n : Nat} (hn : 3 ≤ n) (k y : Nat) (hy : y < n) :
    (mr2Rounds n k y = 1 ↔ ∃ i < k, y ^ (2 ^ i) % n = n - 1) ∧ (mr2Rounds n k y = 0 ∨ mr2Rounds n k y = 1) := by
  induction k generalizing y with
  | zero => simp [mr2Rounds]
  | succ k ih =>
    rw [mr2Rounds]
    split
    · rename_i h
      refine ⟨⟨fun _ => ⟨0, by omega, ?_⟩, fun _ => rfl⟩, .inr rfl⟩
      rw [pow_zero, pow_one, Nat.mod_eq_of_lt hy, h]
    · rename_i h
      obtain ⟨h1, h2⟩ := ih (y * y % n) (Nat.mod_lt _ (by omega))
      refine ⟨h1.trans ⟨?_, ?_⟩, h2⟩
      · rintro ⟨i, hi, he⟩
        refine ⟨i + 1, by omega, ?_⟩
        rw [← he, ← Nat.pow_mod, pow_succ', pow_mul, pow_two]
      · rintro ⟨i, hi, he⟩
        rcases i with _ | i
        · rw [pow_zero, pow_one, Nat.mod_eq_of_lt hy] at he
          omega
        · refine ⟨i, by omega, ?_⟩
          rw [← Nat.pow_mod, ← he, pow_succ' 2 i, pow_mul, pow_two]

/-- `mr2(n)` for odd n ≥ 3 with n − 1 = d·2^k, d odd (R201). -/
theorem mr2_spec {n : Int} (h3 : 3 ≤ n) (ho : n % 2 = 1) {d k : Nat} (hd : d % 2 = 1) (he : n - 1 = d * 2 ^ k) :
    ∃ v, mr2 n = .ok v ∧ (v = 0 ∨ v = 1) ∧
      (v = 1 ↔ (2 : Int) ^ d % n = 1 ∨ ∃ i < k, (2 : Int) ^ (d * 2 ^ i) % n = n - 1) := by
  obtain ⟨m, rfl⟩ : ∃ m : Nat, n = m := ⟨n.toNat, by omega⟩
  have hm : m - 1 = d * 2 ^ k := by
    zify
    rw [Nat.cast_sub (by omega)]
    exact_mod_cast he
  have hk : ctz (m - 1) = k := by
    rw [ctz_eq (by omega), hm, padicValNat.mul (by omega) (by positivity), padicValNat.prime_pow,
      padicValNat.eq_zero_of_not_dvd (by omega), zero_add]
  have hdd : (m - 1) / 2 ^ k = d := by rw [hm, Nat.mul_div_cancel _ (by positivity)]
  unfold mr2
  rw [if_neg (by omega), if_neg (by omega), show ((m : Int) - 1).toNat = m - 1 by omega]
  dsimp only
  rw [hk, hdd, modpow_eq (by omega) (by omega)]
  refine ⟨_, rfl, ?_⟩
  have hc : ((2 : Int) ^ (d : Int).toNat % (m : Int)) = ((2 ^ d % m : Nat) : Int) := by
    push_cast
    simp
  rw [hc, Int.toNat_natCast, Int.toNat_natCast]
  obtain ⟨r1, r2⟩ := mr2Rounds_spec (n := m) (by omega) k (2 ^ d % m) (Nat.mod_lt _ (by omega))
  have hp : ∀ i, (2 : Int) ^ (d * 2 ^ i) % (m : Int) = (m : Int) - 1 ↔ (2 ^ d % m) ^ 2 ^ i % m = m - 1 := by
    intro i
    rw [← Nat.pow_mod, ← pow_mul]
    zify
    rw [Nat.cast_sub (by omega)]
    simp
  have hd' : (2 : Int) ^ d % (m : Int) = 1 ↔ 2 ^ d % m = 1 := by zify
  simp only [hp, hd']
  split
  · rename_i h
    have : 2 ^ d % m = 1 := by exact_mod_cast h
    simp [this]
  · rename_i h
    have : ¬2 ^ d % m = 1 := by exact_mod_cast h
    simp only [this, false_or]
    exact ⟨r2, r1⟩

end Sys2Proof.Machine
end

