-- ==== Sys2Proof/Machine/Asm.lean ====
section
/-! DEFINITION. The assembler (30_encoding.md section 5): a command line's operands (R140), the command each line spells
(R141), the aliases (R142), and the host store a line stands for (R140). Spaces and tabs separate; log entry 23. -/

namespace Sys2Proof.Machine

/-- An operand as it is written (R140, R141): `x3`, `p0`, `o0`, and the pair `p0:p1` of FLT64.PP. -/
inductive AsmOperand where
  | x (n : RegId)
  | p (e : CoreId)
  | o (e : CoreId)
  | pair (e f : CoreId)
deriving DecidableEq, Repr

/-- The command a mnemonic, in upper case, spells with its operands (R141, R142); none where an operand's kind or the
number of operands does not match. -/
def asmInstr (mnemonic : String) (ops : List AsmOperand) : Option Instr :=
  match mnemonic, ops with
  | "RESIDUE", [.x d, .x a, .x b] => some (.residue d a b)
  | "MODPOW", [.x d, .x a, .x b, .x c] => some (.modpow d a b c)
  | "JACOBI", [.x d, .x a, .x b] => some (.jacobi d a b)
  | "MR2", [.x d, .x a] => some (.mr2 d a)
  | "PCG.SEED", [.p e, .x a] => some (.pcgSeed e a)
  | "PCG.DFLT", [.p e] => some (.pcgDflt e)
  | "PCG.NEXT", [.x d, .p e] => some (.pcgNext d e)
  | "PCG.BND32", [.x d, .p e, .x a] => some (.pcgBnd32 d e a)
  | "XO.SEED", [.o e, .x a] => some (.xoSeed e a)
  | "XO.DFLT", [.o e] => some (.xoDflt e)
  | "XO.NEXT", [.x d, .o e] => some (.xoNext d e)
  | "XO.BND64", [.x d, .o e, .x a] => some (.xoBnd64 d e a)
  | "XO.BND32", [.x d, .o e, .x a] => some (.xoBnd32 d e a)
  | "FLT32.P", [.x d, .p e] => some (.flt32P d e)
  | "FLT32.X", [.x d, .o e] => some (.flt32X d e)
  | "FLT64.X", [.x d, .o e] => some (.flt64X d e)
  | "FLT64.PP", [.x d, .pair e f] => some (.flt64PP d e f)
  | "FLT32", [.x d, .p e] => some (.flt32P d e)
  | "FLT32", [.x d, .o e] => some (.flt32X d e)
  | "FLT64", [.x d, .o e] => some (.flt64X d e)
  | "FLT64", [.x d, .pair e f] => some (.flt64PP d e f)
  | "FLT64", [.x d, .p e] => some (.flt64PP d e e)
  | _, _ => none

/-- A digit 0..7. -/
def asmDigit (c : Char) : Option (Fin 8) :=
  if h : '0'.toNat ≤ c.toNat ∧ c.toNat < '0'.toNat + 8 then some ⟨c.toNat - '0'.toNat, Nat.sub_lt_left_of_lt_add h.1 h.2⟩
  else none

/-- One operand's characters. -/
def asmOperand : List Char → Option AsmOperand
  | ['x', c] => (asmDigit c).map .x
  | ['p', c] => (asmDigit c).map .p
  | ['o', c] => (asmDigit c).map .o
  | ['p', c, ':', 'p', d] => (asmDigit c).bind fun e => (asmDigit d).map (.pair e)
  | _ => none

/-- A space or a tab. -/
def asmBlank (c : Char) : Bool := c == ' ' || c == '\t'

/-- The pieces of a text between commas. -/
def asmPieces : List Char → List (List Char)
  | [] => [[]]
  | c :: cs =>
    if c = ',' then [] :: asmPieces cs
    else match asmPieces cs with
      | [] => [[c]]
      | p :: ps => (c :: p) :: ps

/-- The command a line spells: the comment from `;` on is dropped, the mnemonic is case-insensitive, and the operands
are separated by commas (R140). -/
def assemble (line : String) : Option Instr :=
  let text := (line.toList.takeWhile (· != ';')).dropWhile asmBlank
  let mnemonic := (text.takeWhile fun c => !asmBlank c).map Char.toUpper
  let rest := (text.dropWhile fun c => !asmBlank c).filter fun c => !asmBlank c
  ((asmPieces rest).mapM asmOperand).bind (asmInstr (String.ofList mnemonic))

/-- The host store a command line stands for (R140). -/
def assembleStore (p : Params) (line : String) : Option Access :=
  (assemble line).map fun i => hostIssue p (encode i)

end Sys2Proof.Machine
end

