-- ==== Sys2Proof/Tests/Slice0.lean ====
section
/-! SUPPORT. Tests. Expected values come from spec/95_test_vectors.md (sections 1 and 2), from the spec's encodings written
out bit by bit, or from the rules named; the machine under test has OPW = 256, two PCG cores and one Xoshiro core. The
last part holds the witnesses: for each statement, values that meet its hypotheses, clause by clause. -/

namespace Sys2Proof.Tests

-- One theorem after another: the kernel checks of many small theorems at once take a thread each.
set_option Elab.async false

open Sys2Proof.Machine Sys2Proof.Spec

/-! ### Helpers -/

def params (retryMax : Nat) : Params := ⟨256, 2, 1, .binary, retryMax, 1, 1, ⟨1, 2, 3, 4⟩, 0x40000000⟩

def fresh : State := State.resetWith (params 4)

/-- X0, X1 and X2 written. -/
def given (a b c : Int) : State := ((fresh.writeReg 0 a).writeReg 1 b).writeReg 2 c

def onCores (retryMax : Nat) (c d : PcgCore) (x : XoCore) : State :=
  { State.resetWith (params retryMax) with pcg := [c, d], xo := [x] }

/-- The PCG core V-PCG-1 seeds. -/
def demo : PcgCore := ⟨0x185706B82C2E03F8, 0x6D⟩

/-- X`r` and STATUS after a command. -/
def outcome (i : Instr) (s : State) (r : RegId) : Option (Int × Nat) :=
  match exec i s with
  | .next t => some (t.val r, t.statusWord.toNat)
  | _ => none

/-- The cores and STATUS after a command. -/
def coresAfter (i : Instr) (s : State) : Option (List PcgCore × List XoCore × Nat) :=
  match exec i s with
  | .next t => some (t.pcg, t.xo, t.statusWord.toNat)
  | _ => none

/-! ### Well-formedness: an ill-formed term for each check (R128, R80, R89, 00_scope.md section 3) -/

theorem test_pcg_core_absent : (Instr.pcgNext 0 2).coresPresent 2 1 = false := by decide
theorem test_xo_core_absent : (Instr.xoNext 0 1).coresPresent 2 1 = false := by decide
theorem test_pair_first_absent : (Instr.flt64PP 1 2 1).coresPresent 2 1 = false := by decide
theorem test_pair_second_absent : (Instr.flt64PP 1 1 2).coresPresent 2 1 = false := by decide
theorem test_legal_params : (params 4).legal = true := by decide
theorem test_illegal_opw : { params 4 with opw := 300 }.legal = false := by decide
theorem test_illegal_npcg : { params 4 with npcg := 9 }.legal = false := by decide
theorem test_illegal_nxo : { params 4 with nxo := 0 }.legal = false := by decide
theorem test_illegal_retry : (params 0).legal = false := by decide
theorem test_illegal_retry_large : (params (2 ^ 24)).legal = false := by decide
theorem test_illegal_inc : { params 4 with pcgDefInc := 2 }.legal = false := by decide
theorem test_illegal_xo_default : { params 4 with xoDef := ⟨0, 0, 0, 0⟩ }.legal = false := by decide
theorem test_illegal_abase : { params 4 with abase := 0x1000 }.legal = false := by decide
theorem test_access_size : legalAccess 0 2 = false := by decide
theorem test_access_alignment : legalAccess 4 8 = false := by decide
theorem test_store_too_wide : (Access.store 0 4 (2 ^ 32)).fits = false := by decide

/-! ### Decoding: words from the fields of R121, top down OP RD RA RB RC E F S Z -/

theorem test_decode_residue : decodeTableWord 32 0b000001_010_000_001_000_000_000_00_000000 = some (.residue 2 0 1) := by decide
theorem test_decode_modpow : decodeTableWord 32 0b000010_101_010_011_100_000_000_00_000000 = some (.modpow 5 2 3 4) := by decide
theorem test_decode_jacobi : decodeTableWord 32 0b000011_100_000_001_000_000_000_00_000000 = some (.jacobi 4 0 1) := by decide
theorem test_decode_mr2 : decodeTableWord 32 0b000100_101_000_000_000_000_000_00_000000 = some (.mr2 5 0) := by decide
theorem test_decode_pcgSeed : decodeTableWord 32 0b010000_000_100_000_000_001_000_00_000000 = some (.pcgSeed 1 4) := by decide
theorem test_decode_pcgDflt : decodeTableWord 32 0b010001_000_000_000_000_001_000_00_000000 = some (.pcgDflt 1) := by decide
theorem test_decode_pcgNext : decodeTableWord 32 0b010010_010_000_000_000_001_000_00_000000 = some (.pcgNext 2 1) := by decide
theorem test_decode_pcgBnd32 : decodeTableWord 32 0b010011_010_011_000_000_000_000_00_000000 = some (.pcgBnd32 2 0 3) := by decide
theorem test_decode_xoSeed : decodeTableWord 32 0b011000_000_110_000_000_000_000_00_000000 = some (.xoSeed 0 6) := by decide
theorem test_decode_xoDflt : decodeTableWord 32 0b011001_000_000_000_000_000_000_00_000000 = some (.xoDflt 0) := by decide
theorem test_decode_xoNext : decodeTableWord 32 0b011010_110_000_000_000_000_000_00_000000 = some (.xoNext 6 0) := by decide
theorem test_decode_xoBnd64 : decodeTableWord 32 0b011011_111_101_000_000_000_000_00_000000 = some (.xoBnd64 7 0 5) := by decide
theorem test_decode_xoBnd32 : decodeTableWord 32 0b011100_111_101_000_000_000_000_00_000000 = some (.xoBnd32 7 0 5) := by decide
theorem test_decode_flt32P : decodeTableWord 32 0b100000_000_000_000_000_001_000_00_000000 = some (.flt32P 0 1) := by decide
theorem test_decode_flt32X : decodeTableWord 32 0b100000_011_000_000_000_000_000_01_000000 = some (.flt32X 3 0) := by decide
theorem test_decode_flt64X : decodeTableWord 32 0b100001_010_000_000_000_000_000_01_000000 = some (.flt64X 2 0) := by decide
theorem test_decode_flt64PP : decodeTableWord 32 0b100001_001_000_000_000_000_001_10_000000 = some (.flt64PP 1 0 1) := by decide
theorem test_decode_flt64PP_same : decodeTableWord 32 0x84800980 = some (.flt64PP 1 1 1) := by decide

/-- The illegal words of 95_test_vectors.md section 2.1. -/
theorem test_illegal_words :
    [0x00000000, 0x05020001, 0x05024000, 0x12820000, 0x14000000, 0x44100000, 0x60000800, 0x80000080, 0x800000C0,
      0x80001000, 0x84000000, 0x85000140, 0x84801180, 0x88000040, 0xFC000000].map (decodeTableWord 32) =
      List.replicate 15 none := by decide

/-- Two rows of the opcode map never match one word: they differ on a bit both fix. -/
theorem test_rows_disjoint :
    opcodeMap.Pairwise fun r q => r.pat &&& (r.mask &&& q.mask) ≠ q.pat &&& (r.mask &&& q.mask) := by decide +kernel

/-- The operand text of R141, with a comment and mixed case (R140). -/
theorem test_assemble : assemble "  flt64.pp x1, p0:p1 ; a pair" = some (.flt64PP 1 0 1) := by decide +kernel
theorem test_assemble_kind : assemble "XO.NEXT x1, p0" = none := by decide +kernel

/-! ### Commands -/

theorem test_residue : outcome (.residue 2 0 1) (given (-2 ^ 255) 97 0) 2 = some (18, 0x2) := by decide +kernel
theorem test_residue_zero_mod : outcome (.residue 0 0 1) (given 10 0 0) 0 = some (10, 0x26) := by decide +kernel
theorem test_modpow : outcome (.modpow 3 0 1 2) (given 4 13 497) 3 = some (445, 0x2) := by decide +kernel
theorem test_modpow_same_register : outcome (.modpow 0 0 0 0) (given 7 0 0) 0 = some (0, 0x2) := by decide +kernel
theorem test_jacobi : outcome (.jacobi 0 0 1) (given 1001 9907 0) 0 = some (-1, 0x2) := by decide +kernel
theorem test_jacobi_even : outcome (.jacobi 2 0 1) (given 3 8 5) 2 = some (5, 0x26) := by decide +kernel
theorem test_mr2_pseudoprime : outcome (.mr2 5 0) (given 2047 0 0) 5 = some (1, 0x2) := by decide +kernel
theorem test_mr2_composite : outcome (.mr2 0 0) (given 561 0 0) 0 = some (0, 0x2) := by decide +kernel

/-- V-PCG-1. -/
theorem test_pcgSeed : coresAfter (.pcgSeed 0 0) (given 0x36000000000000002A 0 0) =
    some ([demo, ⟨1, 1⟩], [⟨1, 2, 3, 4⟩], 0x2) := by decide +kernel
/-- V-PCG-8. -/
theorem test_pcgSeed_range : coresAfter (.pcgSeed 0 0) (given (2 ^ 128) 0 0) =
    some ([⟨1, 1⟩, ⟨1, 1⟩], [⟨1, 2, 3, 4⟩], 0x26) := by decide +kernel
theorem test_pcgDflt : coresAfter (.pcgDflt 1) (onCores 4 demo demo ⟨1, 2, 3, 4⟩) =
    some ([demo, ⟨1, 1⟩], [⟨1, 2, 3, 4⟩], 0x2) := by decide +kernel
theorem test_pcgNext : outcome (.pcgNext 2 0) (onCores 4 demo demo ⟨1, 2, 3, 4⟩) 2 = some (0xA15C02B7, 0x2) := by decide +kernel
/-- V-PCG-4. -/
theorem test_pcgNext_top : coresAfter (.pcgNext 2 1) (onCores 4 demo ⟨0x8000000000000000, 1⟩ ⟨1, 2, 3, 4⟩) =
    some ([demo, ⟨0x8000000000000001, 1⟩], [⟨1, 2, 3, 4⟩], 0x2) := by decide +kernel
/-- V-PCG-5. -/
theorem test_pcgBnd32 : outcome (.pcgBnd32 1 0 0) ({ given 6 0 0 with pcg := [demo, demo] }) 1 = some (3, 0x2) := by decide +kernel
/-- R224: a bound above 2^32 is refused and the core keeps its state. -/
theorem test_pcgBnd32_range : coresAfter (.pcgBnd32 1 0 0) ({ given (2 ^ 32 + 1) 0 0 with pcg := [demo, demo] }) =
    some ([demo, demo], [⟨1, 2, 3, 4⟩], 0x26) := by decide +kernel
/-- V-XO-1's seed. -/
theorem test_xoSeed : coresAfter (.xoSeed 0 0) (given (5 + 6 * 2 ^ 64 + 7 * 2 ^ 128 + 8 * 2 ^ 192) 0 0) =
    some ([⟨1, 1⟩, ⟨1, 1⟩], [⟨5, 6, 7, 8⟩], 0x2) := by decide +kernel
/-- V-XO-10. -/
theorem test_xoSeed_range : coresAfter (.xoSeed 0 0) (given (-1) 0 0) =
    some ([⟨1, 1⟩, ⟨1, 1⟩], [⟨1, 2, 3, 4⟩], 0x26) := by decide +kernel
theorem test_xoDflt : coresAfter (.xoDflt 0) (onCores 4 demo demo ⟨0, 0, 0, 0⟩) =
    some ([demo, demo], [⟨1, 2, 3, 4⟩], 0x2) := by decide +kernel
/-- V-XO-2. -/
theorem test_xoNext : outcome (.xoNext 2 0) fresh 2 = some (0x2800001, 0x2) := by decide +kernel
/-- V-XO-4, its first step. -/
theorem test_xoNext_state : coresAfter (.xoNext 2 0) fresh =
    some ([⟨1, 1⟩, ⟨1, 1⟩], [⟨7, 0, 0x40002, 0xC00000000000⟩], 0x2) := by decide +kernel
/-- V-XO-5. -/
theorem test_xoBnd64 : outcome (.xoBnd64 2 0 0) (given 10 0 0) 2 = some (1, 0x2) := by decide +kernel
/-- V-ST-4, V-XO-8. -/
theorem test_xoBnd64_exhausted : coresAfter (.xoBnd64 2 0 0) ({ given 3 0 0 with xo := [⟨0, 0, 0, 0⟩] }) =
    some ([⟨1, 1⟩, ⟨1, 1⟩], [⟨0, 0, 0, 0⟩], 0x36) := by decide +kernel
/-- V-XO-5. -/
theorem test_xoBnd32 : outcome (.xoBnd32 2 0 0) ({ given 7 0 0 with xo := [⟨7, 0, 0x40002, 0xC00000000000⟩] }) 2 =
    some (5, 0x2) := by decide +kernel
/-- V-XO-9. -/
theorem test_xoBnd32_range : outcome (.xoBnd32 2 0 0) (given (2 ^ 32 + 1) 0 9) 2 = some (9, 0x26) := by decide +kernel
theorem test_flt32P : outcome (.flt32P 2 0) (onCores 4 demo demo ⟨1, 2, 3, 4⟩) 2 = some (0x3F215C02, 0x2) := by decide +kernel
theorem test_flt32X : outcome (.flt32X 2 0) fresh 2 = some (0x24000000, 0x2) := by decide +kernel
theorem test_flt32X_zero_words : outcome (.flt32X 2 0) (onCores 4 demo demo ⟨0, 0, 0, 0⟩) 2 = some (0, 0x2) := by decide +kernel
theorem test_flt64X : outcome (.flt64X 2 0) fresh 2 = some (0x3FE0000000005000, 0x2) := by decide +kernel
theorem test_flt64PP : outcome (.flt64PP 2 0 1) (onCores 4 demo (pcgSeeded (7 + 9 * 2 ^ 64)) ⟨1, 2, 3, 4⟩) 2 =
    some (0x3FC42B8056E29794, 0x2) := by decide +kernel
theorem test_flt64PP_same_core : outcome (.flt64PP 2 0 0) (onCores 4 demo demo ⟨1, 2, 3, 4⟩) 2 =
    some (0x3FE42B8056EF68FE, 0x2) := by decide +kernel

/-! ### The host's side -/

/-- V-MEM-1. -/
theorem test_id : (fresh.load 0x000 8).1 = 0x0000000755464E4D := by decide +kernel
/-- V-MEM-2. -/
theorem test_cfg : (cfgWord Config.default).toNat = 0x000186A000121000 := by decide +kernel
/-- V-MEM-3, its half-word order. -/
theorem test_window_halves : ((given 0x0123456789ABCDEF 0 0).load 0x1004 4).1 = 0x01234567 := by decide +kernel
/-- V-ST-5. -/
theorem test_busy_issue : ((fresh.access (hostIssue fresh.cfg 0x05020000)).access (hostIssue fresh.cfg 0)).statusWord = 0x9 := by
  decide +kernel
/-- V-ST-3. -/
theorem test_illegal_status : (match step (fresh.withFetchWord 32 0) with
    | .next t => some (t.statusWord, t.lastcmd)
    | _ => none) = some (0x16, 0) := by decide +kernel
/-- V-ST-7. -/
theorem test_ctrl_reset : (fun t : State => (t.statusWord, t.ie, t.irq)) ((fresh.accept 0).storeCtrl 3) = (0, true, false) := by
  decide +kernel

/-- R144: WAIT of a RESIDUE polls twice with BUSY = 1, ends with DONE alone, and makes three loads. -/
theorem test_wait : (fun r : Nat × State => (r.1, r.2.history.length)) (((given 100 97 0).accept 0x05020000).wait 2) = (0x2, 3) := by
  decide +kernel
/-- R144: CALL of an illegal command takes the branch to `err`. -/
theorem test_call_error : callFailed (fresh.call (.pcgNext 1 5) 0).1 = true := by decide +kernel
/-- V-PCG-2, as a bulk generation (R145). -/
theorem test_pcgBulk : ((onCores 4 ⟨0x5851F42D4C957F2E, 1⟩ demo ⟨1, 2, 3, 4⟩).pcgBulk 2 0 [0, 2, 1]).1 =
    [0xE4C14788, 0x379C6516, 0x5C4AB3BB] := by decide +kernel
/-- V-XO-1's first two draws, as a bulk generation (R145). -/
theorem test_xoBulk : (fresh.xoBulk 2 0 [1, 0]).1 = [0x2800001, 0x3800067] := by decide +kernel

/-! ### Witnesses -/

theorem given_inv (a b c : Int) : (given a b c).Inv := by
  refine (State.resetWith_inv (p := params 4) rfl).congr rfl (fun i => ?_) rfl rfl rfl rfl rfl rfl rfl rfl
  fin_cases i <;> simp [given, fresh, params, State.resetWith, OpReg.reset]

/-- `given` with a command accepted and the engine to move. -/
def running (i : Instr) (a b c : Int) : State := (given a b c).withFetchWord 32 (encode i).toNat

/-- `fresh` with these turns to come. -/
def scheduled (ts : List Turn) : State := { fresh with turns := ts }

/-- `fresh` with BUSY = 1. -/
def busy : State := fresh.accept 0x05020000

theorem fresh_inv : fresh.Inv := State.resetWith_inv rfl

/-- A PCG core whose first draw is 0x80000001, which FLT32 rejects. -/
def rejecting : PcgCore := ⟨0x400010008400210, 1⟩

/-! Encoding. -/

theorem witness_DecodeReadsEncodedCommand :
    (Instr.flt64PP 7 1 1).coresPresent 2 1 = true ∧ (Instr.flt64PP 7 7 7).coresPresent 8 8 = true := by decide

theorem witness_DecodedWordIsItsEncoding : decode 2 1 0x84800180 = .ok (.flt64PP 1 0 1) := rfl

theorem witness_IllegalWordsAreRejected :
    (opOf 0x14000000 ∈ List.range' 0x05 11 ∧ opOf 0x3C000000 ∈ List.range' 0x05 11 ∧ opOf 0x50000000 ∈ List.range' 0x14 4 ∧
      opOf 0x5C000000 ∈ List.range' 0x14 4 ∧ opOf 0x74000000 ∈ List.range' 0x1D 3 ∧ opOf 0x7C000000 ∈ List.range' 0x1D 3 ∧
      opOf 0x88000000 ∈ List.range' 0x22 30 ∧ opOf 0xFC000000 ∈ List.range' 0x22 30 ∧ opOf 0 = 0) ∧
    ((0x01, 0x0001FFFF) ∈ unusedBits ∧ opOf 0x05020001 = 0x01 ∧ (0x05020001 : Word32) &&& 0x0001FFFF ≠ 0) ∧
    (opOf 0x80000080 = 0x20 ∧ fieldS 0x80000080 = 2 ∧ fieldS 0x800000C0 = 3) ∧
    (opOf 0x84000000 = 0x21 ∧ fieldS 0x84000000 = 0 ∧ fieldS 0x840000C0 = 3) ∧
    (opOf 0x85000140 = 0x21 ∧ fieldS 0x85000140 = 1 ∧ fieldF 0x85000140 ≠ 0) ∧
    (Instr.pcgNext 0 2).coresPresent 2 1 = false := by decide +kernel

/-! The machine as a whole. -/

theorem witness_StepKeepsStateLegal :
    fresh.Inv ∧ (∃ t, step fresh = .next t) ∧ (scheduled [.engine]).Inv ∧ (∃ t, step (scheduled [.engine]) = .next t) ∧
      (scheduled [.powerOn]).Inv ∧ ∃ t, step (scheduled [.powerOn]) = .next t :=
  ⟨fresh_inv, ⟨_, rfl⟩, fresh_inv.withTurns _, ⟨_, rfl⟩, fresh_inv.withTurns _, ⟨_, rfl⟩⟩

theorem witness_StepRunsDecodedCommand :
    (∃ rest, (running (.mr2 5 0) 7 0 0).busy = true ∧ decode 2 1 (running (.mr2 5 0) 7 0 0).pending = .ok (.mr2 5 0) ∧
      (running (.mr2 5 0) 7 0 0).turns = .engine :: rest) ∧
    (fresh.accept 0x12800000).busy = true ∧ decode 2 1 (fresh.accept 0x12800000).pending = .ok (.mr2 5 0) ∧
      (fresh.accept 0x12800000).turns = [] := ⟨⟨_, rfl, rfl, rfl⟩, rfl, rfl, rfl⟩

theorem witness_IllegalCommandChangesOnlyStatus : ∃ why rest, (fresh.withFetchWord 32 0).busy = true ∧
    (fresh.withFetchWord 32 0).turns = .engine :: rest ∧ decode 2 1 (fresh.withFetchWord 32 0).pending = .error why :=
  ⟨_, _, rfl, rfl, rfl⟩

theorem witness_EngineStepEndsCommand : ∃ rest, (fresh.withFetchWord 32 0).busy = true ∧
    (fresh.withFetchWord 32 0).turns = .engine :: rest := ⟨_, rfl, rfl⟩

theorem witness_HostTurnPerformsItsAccess :
    (∃ rest, (scheduled [.host (.store 0 4 (2 ^ 32 - 1))]).turns = .host (.store 0 4 (2 ^ 32 - 1)) :: rest ∧
      (Access.store 0 4 (2 ^ 32 - 1)).fits = true) ∧
    ∃ rest, (scheduled [.host (.store 0 4 (2 ^ 32))]).turns = .host (.store 0 4 (2 ^ 32)) :: rest ∧
      (Access.store 0 4 (2 ^ 32)).fits = false := by
  refine ⟨⟨_, rfl, ?_⟩, _, rfl, ?_⟩ <;> decide

/-! Frames. -/

theorem witness_CommandFrame : (∃ t, exec (.residue 2 0 1) (given 7 3 0) = .next t) ∧ dest (.residue 2 0 1) ≠ some 0 :=
  ⟨⟨_, rfl⟩, by decide⟩

theorem witness_ErrorCompletionFrame :
    (∃ t, exec (.residue 2 0 1) (given 7 0 0) = .next t ∧ t.err = true ∧ t.errcode = 2) ∧
    ∃ t, exec (.pcgNext 2 7) fresh = .next t ∧ t.err = true ∧ t.errcode = 1 :=
  ⟨⟨_, rfl, by decide +kernel⟩, _, rfl, by decide +kernel⟩

theorem witness_CommandChangesOnlySelectedCores :
    (∃ t, exec (.pcgNext 2 0) fresh = .next t) ∧ (∀ e ∈ pcgCores (.pcgNext 2 0), e.val ≠ 1) ∧
      ∀ e ∈ xoCores (.pcgNext 2 0), e.val ≠ 0 := ⟨⟨_, rfl⟩, by decide, by decide⟩

theorem witness_CommandApertureFrame :
    fresh.cfg.legal = true ∧ (∃ t, exec (.residue 2 0 1) fresh = .next t) ∧ (0x017 < 0x018) ∧ (0x020 ≤ 0x020) ∧
    ∀ r, dest (.residue 2 0 1) = some r →
      ¬InWindow fresh.cfg r 0x017 ∧ ¬InWindow fresh.cfg r 0x020 ∧ ¬InWindow fresh.cfg r 0x103F ∧ ¬InWindow fresh.cfg r 0x1060 := by
  refine ⟨rfl, ⟨_, rfl⟩, by decide, by decide, fun r h => ?_⟩
  cases h
  unfold InWindow
  decide

theorem witness_UnwrittenSourceMarksRun :
    (Instr.residue 2 0 3).coresPresent fresh.pcg.length fresh.xo.length = true ∧
    ∃ t, exec (.residue 2 0 3) (given 1 1 1) = .next t ∧ regWritten (given 1 1 1).x[(3 : RegId)] = false :=
  ⟨rfl, _, rfl, by decide +kernel⟩

/-! Modular arithmetic: each at the ends of its conditions. -/

theorem witness_ResidueResult :
    ((given (-7) 1 0).Inv ∧ 0 < (given (-7) 1 0).val 1) ∧ (given 7 0 0).Inv ∧ (given 7 0 0).val 1 ≤ 0 :=
  ⟨⟨given_inv _ _ _, by decide +kernel⟩, given_inv _ _ _, by decide +kernel⟩

theorem witness_ModpowResult :
    ((given 5 0 1).Inv ∧ 1 ≤ (given 5 0 1).val 2 ∧ 0 ≤ (given 5 0 1).val 1) ∧
    ((given 2 3 0).Inv ∧ (given 2 3 0).val 2 < 1) ∧ (given 2 (-1) 7).Inv ∧ (given 2 (-1) 7).val 1 < 0 :=
  ⟨⟨given_inv _ _ _, by decide +kernel⟩, ⟨given_inv _ _ _, by decide +kernel⟩, given_inv _ _ _, by decide +kernel⟩

theorem witness_JacobiResult :
    ((given (-5) 1 0).Inv ∧ 1 ≤ (given (-5) 1 0).val 1 ∧ (given (-5) 1 0).val 1 % 2 = 1) ∧
    ((given 3 (-5) 0).Inv ∧ (given 3 (-5) 0).val 1 < 1) ∧ (given 3 8 0).Inv ∧ (given 3 8 0).val 1 % 2 = 0 :=
  ⟨⟨given_inv _ _ _, by decide +kernel⟩, ⟨given_inv _ _ _, by decide +kernel⟩, given_inv _ _ _, by decide +kernel⟩

theorem witness_MillerRabinResult :
    ((given 3 0 0).Inv ∧ 3 ≤ (given 3 0 0).val 0 ∧ (given 3 0 0).val 0 % 2 = 1 ∧ 1 % 2 = 1 ∧
      (given 3 0 0).val 0 - 1 = (1 : Nat) * 2 ^ 1) ∧
    ((given 2 0 0).Inv ∧ (given 2 0 0).val 0 < 3) ∧ (given 4 0 0).Inv ∧ (given 4 0 0).val 0 % 2 = 0 :=
  ⟨⟨given_inv _ _ _, by decide +kernel⟩, ⟨given_inv _ _ _, by decide +kernel⟩, given_inv _ _ _, by decide +kernel⟩

theorem witness_MillerRabinAcceptsOddPrimes :
    (given 3 0 0).Inv ∧ 3 ≤ (given 3 0 0).val 0 ∧ ((given 3 0 0).val 0).toNat.Prime := by
  have h : (given 3 0 0).val 0 = 3 := by decide +kernel
  exact ⟨given_inv _ _ _, h.ge, by rw [h]; exact Nat.prime_three⟩

theorem witness_ModexpImplChangesNoResult : ∃ t, exec (.modpow 3 0 1 2) (given 4 13 497) = .next t := ⟨_, rfl⟩

/-! PRNG cores. -/

theorem witness_PcgDrawMatchesRule : [demo, demo][(1 : CoreId).val]? = some demo := rfl

theorem witness_XoDrawMatchesRule : [(⟨1, 2, 3, 4⟩ : XoCore)][(0 : CoreId).val]? = some ⟨1, 2, 3, 4⟩ := rfl

theorem witness_PcgSeedEffect :
    (∀ v ∈ [0, 2 ^ 128 - 1], (1 : CoreId).val < (given v 0 0).pcg.length ∧ 0 ≤ (given v 0 0).val 0 ∧
      (given v 0 0).val 0 < 2 ^ 128) ∧
    ∀ v ∈ [-1, 2 ^ 128], (1 : CoreId).val < (given v 0 0).pcg.length ∧
      ((given v 0 0).val 0 < 0 ∨ 2 ^ 128 ≤ (given v 0 0).val 0) := by decide +kernel

/-- A value of 2^256 needs OPW above 256. -/
def wide (v : Int) : State := (State.resetWith { params 4 with opw := 512 }).writeReg 0 v

theorem witness_XoSeedEffect :
    (∀ v ∈ [0, 2 ^ 256 - 1], (0 : CoreId).val < (wide v).xo.length ∧ 0 ≤ (wide v).val 0 ∧ (wide v).val 0 < 2 ^ 256) ∧
    ∀ v ∈ [-1, 2 ^ 256], (0 : CoreId).val < (wide v).xo.length ∧ ((wide v).val 0 < 0 ∨ 2 ^ 256 ≤ (wide v).val 0) := by
  decide +kernel

theorem witness_DefaultSeedEffect : (1 : CoreId).val < fresh.pcg.length ∧ (0 : CoreId).val < fresh.xo.length := by decide

theorem witness_PcgNextResult : fresh.cfg.legal = true ∧ fresh.pcg[(1 : CoreId).val]? = some ⟨1, 1⟩ := ⟨rfl, rfl⟩

theorem witness_XoNextResult : fresh.cfg.legal = true ∧ fresh.xo[(0 : CoreId).val]? = some ⟨1, 2, 3, 4⟩ := ⟨rfl, rfl⟩

/-- Accepted at once with the least and the greatest bound, accepted after a rejection, exhausted, and out of range on both
sides: the core draws 0, then 8192. -/
theorem witness_PcgBound32Result :
    let c : PcgCore := ⟨0, 2 ^ 40⟩
    let s (retryMax : Nat) (b : Int) : State := { given b 0 0 with cfg := params retryMax, pcg := [demo, c] }
    (∀ n b : Nat, n = 1 → b = 1 ∨ b = 2 ^ 32 → (s n b).cfg.legal = true ∧ (s n b).pcg[(1 : CoreId).val]? = some c ∧ (s n b).val 0 = b ∧
      0 < (s n b).cfg.retryMax ∧ 2 ^ 32 % b ≤ (PcgCore.step^[0] c).output.toNat) ∧
    ((s 2 3).cfg.legal = true ∧ (s 2 3).pcg[(1 : CoreId).val]? = some c ∧ (s 2 3).val 0 = (3 : Nat) ∧ 1 < (s 2 3).cfg.retryMax ∧
      (∀ j < 1, (PcgCore.step^[j] c).output.toNat < 2 ^ 32 % 3) ∧ 2 ^ 32 % 3 ≤ (PcgCore.step^[1] c).output.toNat) ∧
    ((s 1 3).cfg.legal = true ∧ (s 1 3).pcg[(1 : CoreId).val]? = some c ∧ (s 1 3).val 0 = (3 : Nat) ∧
      ∀ j < (s 1 3).cfg.retryMax, (PcgCore.step^[j] c).output.toNat < 2 ^ 32 % 3) ∧
    ((s 1 0).cfg.legal = true ∧ (s 1 0).pcg[(1 : CoreId).val]? = some c ∧ (s 1 0).val 0 < 1) ∧
    (s 1 (2 ^ 32 + 1)).cfg.legal = true ∧ (s 1 (2 ^ 32 + 1)).pcg[(1 : CoreId).val]? = some c ∧ 2 ^ 32 < (s 1 (2 ^ 32 + 1)).val 0 := by
  refine ⟨?_, by decide +kernel⟩
  rintro n b rfl (rfl | rfl) <;> decide +kernel

/-- The same for XO.BND64: the core draws 0, then a large word. -/
theorem witness_XoBound64Result :
    let c : XoCore := ⟨0, 1, 0, 0⟩
    let s (retryMax : Nat) (b : Int) : State := { given b 0 0 with cfg := params retryMax, xo := [c] }
    (∀ n b : Nat, n = 1 → b = 1 ∨ b = 2 ^ 64 → (s n b).cfg.legal = true ∧ (s n b).xo[(0 : CoreId).val]? = some c ∧ (s n b).val 0 = b ∧
      0 < (s n b).cfg.retryMax ∧ 2 ^ 64 % b ≤ (Machine.xoOutput (Machine.xoStep^[0] c)).toNat) ∧
    ((s 2 3).cfg.legal = true ∧ (s 2 3).xo[(0 : CoreId).val]? = some c ∧ (s 2 3).val 0 = (3 : Nat) ∧ 1 < (s 2 3).cfg.retryMax ∧
      (∀ j < 1, (Machine.xoOutput (Machine.xoStep^[j] c)).toNat < 2 ^ 64 % 3) ∧ 2 ^ 64 % 3 ≤ (Machine.xoOutput (Machine.xoStep^[1] c)).toNat) ∧
    ((s 1 3).cfg.legal = true ∧ (s 1 3).xo[(0 : CoreId).val]? = some c ∧ (s 1 3).val 0 = (3 : Nat) ∧
      ∀ j < (s 1 3).cfg.retryMax, (Machine.xoOutput (Machine.xoStep^[j] c)).toNat < 2 ^ 64 % 3) ∧
    ((s 1 0).cfg.legal = true ∧ (s 1 0).xo[(0 : CoreId).val]? = some c ∧ (s 1 0).val 0 < 1) ∧
    (s 1 (2 ^ 64 + 1)).cfg.legal = true ∧ (s 1 (2 ^ 64 + 1)).xo[(0 : CoreId).val]? = some c ∧ 2 ^ 64 < (s 1 (2 ^ 64 + 1)).val 0 := by
  refine ⟨?_, by decide +kernel⟩
  rintro n b rfl (rfl | rfl) <;> decide +kernel

/-- The same for XO.BND32. -/
theorem witness_XoBound32Result :
    let c : XoCore := ⟨0, 1, 0, 0⟩
    let s (retryMax : Nat) (b : Int) : State := { given b 0 0 with cfg := params retryMax, xo := [c] }
    (∀ n b : Nat, n = 1 → b = 1 ∨ b = 2 ^ 32 → (s n b).cfg.legal = true ∧ (s n b).xo[(0 : CoreId).val]? = some c ∧ (s n b).val 0 = b ∧
      0 < (s n b).cfg.retryMax ∧ 2 ^ 64 % b ≤ (Machine.xoOutput (Machine.xoStep^[0] c)).toNat) ∧
    ((s 2 3).cfg.legal = true ∧ (s 2 3).xo[(0 : CoreId).val]? = some c ∧ (s 2 3).val 0 = (3 : Nat) ∧ 1 < (s 2 3).cfg.retryMax ∧
      (∀ j < 1, (Machine.xoOutput (Machine.xoStep^[j] c)).toNat < 2 ^ 64 % 3) ∧ 2 ^ 64 % 3 ≤ (Machine.xoOutput (Machine.xoStep^[1] c)).toNat) ∧
    ((s 1 3).cfg.legal = true ∧ (s 1 3).xo[(0 : CoreId).val]? = some c ∧ (s 1 3).val 0 = (3 : Nat) ∧
      ∀ j < (s 1 3).cfg.retryMax, (Machine.xoOutput (Machine.xoStep^[j] c)).toNat < 2 ^ 64 % 3) ∧
    ((s 1 0).cfg.legal = true ∧ (s 1 0).xo[(0 : CoreId).val]? = some c ∧ (s 1 0).val 0 < 1) ∧
    (s 1 (2 ^ 32 + 1)).cfg.legal = true ∧ (s 1 (2 ^ 32 + 1)).xo[(0 : CoreId).val]? = some c ∧ 2 ^ 32 < (s 1 (2 ^ 32 + 1)).val 0 := by
  refine ⟨?_, by decide +kernel⟩
  rintro n b rfl (rfl | rfl) <;> decide +kernel

theorem witness_BoundedResultsInRange :
    (∃ t, exec (.pcgBnd32 1 0 0) (given 1 0 0) = .next t ∧ t.err = false) ∧
    (∃ t, exec (.xoBnd64 1 0 0) (given (2 ^ 64) 0 0) = .next t ∧ t.err = false) ∧
    ∃ t, exec (.xoBnd32 1 0 0) (given (2 ^ 32) 0 0) = .next t ∧ t.err = false :=
  ⟨⟨_, rfl, by decide +kernel⟩, ⟨_, rfl, by decide +kernel⟩, _, rfl, by decide +kernel⟩

theorem witness_AllZeroXoOnlyBySeed :
    (running (.xoSeed 0 0) 0 0 0).cfg.legal = true ∧
    ∃ t, step (running (.xoSeed 0 0) 0 0 0) = .next t ∧ t.xo[0]? = some ⟨0, 0, 0, 0⟩ :=
  ⟨rfl, _, rfl, by decide +kernel⟩

/-! Float synthesis: a first word accepted, one accepted after a rejected one, and RETRY_MAX rejected ones. -/

theorem rejected32 : Rejected 32 8 0x80000001 := ⟨1, by decide⟩
theorem rejected64 : Rejected 64 11 0x8000000000000001 := ⟨1, by decide⟩

theorem not_rejected32 {v : Nat} (h : v < 2 ^ 31 ∨ 2 ^ 31 + 2 ^ 8 ≤ v) : ¬Rejected 32 8 v := by
  rintro ⟨u, h1, h2, rfl⟩
  omega

theorem not_rejected64 {v : Nat} (h : v < 2 ^ 63 ∨ 2 ^ 63 + 2 ^ 11 ≤ v) : ¬Rejected 64 11 v := by
  rintro ⟨u, h1, h2, rfl⟩
  omega

theorem params_legal {n : Nat} (h : n = 1 ∨ n = 2) : (params n).legal = true := by
  rcases h with rfl | rfl <;> decide

theorem witness_Float32PcgResult :
    (∀ n, n = 1 ∨ n = 2 → (onCores n demo rejecting ⟨1, 2, 3, 4⟩).cfg.legal = true ∧
      (onCores n demo rejecting ⟨1, 2, 3, 4⟩).pcg[(0 : CoreId).val]? = some demo ∧
      (onCores n demo rejecting ⟨1, 2, 3, 4⟩).pcg[(1 : CoreId).val]? = some rejecting ∧
      (onCores n demo rejecting ⟨1, 2, 3, 4⟩).cfg.retryMax = n) ∧
    ¬Rejected 32 8 (PcgCore.step^[0] demo).output.toNat ∧
    (∀ j < 1, Rejected 32 8 (PcgCore.step^[j] rejecting).output.toNat) ∧
    ¬Rejected 32 8 (PcgCore.step^[1] rejecting).output.toNat := by
  refine ⟨by rintro _ (rfl | rfl) <;> decide, not_rejected32 (by decide +kernel), fun j hj => ?_, not_rejected32 (by decide +kernel)⟩
  obtain rfl : j = 0 := by omega
  rw [show (PcgCore.step^[0] rejecting).output.toNat = 0x80000001 by decide +kernel]
  exact rejected32

theorem witness_Float32XoResult :
    let c : XoCore := ⟨0, 0, 0, 0x10000000200⟩
    (∀ n d, n = 1 ∨ n = 2 → (onCores n demo demo d).cfg.legal = true ∧ (onCores n demo demo d).xo[(0 : CoreId).val]? = some d ∧
      (onCores n demo demo d).cfg.retryMax = n) ∧
    ¬Rejected 32 8 ((Machine.xoOutput (Machine.xoStep^[0] ⟨1, 2, 3, 4⟩)).toNat / 2 ^ 32) ∧
    (∀ j < 1, Rejected 32 8 ((Machine.xoOutput (Machine.xoStep^[j] c)).toNat / 2 ^ 32)) ∧
    ¬Rejected 32 8 ((Machine.xoOutput (Machine.xoStep^[1] c)).toNat / 2 ^ 32) := by
  refine ⟨fun n d h => ⟨params_legal h, rfl, rfl⟩, not_rejected32 (by decide +kernel), fun j hj => ?_, not_rejected32 (by decide +kernel)⟩
  obtain rfl : j = 0 := by omega
  rw [show (Machine.xoOutput (Machine.xoStep^[0] ⟨0, 0, 0, 0x10000000200⟩)).toNat / 2 ^ 32 = 0x80000001 by decide +kernel]
  exact rejected32

theorem witness_Float64XoResult :
    let c : XoCore := ⟨0, 0, 0, 0x30000000000⟩
    (∀ n d, n = 1 ∨ n = 2 → (onCores n demo demo d).cfg.legal = true ∧ (onCores n demo demo d).xo[(0 : CoreId).val]? = some d ∧
      (onCores n demo demo d).cfg.retryMax = n) ∧
    ¬Rejected 64 11 (Machine.xoOutput (Machine.xoStep^[0] ⟨1, 2, 3, 4⟩)).toNat ∧
    (∀ j < 1, Rejected 64 11 (Machine.xoOutput (Machine.xoStep^[j] c)).toNat) ∧
    ¬Rejected 64 11 (Machine.xoOutput (Machine.xoStep^[1] c)).toNat := by
  refine ⟨fun n d h => ⟨params_legal h, rfl, rfl⟩, not_rejected64 (by decide +kernel), fun j hj => ?_, not_rejected64 (by decide +kernel)⟩
  obtain rfl : j = 0 := by omega
  rw [show (Machine.xoOutput (Machine.xoStep^[0] ⟨0, 0, 0, 0x30000000000⟩)).toNat = 0x8000000000000001 by decide +kernel]
  exact rejected64

/-- Two cores: the high half is 0x80000000 from core 0, the low half 1 from core 1. -/
theorem witness_Float64PairResult :
    let c : PcgCore := ⟨0x400010000400010, 1⟩
    let d : PcgCore := ⟨0x8000200, 1⟩
    (∀ n c d, n = 1 ∨ n = 2 → (onCores n c d ⟨1, 2, 3, 4⟩).cfg.legal = true ∧
      (onCores n c d ⟨1, 2, 3, 4⟩).pcg[(0 : CoreId).val]? = some c ∧
      (onCores n c d ⟨1, 2, 3, 4⟩).pcg[(1 : CoreId).val]? = some d ∧ (0 : CoreId) ≠ 1 ∧
      (onCores n c d ⟨1, 2, 3, 4⟩).cfg.retryMax = n) ∧
    ¬Rejected 64 11 ((PcgCore.step^[0] demo).output.toNat * 2 ^ 32 + (PcgCore.step^[0] d).output.toNat) ∧
    (∀ j < 1, Rejected 64 11 ((PcgCore.step^[j] c).output.toNat * 2 ^ 32 + (PcgCore.step^[j] d).output.toNat)) ∧
    ¬Rejected 64 11 ((PcgCore.step^[1] c).output.toNat * 2 ^ 32 + (PcgCore.step^[1] d).output.toNat) := by
  refine ⟨fun n c d h => ⟨params_legal h, rfl, rfl, by decide, rfl⟩, not_rejected64 (by decide +kernel), fun j hj => ?_, not_rejected64 (by decide +kernel)⟩
  obtain rfl : j = 0 := by omega
  rw [show (PcgCore.step^[0] (⟨0x400010000400010, 1⟩ : PcgCore)).output.toNat * 2 ^ 32 +
    (PcgCore.step^[0] (⟨0x8000200, 1⟩ : PcgCore)).output.toNat = 0x8000000000000001 by decide +kernel]
  exact rejected64

/-- One core for both halves: its draws are 0x80000000, then 1. -/
theorem witness_Float64PairResult_same :
    let c : PcgCore := ⟨0x400010000400010, 0x260E6ACB73680F31⟩
    (∀ n c, n = 1 ∨ n = 2 → (onCores n c demo ⟨1, 2, 3, 4⟩).cfg.legal = true ∧
      (onCores n c demo ⟨1, 2, 3, 4⟩).pcg[(0 : CoreId).val]? = some c ∧ (onCores n c demo ⟨1, 2, 3, 4⟩).cfg.retryMax = n) ∧
    ¬Rejected 64 11 ((PcgCore.step^[2 * 0] demo).output.toNat * 2 ^ 32 + (PcgCore.step^[2 * 0 + 1] demo).output.toNat) ∧
    ∀ j < 1, Rejected 64 11 ((PcgCore.step^[2 * j] c).output.toNat * 2 ^ 32 + (PcgCore.step^[2 * j + 1] c).output.toNat) := by
  refine ⟨fun n c h => ⟨params_legal h, rfl, rfl⟩, not_rejected64 (by decide +kernel), fun j hj => ?_⟩
  obtain rfl : j = 0 := by omega
  rw [show (PcgCore.step^[2 * 0] (⟨0x400010000400010, 0x260E6ACB73680F31⟩ : PcgCore)).output.toNat * 2 ^ 32 +
    (PcgCore.step^[2 * 0 + 1] (⟨0x400010000400010, 0x260E6ACB73680F31⟩ : PcgCore)).output.toNat = 0x8000000000000001
    by decide +kernel]
  exact rejected64

theorem witness_FloatResultsBelowOne :
    fresh.cfg.legal = true ∧ (∃ t, exec (.flt32P 2 0) (onCores 4 demo demo ⟨1, 2, 3, 4⟩) = .next t ∧ t.err = false) ∧
    (∃ t, exec (.flt32X 2 0) fresh = .next t ∧ t.err = false) ∧
    (∃ t, exec (.flt64X 2 0) fresh = .next t ∧ t.err = false) ∧
    ∃ t, exec (.flt64PP 2 0 0) (onCores 4 demo demo ⟨1, 2, 3, 4⟩) = .next t ∧ t.err = false :=
  ⟨rfl, ⟨_, rfl, by decide +kernel⟩, ⟨_, rfl, by decide +kernel⟩, ⟨_, rfl, by decide +kernel⟩, _, rfl, by decide +kernel⟩

/-! The host's side. The windows of OPW = 256 are offsets 0x1000 to 0x10FF. -/

theorem witness_IdleStoreToCmdIsAccepted : fresh.busy = false ∧ (4 = 4 ∨ 4 = 8) ∧ (8 = 4 ∨ 8 = 8) := by decide

theorem witness_BusyHazards :
    (busy.busy = true ∧ busy.cfg.legal = true ∧ busy.haz = false) ∧
    (InWindows busy.cfg 0x1000 ∧ InWindows busy.cfg 0x10F8 ∧ 0x10F8 < 0x4000 ∧ 0x10F8 % 8 = 0) ∧
    (¬InWindows busy.cfg 0x0FFC ∧ 0x0FFC % 4 = 0 ∧ 0x0FFC ≠ 0x010) ∧
    ¬InWindows busy.cfg 0x1100 ∧ ¬InWindows busy.cfg 0x3FF8 ∧ 0x3FF8 < 0x4000 ∧ 0x3FF8 % 8 = 0 := by
  unfold InWindows
  decide +kernel

/-- HAZ cleared by a STATUS store, by a soft reset and by a power-on reset. -/
theorem witness_HazIsSticky :
    let s (t : Turn) : State := { busy.setHaz with turns := [t] }
    (∃ t, step (s (.host (.store 0x40000018 4 8))) = .next t ∧ t.haz = false) ∧
    (∃ t, step (s (.host (.store 0x40000020 8 2))) = .next t ∧ t.haz = false) ∧
    (∃ t, step (s .powerOn) = .next t ∧ t.haz = false) ∧ (s .powerOn).haz = true :=
  ⟨⟨_, rfl, by decide +kernel⟩, ⟨_, rfl, by decide +kernel⟩, ⟨_, rfl, rfl⟩, rfl⟩

theorem witness_StatusStoreClearsByOnes : (4 = 4 ∨ 4 = 8) ∧ (8 = 4 ∨ 8 = 8) := by decide

theorem witness_CtrlStoreAndSoftReset : Nat.testBit 1 1 = false ∧ Nat.testBit 2 1 = true ∧ Nat.testBit 3 1 = true := by decide

theorem witness_ControlRegisterLoads : fresh.cfg.legal = true ∧ busy.cfg.legal = true := ⟨rfl, rfl⟩

theorem witness_WindowLoadReturnsStoredValue :
    fresh.Inv ∧ fresh.busy = false ∧ InWindows fresh.cfg 0x1000 ∧ InWindows fresh.cfg 0x10F8 ∧ 0x10F8 % 8 = 0 ∧
      2 ^ 64 - 1 < 2 ^ (8 * 8) := by
  refine ⟨fresh_inv, rfl, ?_⟩
  unfold InWindows
  decide

/-- An 8-byte store at 0x1018, the last two words of X0: words 5 of X0 and 0 of X1 lie beside it, 6 and 7 of X0 in it. -/
theorem witness_WindowStoreFrame :
    fresh.Inv ∧ fresh.busy = false ∧ InWindows fresh.cfg 0x1018 ∧ 0x1018 % 8 = 0 ∧ 0x1017 < 0x1018 ∧ 0x1018 + 8 ≤ 0x1020 ∧
    (5 < fresh.cfg.opw / 32 ∧ 0x1014 = 0x1000 + (0 : RegId).val * (fresh.cfg.opw / 8) + 4 * 5 ∧ 0x1014 < 0x1018) ∧
    (0x1020 = 0x1000 + (1 : RegId).val * (fresh.cfg.opw / 8) + 4 * 0 ∧ 0x1018 + 8 ≤ 0x1020) ∧
    (0x1018 = 0x1000 + (0 : RegId).val * (fresh.cfg.opw / 8) + 4 * 6 ∧ 0x1018 ≤ 0x1018) ∧
    7 < fresh.cfg.opw / 32 ∧ 0x101C = 0x1000 + (0 : RegId).val * (fresh.cfg.opw / 8) + 4 * 7 ∧ 0x101C < 0x1018 + 8 := by
  refine ⟨fresh_inv, rfl, ?_⟩
  unfold InWindows
  decide

theorem witness_ReservedOffsetsReadZeroIgnoreWrites :
    fresh.cfg.legal = true ∧ (0x028 < 0x4000 ∧ 0x028 % 8 = 0 ∧ ¬InWindows fresh.cfg 0x028) ∧
    (0x0FFC % 4 = 0 ∧ ¬InWindows fresh.cfg 0x0FFC) ∧ (0x1100 % 8 = 0 ∧ ¬InWindows fresh.cfg 0x1100) ∧
    (0x3FF8 < 0x4000 ∧ 0x3FF8 % 8 = 0 ∧ ¬InWindows fresh.cfg 0x3FF8) ∧ 0x008 < 0x010 ∧ 0x014 % 4 = 0 := by
  unfold InWindows
  decide +kernel

theorem witness_IllegalAccessChangesNoState :
    (∃ off, 0x40000004 = fresh.cfg.abase + off ∧ off < 0x4000 ∧ ¬((8 = 4 ∨ 8 = 8) ∧ off % 8 = 0)) ∧
    (∃ off, 0x40003FFF = fresh.cfg.abase + off ∧ off < 0x4000 ∧ ¬((4 = 4 ∨ 4 = 8) ∧ off % 4 = 0)) ∧
    0x3FFFFFFC < fresh.cfg.abase ∧ fresh.cfg.abase + 0x4000 ≤ 0x40004000 :=
  ⟨⟨4, by decide⟩, ⟨0x3FFF, by decide⟩, by decide, by decide⟩

theorem witness_LoadsHaveNoSideEffects : (busy.access (.load 0x40001000 8)).haz ≠ busy.haz := by decide +kernel

theorem witness_UnwrittenLoadMarksRun :
    (given 5 0 0).cfg.legal = true ∧ (given 5 0 0).busy = false ∧ 4 * 7 < (given 5 0 0).cfg.opw / 8 ∧
    (given 5 0 0).x[(0 : RegId)][0]? = some ⟨5, true⟩ ∧ (given 5 0 0).x[(7 : RegId)][7]? = some ⟨0, false⟩ ∧
    (0 % 2 = 0 ∧ (given 5 0 0).x[(0 : RegId)][0 + 1]? = some ⟨0, true⟩) ∧
    6 % 2 = 0 ∧ 4 * 6 < (given 5 0 0).cfg.opw / 8 ∧ (given 5 0 0).x[(7 : RegId)][6]? = some ⟨0, false⟩ ∧
    (given 5 0 0).x[(7 : RegId)][6 + 1]? = some ⟨0, false⟩ := by
  decide +kernel

theorem witness_WrxWritesWholeRegister :
    fresh.Inv ∧ fresh.busy = false ∧ -2 ^ (fresh.cfg.opw - 1) ≤ (-2 ^ 255 : Int) ∧
      (2 ^ 255 - 1 : Int) < 2 ^ (fresh.cfg.opw - 1) :=
  ⟨fresh_inv, rfl, by decide +kernel, by decide +kernel⟩

theorem witness_InterruptLine :
    (∃ rest, (fresh.withFetchWord 32 0).busy = true ∧ (fresh.withFetchWord 32 0).turns = .engine :: rest) ∧
    Nat.testBit 2 1 = true ∧ fresh.busy = false ∧ Nat.testBit 0 1 = false ∧ Nat.testBit 0 0 = false :=
  ⟨⟨_, rfl, rfl⟩, by decide, rfl, by decide, by decide⟩

/-! Whole-machine rules: for each, the step of every kind its conclusion names. -/

theorem witness_OnlyCompletionOrResetClearsBusy :
    let s (ts : List Turn) : State := { busy with turns := ts }
    (∃ t, step (s []) = .next t ∧ t.busy = false) ∧ (∃ t, step (s [.engine]) = .next t ∧ t.busy = false) ∧
    (∃ t, step (s [.powerOn]) = .next t ∧ t.busy = false) ∧
    (∃ t, step (s [.host (.store 0x40000020 4 2)]) = .next t ∧ t.busy = false) ∧ (s []).busy = true :=
  ⟨⟨_, rfl, by decide +kernel⟩, ⟨_, rfl, by decide +kernel⟩, ⟨_, rfl, rfl⟩, ⟨_, rfl, by decide +kernel⟩, rfl⟩

theorem witness_OperandRegisterWriters :
    (∃ t, step (running (.mr2 5 0) 7 0 0) = .next t ∧ t.x[(5 : RegId)] ≠ (running (.mr2 5 0) 7 0 0).x[(5 : RegId)]) ∧
    (∃ t, step (scheduled [.host (.store 0x400010FC 4 1)]) = .next t ∧ t.x[(7 : RegId)] ≠ fresh.x[(7 : RegId)]) ∧
    ∃ t, step { given 7 0 0 with turns := [.powerOn] } = .next t ∧ t.x[(0 : RegId)] ≠ (given 7 0 0).x[(0 : RegId)] :=
  ⟨⟨_, rfl, by decide +kernel⟩, ⟨_, rfl, by decide +kernel⟩, _, rfl, by decide +kernel⟩

theorem witness_CoreStateWriters :
    (∃ t, step (running (.pcgNext 5 1) 7 0 0) = .next t ∧ t.pcg[1]? ≠ (running (.pcgNext 5 1) 7 0 0).pcg[1]?) ∧
    (∃ t, step (running (.xoNext 5 0) 7 0 0) = .next t ∧ t.xo[0]? ≠ (running (.xoNext 5 0) 7 0 0).xo[0]?) ∧
    (∃ t, step { onCores 1 demo demo ⟨0, 0, 0, 1⟩ with turns := [.powerOn] } = .next t ∧ t.pcg[0]? ≠ some demo) ∧
    ∃ t, step { onCores 1 demo demo ⟨0, 0, 0, 1⟩ with turns := [.host (.store 0x40000020 4 2)] } = .next t ∧
      t.xo[0]? ≠ some ⟨0, 0, 0, 1⟩ :=
  ⟨⟨_, rfl, by decide +kernel⟩, ⟨_, rfl, by decide +kernel⟩, ⟨_, rfl, by decide +kernel⟩, _, rfl, by decide +kernel⟩

theorem witness_FaultMarkIsSticky :
    (∃ t, step { fresh.readSources [0] with turns := [.engine] } = .next t) ∧ (fresh.readSources [0]).faultMark = true ∧
    ∃ t, step { fresh.readSources [0] with turns := [.powerOn] } = .next t ∧ t.faultMark = false :=
  ⟨⟨_, rfl⟩, by decide +kernel, _, rfl, rfl⟩

theorem witness_PowerOnResetValues : ∃ t s rest, s.turns = .powerOn :: rest ∧ step s = .next t :=
  ⟨_, scheduled [.powerOn], [], rfl, rfl⟩

theorem witness_WaitEndsWithStatusOfIdleBlock : fresh.busy = false ∧ busy.busy = true := ⟨rfl, rfl⟩

end Sys2Proof.Tests
end

section
/-! The inversion lemmas that the statements of 10_state.md share: all that a step, a command and a host access can do when
they answer a next state, and of each the frame that follows. -/

namespace Sys2Proof.Machine

open Sys2Proof.Spec

/-! ### A step -/

/-- All a step that answers a next state can do: pass, complete the pending command, perform an access, reset (R30). -/
theorem step_next_cases {s t : State} (h : step s = .next t) :
    (s.busy = false ∧ t = { s with turns := s.turns.tail }) ∨
    (EngineMoves s ∧ engineStep { s with turns := s.turns.tail } = .next t) ∨
    (∃ a rest, s.turns = .host a :: rest ∧ t = State.access { s with turns := rest } a) ∨
    (∃ rest, s.turns = .powerOn :: rest ∧ t = State.powerOn { s with turns := rest }) := by
  have hnil (ht : s.turns = []) : { s with turns := s.turns.tail } = s := by
    rw [show s.turns.tail = s.turns by rw [ht]; rfl]
  rcases step_cases h with ⟨ht, hb, e⟩ | ⟨ht, hb, e⟩ | ⟨rest, ht, hb, e⟩ | ⟨rest, ht, hb, e⟩ | ⟨a, rest, ht, -, e⟩ |
    ⟨a, rest, ht, -, e⟩ | ⟨rest, ht, e⟩
  · exact .inl ⟨hb, by rw [hnil ht]; exact Host.Outcome.next.inj e⟩
  · exact .inr (.inl ⟨⟨hb, .inl ht⟩, by rw [hnil ht]; exact e.symm⟩)
  · exact .inl ⟨hb, by rw [ht]; exact Host.Outcome.next.inj e⟩
  · exact .inr (.inl ⟨⟨hb, .inr ⟨rest, ht⟩⟩, by rw [ht]; exact e.symm⟩)
  · exact .inr (.inr (.inl ⟨a, rest, ht, Host.Outcome.next.inj e⟩))
  · cases e
  · exact .inr (.inr (.inr ⟨rest, ht, Host.Outcome.next.inj e⟩))

/-! ### The engine -/

/-- All a command can make of a state (R320, R321). -/
theorem exec_next_cases {i : Instr} {s t : State} (h : exec i s = .next t) :
    ∃ u : State, u = { s with faultMark := u.faultMark, pcg := u.pcg, xo := u.xo } ∧
      Effects i s u.faultMark u.pcg u.xo ∧
      ((∃ e, t = u.errorCompletion e) ∨ t = u.complete ∨
        ∃ rd v, dest i = some rd ∧ t = (u.writeReg rd v).complete) := by
  obtain ⟨mark, pcg, xo, hE, hN⟩ := exec_form i s
  refine ⟨{ s with faultMark := mark, pcg := pcg, xo := xo }, rfl, hE, ?_⟩
  cases hN with
  | error e _ eq => exact .inl ⟨e, Host.Outcome.next.inj (h.symm.trans eq)⟩
  | plain eq => exact .inr (.inl (Host.Outcome.next.inj (h.symm.trans eq)))
  | write rd v hd eq => exact .inr (.inr ⟨rd, v, hd, Host.Outcome.next.inj (h.symm.trans eq)⟩)

/-- What a command makes of the fault mark and the cores (R34, R60, R64, R72). -/
theorem exec_effects {i : Instr} {s t : State} (h : exec i s = .next t) : Effects i s t.faultMark t.pcg t.xo := by
  obtain ⟨u, -, hE, ⟨e, rfl⟩ | rfl | ⟨rd, v, -, rfl⟩⟩ := exec_next_cases h <;> exact hE

/-- A command changes no register but its destination, and that only when it ends without error (R32, R33, R321). -/
theorem exec_reg_eq_or {i : Instr} {s t : State} (h : exec i s = .next t) (r : RegId) :
    t.x[r] = s.x[r] ∨ dest i = some r ∧ t.err = false := by
  obtain ⟨u, hu, -, ⟨e, rfl⟩ | rfl | ⟨rd, v, hd, rfl⟩⟩ := exec_next_cases h
  · exact .inl (by rw [State.errorCompletion_x, hu])
  · exact .inl (by rw [State.complete_x, hu])
  · by_cases hr : rd = r
    · exact .inr ⟨hr ▸ hd, rfl⟩
    · exact .inl (by rw [State.complete_x, State.writeReg_get_ne _ hr, hu])

/-- `t` is `s` but for the registers, BUSY, DONE, ERR, ERRCODE, the cores and the fault mark: what a completion leaves as it
was (R320, R321). -/
def State.CompletionFrame (s t : State) : Prop :=
  t.cfg = s.cfg ∧ t.lastcmd = s.lastcmd ∧ t.pending = s.pending ∧ t.haz = s.haz ∧ t.ie = s.ie ∧
    t.history = s.history ∧ t.turns = s.turns ∧ t.freeIndex = s.freeIndex

theorem exec_frame {i : Instr} {s t : State} (h : exec i s = .next t) : s.CompletionFrame t := by
  obtain ⟨u, hu, -, ⟨e, rfl⟩ | rfl | ⟨rd, v, -, rfl⟩⟩ := exec_next_cases h <;> rw [hu] <;>
    exact ⟨rfl, rfl, rfl, rfl, rfl, rfl, rfl, rfl⟩

theorem exec_done {i : Instr} {s t : State} (h : exec i s = .next t) : t.done = true := by
  obtain ⟨u, -, -, ⟨e, rfl⟩ | rfl | ⟨rd, v, -, rfl⟩⟩ := exec_next_cases h <;> rfl

/-- The engine's step ends ILLEGAL or runs the decoded command (R320). -/
theorem engineStep_next_cases {s t : State} (h : engineStep s = .next t) :
    t = s.errorCompletion .illegal ∨ ∃ i, decode s.cfg.npcg s.cfg.nxo s.pending = .ok i ∧ exec i s = .next t := by
  rcases engineStep_cases s with ⟨why, -, e⟩ | ⟨i, hd, e⟩
  · exact .inl (Host.Outcome.next.inj (h.symm.trans e))
  · exact .inr ⟨i, hd, e.symm.trans h⟩

theorem engineStep_frame {s t : State} (h : engineStep s = .next t) : s.CompletionFrame t := by
  rcases engineStep_next_cases h with rfl | ⟨i, -, he⟩
  · exact ⟨rfl, rfl, rfl, rfl, rfl, rfl, rfl, rfl⟩
  · exact exec_frame he

theorem engineStep_done {s t : State} (h : engineStep s = .next t) : t.done = true := by
  rcases engineStep_next_cases h with rfl | ⟨i, -, he⟩
  · rfl
  · exact exec_done he

theorem engineStep_faultMark {s t : State} (h : engineStep s = .next t) (hs : s.faultMark = true) :
    t.faultMark = true := by
  rcases engineStep_next_cases h with rfl | ⟨i, -, he⟩
  · exact hs
  · exact (exec_effects he).markKept hs

/-! ### The host -/

/-- All a host access can make of a state. An access that is no store, or a store without effect, moves no more than the
history and the free value's index, and can set HAZ and the fault mark (R80, R89, R91); the other cases are the stores
that have an effect. -/
inductive HostEffect (s : State) : Access → State → Prop
  | observed {a : Access} (haz mark : Bool) (index : Nat) (r : Response) :
      HostEffect s a
        (State.record { s with haz := s.haz || haz, faultMark := s.faultMark || mark, freeIndex := index } a r)
  | accepted {n v : Nat} (hb : s.busy = false) (r : Response) :
      HostEffect s (.store (s.cfg.abase + 0x010) n v)
        ((s.accept (wordOf v 0)).record (.store (s.cfg.abase + 0x010) n v) r)
  | status {n v : Nat} (hn : n = 4 ∨ n = 8) (r : Response) :
      HostEffect s (.store (s.cfg.abase + 0x018) n v)
        ((s.storeStatus v).record (.store (s.cfg.abase + 0x018) n v) r)
  | ie {n v : Nat} (r : Response) :
      HostEffect s (.store (s.cfg.abase + 0x020) n v)
        (State.record { s with ie := v.testBit 0 } (.store (s.cfg.abase + 0x020) n v) r)
  | softReset {n v : Nat} (hn : n = 4 ∨ n = 8) (hv : v.testBit 1 = true) (r : Response) :
      HostEffect s (.store (s.cfg.abase + 0x020) n v)
        ((s.softReset (v.testBit 0)).record (.store (s.cfg.abase + 0x020) n v) r)
  | window {off n v : Nat} (i : RegId) (k : Nat) (hi : locate s.cfg off = .window i k) (hb : s.busy = false)
      (ws : OpReg) (r : Response) :
      HostEffect s (.store (s.cfg.abase + off) n v)
        (State.record { s with x := s.x.set i ws } (.store (s.cfg.abase + off) n v) r)

/-- An access that has moved nothing but these four fields is an observation. -/
theorem HostEffect.of_eq {s u : State} {a : Access} (haz mark : Bool) (index : Nat) (r : Response)
    (hu : u = { s with haz := s.haz || haz, faultMark := s.faultMark || mark, freeIndex := index }) :
    HostEffect s a (u.record a r) :=
  hu ▸ .observed haz mark index r

theorem State.storeWindow_of_busy {s : State} (h : s.busy = true) (i : RegId) (k n v : Nat) :
    s.storeWindow i k n v = s.setHaz := by
  simp [State.storeWindow, h]

theorem State.storeWindow_of_idle {s : State} (h : s.busy = false) (i : RegId) (k n v : Nat) :
    s.storeWindow i k n v = { s with x := s.x.set i (regSetWords s.x[i] (k / 4) (n / 4) v) } := by
  simp [State.storeWindow, h]

/-- A legal store has one of the effects. -/
theorem store_effect (s : State) (off v : Nat) {n : Nat} (hn : n = 4 ∨ n = 8) (r : Response) :
    HostEffect s (.store (s.cfg.abase + off) n v) ((s.store off n v).record (.store (s.cfg.abase + off) n v) r) := by
  have dropped : HostEffect s (.store (s.cfg.abase + off) n v)
      (s.setHaz.record (.store (s.cfg.abase + off) n v) r) :=
    .of_eq true false s.freeIndex r (by simp [State.setHaz])
  rcases store_cases s off n v with ⟨rfl, e⟩ | ⟨rfl, e⟩ | ⟨rfl, e⟩ | ⟨i, k, hi, e⟩ | e <;> rw [e]
  · cases hb : s.busy
    · rw [State.issue_of_idle hb]
      exact .accepted hb r
    · rw [State.issue_of_busy hb]
      exact dropped
  · exact .status hn r
  · cases hv : v.testBit 1
    · rw [State.storeCtrl_of_not_srst hv]
      exact .ie r
    · rw [State.storeCtrl_of_srst hv]
      exact .softReset hn hv r
  · cases hb : s.busy
    · rw [State.storeWindow_of_idle hb]
      exact .window i k hi hb _ r
    · rw [State.storeWindow_of_busy hb]
      exact dropped
  · exact .of_eq false false s.freeIndex r (by simp)

/-- A host access has one of the effects. -/
theorem access_effect {s t : State} {a : Access} (h : t = s.access a) : HostEffect s a t := by
  rcases access_cases s a with ⟨r, e⟩ | ⟨n, r, e⟩ | ⟨off, n, r, rfl, -, -, -, e⟩ | ⟨off, n, v, r, rfl, -, hn, -, e⟩ <;>
    rw [h, e]
  · exact .of_eq false false s.freeIndex r (by simp)
  · exact .of_eq false false (s.freeIndex + 1) r (by simp [State.drawFree])
  · rcases load_cases s off n with ⟨i, k, -, -, e⟩ | ⟨mark, e⟩ <;> rw [e]
    · exact .of_eq true false (s.freeIndex + 1) r (by simp [State.drawFree, State.setHaz])
    · exact .of_eq false mark s.freeIndex r (by simp)
  · exact store_effect s off v hn r

/-- The access is a CTRL store with bit 1 set (R58). -/
def IsSoftReset (p : Params) (a : Access) : Prop :=
  ∃ n v, (n = 4 ∨ n = 8) ∧ v.testBit 1 = true ∧ a = .store (p.abase + 0x020) n v

section
variable {s t : State} {a : Access}

/-- A host access clears HAZ only by a STATUS store with bit 3 set or a soft reset (R54). -/
theorem HostEffect.haz_cleared (h : HostEffect s a t) (hs : s.haz = true) (ht : t.haz = false) :
    (∃ n v, (n = 4 ∨ n = 8) ∧ v.testBit 3 = true ∧ a = .store (s.cfg.abase + 0x018) n v) ∨ IsSoftReset s.cfg a := by
  cases h with
  | status hn r => exact .inl ⟨_, _, hn, by simpa [hs] using ht, rfl⟩
  | softReset hn hv r => exact .inr ⟨_, _, hn, hv, rfl⟩
  | observed | accepted | ie | window => simp [hs] at ht

/-- A host access clears BUSY only by a soft reset (R51). -/
theorem HostEffect.busy_cleared (h : HostEffect s a t) (hs : s.busy = true) (ht : t.busy = false) :
    IsSoftReset s.cfg a := by
  cases h with
  | softReset hn hv r => exact ⟨_, _, hn, hv, rfl⟩
  | accepted hb | window i k hi hb => simp [hs] at hb
  | observed | status | ie => simp [hs] at ht

/-- A host access changes the cores only by a soft reset (R62, R64). -/
theorem HostEffect.cores_eq_or (h : HostEffect s a t) : (t.pcg = s.pcg ∧ t.xo = s.xo) ∨ IsSoftReset s.cfg a := by
  cases h with
  | softReset hn hv r => exact .inr ⟨_, _, hn, hv, rfl⟩
  | observed | accepted | status | ie | window => exact .inl ⟨rfl, rfl⟩

/-- A host access never clears the fault mark (R72). -/
theorem HostEffect.faultMark_kept (h : HostEffect s a t) (hs : s.faultMark = true) : t.faultMark = true := by
  cases h with
  | observed haz mark => exact mark_kept hs
  | accepted | status | ie | softReset | window => exact hs

/-- The window a window offset lies in (R82). -/
theorem inWindow_of_locate {p : Params} (hl : p.legal = true) {off k : Nat} {i : RegId}
    (h : locate p off = .window i k) : InWindow p i off := by
  obtain ⟨h0, hi, -⟩ := locate_eq_window h
  obtain ⟨hw, -⟩ := legal_opw8 hl
  have hd := Nat.div_add_mod (off - 0x1000) (p.opw / 8)
  have hm := Nat.mod_lt (off - 0x1000) (show 0 < p.opw / 8 by omega)
  rw [hi, mul_comm] at hd
  unfold InWindow
  rw [Nat.add_mul]
  omega

/-- A host access changes a register only by a store to its window while BUSY = 0 (R32, R86, R91). -/
theorem HostEffect.reg_eq_or (h : HostEffect s a t) (hl : s.cfg.legal = true) (r : RegId) :
    t.x[r] = s.x[r] ∨
      s.busy = false ∧ ∃ off n v, InWindow s.cfg r off ∧ a = .store (s.cfg.abase + off) n v := by
  cases h with
  | window i k hi hb ws =>
    by_cases hr : i = r
    · exact .inr ⟨hb, _, _, _, hr ▸ inWindow_of_locate hl hi, rfl⟩
    · exact .inl (Vector.getElem_set_ne i.isLt r.isLt fun e => hr (Fin.ext e))
  | observed | accepted | status | ie | softReset => exact .inl rfl

end

end Sys2Proof.Machine
end

section
/-! The statements of 10_state.md about every step and every command. -/

namespace Sys2Proof.Machine

open Sys2Proof.Spec

/-! ### Legality -/

theorem State.Inv.engineStep {s t : State} (hI : s.Inv) (h : engineStep s = .next t) : t.Inv := by
  rcases engineStep_next_cases h with rfl | ⟨i, -, he⟩
  · exact hI.errorCompletion .illegal
  · exact hI.exec he

theorem State.Inv.powerOn {s : State} (hI : s.Inv) : s.powerOn.Inv :=
  (State.resetWith_inv hI.cfgLegal).congr rfl (fun _ => rfl) rfl rfl rfl rfl rfl rfl rfl rfl

/-- Settles O6: each kind of step keeps a state legal. -/
theorem stepKeepsStateLegal : Obligations.StepKeepsStateLegal := by
  intro s t hI h
  rcases step_next_cases h with ⟨-, rfl⟩ | ⟨-, he⟩ | ⟨a, rest, -, rfl⟩ | ⟨rest, -, rfl⟩
  · exact hI.withTurns _
  · exact (hI.withTurns _).engineStep he
  · exact (hI.withTurns rest).access a
  · exact (hI.withTurns rest).powerOn

/-! ### Commands -/

/-- Settles O11: a register that is not the destination is not written, and no other field is a completion's to change. -/
theorem commandFrame : Obligations.CommandFrame := by
  intro i s t h
  refine ⟨fun r hr => ?_, exec_frame h⟩
  exact (exec_reg_eq_or h r).resolve_right fun ⟨hd, _⟩ => hr hd

/-- Settles O13, from the effects every command has on the cores. -/
theorem commandChangesOnlySelectedCores : Obligations.CommandChangesOnlySelectedCores := by
  intro i s t h
  have hE := exec_effects h
  exact ⟨hE.pcgLength, hE.xoLength, hE.pcgOther, hE.xoOther⟩

/-- A byte outside STATUS depends on the parameters, LASTCMD, IE and the register of its window (R82, R84). -/
theorem apertureByte_congr {s t : State} {off : Nat} (hc : t.cfg = s.cfg) (hl : t.lastcmd = s.lastcmd)
    (hi : t.ie = s.ie) (hoff : off < 0x018 ∨ 0x020 ≤ off)
    (hx : ∀ i k, locate s.cfg off = .window i k → t.x[i] = s.x[i]) : apertureByte t off = apertureByte s off := by
  unfold apertureByte
  rw [hc]
  cases hp : locate s.cfg off with
  | id k | cfg k | reserved => rfl
  | cmd k => simp only [State.cmdWord, hl]
  | ctrl k => simp only [State.ctrlWord, hi]
  | window i k => simp only [hx i k hp]
  | status k =>
    unfold locate locateWindow at hp
    split_ifs at hp
    omega

/-- Settles O14: a byte outside STATUS and the destination's window shows nothing that a command changes. -/
theorem commandApertureFrame : Obligations.CommandApertureFrame := by
  intro i s t off hl h hoff hw
  obtain ⟨hc, hlast, -, -, hie, -⟩ := exec_frame h
  refine apertureByte_congr hc hlast hie hoff fun r k hp => ?_
  exact (exec_reg_eq_or h r).resolve_right fun ⟨hd, _⟩ => hw r hd (inWindow_of_locate hl hp)

/-- Settles O15: on cores that are there the mark becomes the old one or that of the sources. -/
theorem unwrittenSourceMarksRun : Obligations.UnwrittenSourceMarksRun := by
  intro i s t hp h
  rw [(exec_effects h).markEq hp]
  simp

/-! ### Who clears a flag, and who writes the registers and the cores -/

/-- Settles O41: an engine's step keeps HAZ, and an access clears it in the two named ways only. -/
theorem hazIsSticky : Obligations.HazIsSticky := by
  intro s t h hs ht
  rcases step_next_cases h with ⟨-, rfl⟩ | ⟨-, he⟩ | ⟨a, rest, hturn, e⟩ | ⟨rest, hturn, -⟩
  · simp [hs] at ht
  · obtain ⟨-, -, -, hhaz, -⟩ := engineStep_frame he
    simp [hhaz, hs] at ht
  · refine ⟨rest, .inr ?_⟩
    rcases (access_effect e).haz_cleared hs ht with ⟨n, v, hn, hv, rfl⟩ | ⟨n, v, hn, hv, rfl⟩
    · exact ⟨n, v, hn, .inl ⟨hturn, hv⟩⟩
    · exact ⟨n, v, hn, .inr ⟨hturn, hv⟩⟩
  · exact ⟨rest, .inl hturn⟩

/-- The turn of a soft reset, as the statements write it. -/
theorem softReset_turn {s : State} {a : Access} {rest : List Turn} (hturn : s.turns = .host a :: rest)
    (h : IsSoftReset s.cfg a) :
    ∃ n v, (n = 4 ∨ n = 8) ∧ v.testBit 1 = true ∧ s.turns = .host (.store (s.cfg.abase + 0x020) n v) :: rest := by
  obtain ⟨n, v, hn, hv, rfl⟩ := h
  exact ⟨n, v, hn, hv, hturn⟩

/-- Settles O55: an idle step and every access but a soft reset keep BUSY. -/
theorem onlyCompletionOrResetClearsBusy : Obligations.OnlyCompletionOrResetClearsBusy := by
  intro s t h hs ht
  rcases step_next_cases h with ⟨hb, -⟩ | ⟨⟨-, hnil | ⟨rest, hturn⟩⟩, -⟩ | ⟨a, rest, hturn, e⟩ | ⟨rest, hturn, -⟩
  · simp [hs] at hb
  · exact .inl hnil
  · exact .inr ⟨rest, .inl hturn⟩
  · exact .inr ⟨rest, .inr (.inr (softReset_turn hturn ((access_effect e).busy_cleared hs ht)))⟩
  · exact .inr ⟨rest, .inr (.inl hturn)⟩

/-- Settles O56: an engine's step writes at most its command's destination, and an access at most its window. -/
theorem operandRegisterWriters : Obligations.OperandRegisterWriters := by
  intro s t r hl h hx
  rcases step_next_cases h with ⟨-, rfl⟩ | ⟨hm, he⟩ | ⟨a, rest, hturn, e⟩ | ⟨rest, hturn, -⟩
  · exact absurd rfl hx
  · rcases engineStep_next_cases he with rfl | ⟨i, hd, hi⟩
    · exact absurd rfl hx
    · exact .inl ⟨i, ⟨hm, hd⟩, (exec_reg_eq_or hi r).resolve_left hx⟩
  · obtain ⟨hb, off, n, v, hw, rfl⟩ := ((access_effect e).reg_eq_or hl r).resolve_left hx
    exact .inr (.inl ⟨hb, off, n, v, rest, hw, hturn⟩)
  · exact .inr (.inr ⟨rest, hturn⟩)

/-- A step that changes the cores runs a command, on whose effects the change depends, or is a reset (R62, R64). -/
theorem step_cores_changed {s t : State} (h : step s = .next t) (hc : ¬(t.pcg = s.pcg ∧ t.xo = s.xo)) :
    (∃ i, EngineRuns s i ∧ exec i { s with turns := s.turns.tail } = .next t) ∨
    ∃ rest, s.turns = .powerOn :: rest ∨
      ∃ n v, (n = 4 ∨ n = 8) ∧ v.testBit 1 = true ∧ s.turns = .host (.store (s.cfg.abase + 0x020) n v) :: rest := by
  rcases step_next_cases h with ⟨-, rfl⟩ | ⟨hm, he⟩ | ⟨a, rest, hturn, e⟩ | ⟨rest, hturn, -⟩
  · exact absurd ⟨rfl, rfl⟩ hc
  · rcases engineStep_next_cases he with rfl | ⟨i, hd, hi⟩
    · exact absurd ⟨rfl, rfl⟩ hc
    · exact .inl ⟨i, ⟨hm, hd⟩, hi⟩
  · exact .inr ⟨rest, .inr (softReset_turn hturn ((access_effect e).cores_eq_or.resolve_left hc))⟩
  · exact .inr ⟨rest, .inl hturn⟩

/-- Settles O57: a command that runs leaves the cores it does not select. -/
theorem coreStateWriters : Obligations.CoreStateWriters := by
  intro s t k h
  constructor
  · intro hk
    refine (step_cores_changed h fun ⟨hp, _⟩ => hk (by rw [hp])).imp_left fun ⟨i, hr, hi⟩ => ⟨i, hr, ?_⟩
    by_contra hsel
    exact hk ((exec_effects hi).pcgOther k fun e he heq => hsel ⟨e, he, heq⟩)
  · intro hk
    refine (step_cores_changed h fun ⟨_, ho⟩ => hk (by rw [ho])).imp_left fun ⟨i, hr, hi⟩ => ⟨i, hr, ?_⟩
    by_contra hsel
    exact hk ((exec_effects hi).xoOther k fun e he heq => hsel ⟨e, he, heq⟩)

/-- Settles O58: no command and no access clears the mark. -/
theorem faultMarkIsSticky : Obligations.FaultMarkIsSticky := by
  intro s t h hs
  rcases step_next_cases h with ⟨-, rfl⟩ | ⟨-, he⟩ | ⟨a, rest, -, e⟩ | ⟨rest, hturn, -⟩
  · exact .inl hs
  · exact .inl (engineStep_faultMark he hs)
  · exact .inl ((access_effect e).faultMark_kept hs)
  · exact .inr ⟨rest, hturn⟩

end Sys2Proof.Machine
end

section
/-! The statements of 10_state.md about single host accesses: stores to CMD, STATUS and CTRL, the interrupt line they move,
loads, and what no access shows. -/

namespace Sys2Proof.Machine

open Sys2Proof.Spec

/-! ### Stores to the control registers -/

/-- An 8-byte aligned control register takes 4- and 8-byte stores alike (R89). -/
theorem access_store_control {s : State} {off n : Nat} (v : Nat) (h : off < 0x4000) (h8 : off % 8 = 0)
    (hn : n = 4 ∨ n = 8) :
    s.access (.store (s.cfg.abase + off) n v) =
      (s.store off n v).record (.store (s.cfg.abase + off) n v) .stored :=
  access_store h hn (by rcases hn with rfl | rfl <;> omega)

theorem store_cmd (s : State) (n v : Nat) : s.store 0x010 n v = s.issue (wordOf v 0) := rfl

theorem store_status (s : State) (n v : Nat) : s.store 0x018 n v = s.storeStatus v := rfl

theorem store_ctrl (s : State) (n v : Nat) : s.store 0x020 n v = s.storeCtrl v := rfl

section
variable {s : State} {n : Nat} (v : Nat)

/-- An idle block accepts a store to CMD (R43, R51). -/
theorem access_store_cmd_of_idle (hb : s.busy = false) (hn : n = 4 ∨ n = 8) :
    s.access (.store (s.cfg.abase + 0x010) n v) =
      (s.accept (BitVec.ofNat 32 v)).record (.store (s.cfg.abase + 0x010) n v) .stored := by
  have hw : wordOf v 0 = BitVec.ofNat 32 v := by simp [wordOf]
  rw [access_store_control v (by omega) (by omega) hn, store_cmd, State.issue_of_idle hb, hw]

/-- A store to STATUS (R55). -/
theorem access_store_status (hn : n = 4 ∨ n = 8) :
    s.access (.store (s.cfg.abase + 0x018) n v) =
      (s.storeStatus v).record (.store (s.cfg.abase + 0x018) n v) .stored := by
  rw [access_store_control v (by omega) (by omega) hn, store_status]

/-- A store to CTRL (R57). -/
theorem access_store_ctrl (hn : n = 4 ∨ n = 8) :
    s.access (.store (s.cfg.abase + 0x020) n v) =
      (s.storeCtrl v).record (.store (s.cfg.abase + 0x020) n v) .stored := by
  rw [access_store_control v (by omega) (by omega) hn, store_ctrl]

end

/-- Settles O39: the store's word is accepted. -/
theorem idleStoreToCmdIsAccepted : Obligations.IdleStoreToCmdIsAccepted :=
  fun _ _ v hb hn => access_store_cmd_of_idle v hb hn

/-- Settles O42: a bit that is set clears its flag, and the upper half of STATUS ignores stores. -/
theorem statusStoreClearsByOnes : Obligations.StatusStoreClearsByOnes := by
  intro s n v hn
  constructor
  · have clear : ∀ flag bit : Bool, (flag && !bit) = if bit then false else flag := by decide
    simp only [access_store_status v hn, State.storeStatus, clear]
    rfl
  · exact access_store (by omega) (.inl rfl) (by omega)

/-- Settles O43: bit 1 decides between a store to IE alone and the soft reset. -/
theorem ctrlStoreAndSoftReset : Obligations.CtrlStoreAndSoftReset := by
  intro s n v hn
  rw [access_store_ctrl v hn]
  constructor
  · intro hv
    rw [State.storeCtrl_of_not_srst hv]
    rfl
  · intro hv
    rw [State.storeCtrl_of_srst hv]
    rfl

/-! ### The interrupt line -/

theorem irq_eq_false_of_done {s : State} (h : s.done = false) : s.irq = false := by simp [State.irq, h]

/-- A completion makes the interrupt line IE (R320, R330). -/
theorem step_engine_irq {s : State} {rest : List Turn} (hb : s.busy = true) (ht : s.turns = .engine :: rest) :
    ∃ t, step s = .next t ∧ t.irq = s.ie := by
  obtain ⟨-, -, -, -, hie, -⟩ := engineStep_frame (engineStep_eq hb)
  have hdone := engineStep_done (engineStep_eq hb)
  refine ⟨_, step_engine_turn ht, ?_⟩
  simp [State.irq, hie, hdone]

/-- Settles O53, event by event. -/
theorem interruptLine : Obligations.InterruptLine := by
  intro s n v rest hn
  rw [access_store_status v hn, access_store_ctrl v hn]
  refine ⟨by simp [State.irq], step_engine_irq, fun hv => ⟨?_, ?_⟩, fun hb => ?_, fun hv => ?_, rfl⟩
  · exact irq_eq_false_of_done (by simp [hv])
  · exact irq_eq_false_of_done (by simp [State.storeCtrl_of_srst hv])
  · rw [access_store_cmd_of_idle v hb hn]
    exact irq_eq_false_of_done rfl
  · rw [State.storeCtrl_of_not_srst hv]
    exact ⟨rfl, rfl⟩

/-! ### Loads of the control registers -/

/-- An 8-byte load of a place that is no window, whose bytes are those of `w`, returns `w` without an effect (R84, R90). -/
theorem load_register {s : State} {off : Nat} (w : Word64) (hb : ∀ k < 8, apertureByte s (off + k) = byteOf w k)
    (hp : off < 0x1000) : s.load off 8 = (w.toNat, s) := by
  have hv : apertureBytes s off 8 = w.toNat := (apertureBytes_from w hb 8 0 rfl).trans (Nat.div_one _)
  unfold State.load
  split
  · rename_i h
    obtain ⟨h1, -⟩ := locate_eq_window h
    omega
  · rw [hv]

/-- The number of a bit string is its parts' numbers at their places. -/
theorem toNat_append_eq_add {m n : Nat} (x : BitVec m) (y : BitVec n) :
    (x ++ y).toNat = x.toNat * 2 ^ n + y.toNat := by
  rw [BitVec.toNat_append, ← Nat.shiftLeft_add_eq_or_of_lt y.isLt, Nat.shiftLeft_eq]

/-- STATUS's layout (R50). -/
theorem statusWord_toNat (s : State) : s.statusWord.toNat =
    s.busy.toNat + 2 * s.done.toNat + 4 * s.err.toNat + 8 * s.haz.toNat + 16 * s.errcode.toNat := by
  simp only [State.statusWord, toNat_append_eq_add, BitVec.toNat_ofBool, BitVec.toNat_zero]
  omega

/-- The fields of CFG hold the parameters a legal configuration can have (R42, 00_scope.md section 3). -/
theorem Params.legal_cfgFields {p : Params} (h : p.legal = true) :
    p.opw < 2 ^ 16 ∧ p.npcg < 2 ^ 4 ∧ p.nxo < 2 ^ 4 ∧ p.retryMax < 2 ^ 24 := by
  obtain ⟨-, -, hopw⟩ := Params.legal_opw h
  simp only [Params.legal, Bool.and_eq_true, decide_eq_true_eq] at h
  omega

theorem modexpBit_toNat (m : ModexpImpl) : (ModexpImpl.bit m).toNat * 2 ^ 24 = if m = .montgomery then 2 ^ 24 else 0 := by
  cases m <;> rfl

/-- CFG's layout (R42). -/
theorem cfgWord_toNat {p : Params} (h : p.legal = true) : (cfgWord p).toNat =
    p.opw + p.npcg * 2 ^ 16 + p.nxo * 2 ^ 20 + (if p.modexpImpl = .montgomery then 2 ^ 24 else 0) +
      p.retryMax * 2 ^ 32 := by
  obtain ⟨hopw, hnpcg, hnxo, hretry⟩ := Params.legal_cfgFields h
  simp only [cfgWord, toNat_append_eq_add, BitVec.toNat_ofNat, ← modexpBit_toNat, Nat.mod_eq_of_lt hopw,
    Nat.mod_eq_of_lt hnpcg, Nat.mod_eq_of_lt hnxo, Nat.mod_eq_of_lt hretry]
  omega

/-- Settles O44, register by register: the bytes are those of its word, and the word is laid out as the rules say. -/
theorem controlRegisterLoads : Obligations.ControlRegisterLoads := by
  intro s hl
  refine ⟨?_, ?_, ?_, ?_, ?_⟩
  · exact load_register idWord (fun k hk => by interval_cases k <;> rfl) (by omega)
  · rw [load_register (cfgWord s.cfg) (fun k hk => by interval_cases k <;> rfl) (by omega), cfgWord_toNat hl]
  · rw [load_register s.cmdWord (fun k hk => by interval_cases k <;> rfl) (by omega), State.cmdWord,
      BitVec.toNat_setWidth_of_le (by omega)]
  · rw [load_status, statusWord_toNat]
  · rw [load_register s.ctrlWord (fun k hk => by interval_cases k <;> rfl) (by omega), State.ctrlWord,
      BitVec.toNat_setWidth_of_le (by omega), BitVec.toNat_ofBool]

/-! ### Loads of unwritten words -/

/-- An idle block's load of a window offset (R34, R90). -/
theorem load_window_of_idle {s : State} {off n k : Nat} {i : RegId} (h : locate s.cfg off = .window i k)
    (hb : s.busy = false) : s.load off n =
      (apertureBytes s off n, { s with faultMark := s.faultMark || !wordsWritten s.x[i] (k / 4) (n / 4) }) := by
  simp [State.load, h, hb]

@[simp] theorem wordsWritten_zero (r : OpReg) (j : Nat) : wordsWritten r j 0 = true := by simp [wordsWritten]

theorem wordsWritten_succ {r : OpReg} {j : Nat} {w : OpWord} (hw : r[j]? = some w) (count : Nat) :
    wordsWritten r j (count + 1) = (w.written && wordsWritten r (j + 1) count) := by
  obtain ⟨hj, rfl⟩ := List.getElem?_eq_some_iff.mp hw
  rw [wordsWritten, List.drop_eq_getElem_cons hj, List.take_succ_cons, List.all_cons, wordsWritten]

/-- Settles O51: the words covered give the value, and their flags the mark. -/
theorem unwrittenLoadMarksRun : Obligations.UnwrittenLoadMarksRun := by
  intro s i j w hl hb hj hw
  obtain ⟨-, -, -, hW8, -⟩ := legal_opw8 hl
  have hloc := locate_window i hj
  have h4 := apertureBytes_window (by omega) hj hw
  constructor
  · rw [load_window_of_idle hloc hb, h4, Nat.mul_div_cancel_left j (by omega), Nat.div_self (by omega),
      wordsWritten_succ hw, wordsWritten_zero, Bool.and_true]
  · intro u heven hu
    have h4' := apertureBytes_window (i := i) (by omega) (show 4 * (j + 1) < s.cfg.opw / 8 by omega) hu
    rw [load_window_of_idle hloc hb, apertureBytes_split s _ 4 4, h4, add_assoc _ (4 * j), ← Nat.mul_succ, h4',
      Nat.mul_div_cancel_left j (by omega), show 8 / 4 = 1 + 1 from rfl, wordsWritten_succ hw, wordsWritten_succ hu,
      wordsWritten_zero, Bool.and_true]

/-! ### The cores are hidden -/

section
variable (s : State) (pcg : List PcgCore) (xo : List XoCore)

theorem apertureBytes_cores (off n : Nat) :
    apertureBytes { s with pcg := pcg, xo := xo } off n = apertureBytes s off n := by
  induction n generalizing off with
  | zero => rfl
  | succ n ih =>
    rw [apertureBytes, ih]
    rfl

/-- No load reads or changes a core (R62, R90). -/
theorem load_cores (off n : Nat) : State.load { s with pcg := pcg, xo := xo } off n =
    ((s.load off n).1, { (s.load off n).2 with pcg := pcg, xo := xo }) := by
  simp only [State.load, apertureBytes_cores]
  split
  · split <;> rfl
  · rfl

/-- No store reads a core (R62). -/
theorem store_cores (off n v : Nat) : ∃ pcg' xo',
    State.store { s with pcg := pcg, xo := xo } off n v = { s.store off n v with pcg := pcg', xo := xo' } := by
  unfold State.store
  dsimp only
  split
  · refine ⟨pcg, xo, ?_⟩
    unfold State.issue
    dsimp only
    split <;> rfl
  · exact ⟨pcg, xo, rfl⟩
  · cases hv : v.testBit 1
    · exact ⟨pcg, xo, by simp only [State.storeCtrl_of_not_srst hv]⟩
    · exact ⟨(s.softReset (v.testBit 0)).pcg, (s.softReset (v.testBit 0)).xo,
        by simp only [State.storeCtrl_of_srst hv]; rfl⟩
  · refine ⟨pcg, xo, ?_⟩
    unfold State.storeWindow
    dsimp only
    split <;> rfl
  · exact ⟨pcg, xo, rfl⟩

end

/-- Settles O54: a legal load or store reads no core, and the other accesses only move the model's bookkeeping. -/
theorem coresAreHiddenFromHost : Obligations.CoresAreHiddenFromHost := by
  intro s a pcg xo
  cases a with
  | load addr n =>
    refine ⟨pcg, xo, ?_⟩
    simp only [State.access, load_cores]
    split
    · rfl
    · split <;> rfl
  | store addr n v =>
    unfold State.access
    dsimp only
    split
    · exact ⟨pcg, xo, rfl⟩
    · rename_i off _
      split
      · obtain ⟨pcg', xo', h⟩ := store_cores s pcg xo off n v
        exact ⟨pcg', xo', by rw [h]; rfl⟩
      · exact ⟨pcg, xo, rfl⟩

end Sys2Proof.Machine
end

section
/-! The rules of 20_memory.md about single host accesses: what a load, a store and an access outside the rules of R80 and
R89 do, place by place, and which words and bytes of the operand windows a store covers. -/

namespace Sys2Proof.Machine

open Sys2Proof.Spec

/-! ### Accesses that are no legal loads or stores -/

section
variable {s : State} {addr off n : Nat}

/-- An illegal store gets a bus error (R89). -/
theorem access_store_illegal (v : Nat) (h : off < 0x4000) (hL : ¬((n = 4 ∨ n = 8) ∧ off % n = 0)) :
    s.access (.store (s.cfg.abase + off) n v) = s.record (.store (s.cfg.abase + off) n v) (.busError none) := by
  rw [← legalAccess_iff] at hL
  simp only [State.access, offsetOf_add h, if_neg hL]

/-- An illegal load gets a bus error with a free value (R89). -/
theorem access_load_illegal (h : off < 0x4000) (hL : ¬((n = 4 ∨ n = 8) ∧ off % n = 0)) :
    s.access (.load (s.cfg.abase + off) n) =
      (s.drawFree n).2.record (.load (s.cfg.abase + off) n) (.busError (some (s.drawFree n).1)) := by
  rw [← legalAccess_iff] at hL
  simp only [State.access, offsetOf_add h, if_neg hL]

/-- A store outside the aperture is not decoded (R80). -/
theorem access_store_outside (n v : Nat) (h : addr < s.cfg.abase ∨ s.cfg.abase + 0x4000 ≤ addr) :
    s.access (.store addr n v) = s.record (.store addr n v) .notDecoded := by
  simp only [State.access, offsetOf_eq_none h]

/-- A load outside the aperture is not decoded (R80). -/
theorem access_load_outside (n : Nat) (h : addr < s.cfg.abase ∨ s.cfg.abase + 0x4000 ≤ addr) :
    s.access (.load addr n) = s.record (.load addr n) .notDecoded := by
  simp only [State.access, offsetOf_eq_none h]

end

/-! ### Which offsets are windows -/

section
variable {p : Params}

/-- The windows are the offsets of R82's table. -/
theorem inWindows_of_locate (hl : p.legal = true) {off k : Nat} {i : RegId} (h : locate p off = .window i k) :
    InWindows p off := by
  obtain ⟨-, -, hW, -, -⟩ := legal_opw8 hl
  obtain ⟨hlow, hhigh⟩ := inWindow_of_locate hl h
  have := Nat.mul_le_mul_right (p.opw / 8) (show i.val + 1 ≤ 8 by omega)
  constructor <;> omega

/-- Only the window offsets are places of a window (R82). -/
theorem locate_ne_window (hl : p.legal = true) {off : Nat} (h : ¬InWindows p off) (i : RegId) (k : Nat) :
    locate p off ≠ .window i k :=
  fun hloc => h (inWindows_of_locate hl hloc)

/-- The windows lie inside the aperture (R82). -/
theorem lt_aperture_of_inWindows (hl : p.legal = true) {off : Nat} (h : InWindows p off) : off < 0x4000 := by
  obtain ⟨-, -, hopw⟩ := Params.legal_opw hl
  obtain ⟨-, hhigh⟩ := h
  omega

/-- No legal access from outside the windows reaches into them: they start and end at multiples of 8 (R82, R89). -/
theorem not_inWindows_add (hl : p.legal = true) {off n k : Nat} (h : ¬InWindows p off) (hn : n = 4 ∨ n = 8)
    (ha : off % n = 0) (hk : k < n) : ¬InWindows p (off + k) := by
  obtain ⟨-, -, hW, -, -⟩ := legal_opw8 hl
  unfold InWindows at h ⊢
  rcases hn with rfl | rfl <;> omega

/-- The byte offset of a window's byte (R82, R86). -/
theorem offset_of_locate_eq_window {off k : Nat} {i : RegId} (h : locate p off = .window i k) :
    off = 0x1000 + i.val * (p.opw / 8) + k := by
  obtain ⟨hlow, hi, hk⟩ := locate_eq_window h
  have := Nat.div_add_mod (off - 0x1000) (p.opw / 8)
  rw [hi, ← hk, mul_comm] at this
  omega

end

/-! ### Loads and stores, place by place -/

section
variable {s : State} {off n : Nat}

/-- A load from outside the windows has no effect (R90). -/
theorem load_of_not_window (h : ∀ i k, locate s.cfg off ≠ .window i k) : s.load off n = (apertureBytes s off n, s) := by
  unfold State.load
  split
  · exact absurd ‹_› (h _ _)
  · rfl

/-- A busy block's load of a window offset (R91). -/
theorem load_window_of_busy {i : RegId} {k : Nat} (h : locate s.cfg off = .window i k) (hb : s.busy = true) :
    s.load off n = ((s.drawFree n).1, (s.drawFree n).2.setHaz) := by
  simp [State.load, h, hb]

/-- An idle block's load of window words that are all written has no effect (R34, R90). -/
theorem load_window_of_written {i : RegId} {k : Nat} (h : locate s.cfg off = .window i k) (hb : s.busy = false)
    (hw : wordsWritten s.x[i] (k / 4) (n / 4) = true) : s.load off n = (apertureBytes s off n, s) := by
  rw [load_window_of_idle h hb, hw, Bool.not_true, Bool.or_false]

theorem store_window {i : RegId} {k : Nat} (h : locate s.cfg off = .window i k) (v : Nat) :
    s.store off n v = s.storeWindow i k n v := by
  simp [State.store, h]

/-- Only CMD, STATUS, CTRL and the windows take stores (R40, R43, R83). -/
theorem store_ignored (v : Nat) (hcmd : off ≠ 0x010) (hstatus : off ≠ 0x018) (hctrl : off ≠ 0x020)
    (hw : ∀ i k, locate s.cfg off ≠ .window i k) : s.store off n v = s := by
  rcases store_cases s off n v with ⟨h, -⟩ | ⟨h, -⟩ | ⟨h, -⟩ | ⟨i, k, h, -⟩ | e
  · exact absurd h hcmd
  · exact absurd h hstatus
  · exact absurd h hctrl
  · exact absurd h (hw i k)
  · exact e

theorem storeCtrl_haz_of_clear {w : Nat} (h : s.haz = false) : (s.storeCtrl w).haz = false := by
  cases hw : w.testBit 1
  · rw [State.storeCtrl_of_not_srst hw]
    exact h
  · rw [State.storeCtrl_of_srst hw, State.softReset_haz]

/-- A store that is neither an issue nor to a window does not set HAZ (R54, R91). -/
theorem store_haz_of_clear (v : Nat) (hcmd : off ≠ 0x010) (hw : ∀ i k, locate s.cfg off ≠ .window i k)
    (h : s.haz = false) : (s.store off n v).haz = false := by
  rcases store_cases s off n v with ⟨he, -⟩ | ⟨-, e⟩ | ⟨-, e⟩ | ⟨i, k, hi, -⟩ | e
  · exact absurd he hcmd
  · rw [e, State.storeStatus_haz, h, Bool.false_and]
  · rw [e, storeCtrl_haz_of_clear h]
  · exact absurd hi (hw i k)
  · rw [e, h]

/-- A busy block drops a window store and an issue, and sets HAZ (R91). -/
theorem store_of_busy (hl : s.cfg.legal = true) (hb : s.busy = true) (v : Nat) (h : InWindows s.cfg off ∨ off = 0x010) :
    s.store off n v = s.setHaz := by
  rcases h with h | rfl
  · obtain ⟨i, k, hk, rfl⟩ := exists_window hl h
    rw [store_window (locate_window i hk), State.storeWindow_of_busy hb]
  · rw [store_cmd, State.issue_of_busy hb]

end

/-! ### The words and bytes a window store covers -/

/-- The words a store sets have their written flags set (R34, R86). -/
theorem wordsWritten_regSetWords {r : OpReg} {j c : Nat} (h : j + c ≤ r.length) (v : Nat) :
    wordsWritten (regSetWords r j c v) j c = true := by
  rw [wordsWritten, List.all_eq_true]
  intro w hw
  obtain ⟨m, hm⟩ := List.mem_iff_getElem?.mp hw
  rw [List.getElem?_take] at hm
  split at hm
  · rename_i hmc
    rw [List.getElem?_drop, regSetWords_get hmc h] at hm
    cases hm
    rfl
  · cases hm

theorem regByte_congr {r q : OpReg} {k : Nat} (h : r[k / 4]? = q[k / 4]?) : regByte r k = regByte q k := by
  unfold regByte
  rw [h]

@[simp] theorem storeWindow_cfg (s : State) (i : RegId) (k n v : Nat) : (s.storeWindow i k n v).cfg = s.cfg := by
  unfold State.storeWindow
  split <;> rfl

@[simp] theorem storeWindow_busy (s : State) (i : RegId) (k n v : Nat) : (s.storeWindow i k n v).busy = s.busy := by
  unfold State.storeWindow
  split <;> rfl

section
variable {s : State} (hb : s.busy = false) (i : RegId) (k n v : Nat)
include hb

theorem storeWindow_get_self : (s.storeWindow i k n v).x[i] = regSetWords s.x[i] (k / 4) (n / 4) v := by
  simp [State.storeWindow_of_idle hb]

/-- A window store leaves every word of every register that it does not cover (R86). -/
theorem storeWindow_word_of_not_covered {r : RegId} {m : Nat} (h : r = i → m < k / 4 ∨ k / 4 + n / 4 ≤ m) :
    (s.storeWindow i k n v).x[r][m]? = s.x[r][m]? := by
  by_cases hr : r = i
  · subst hr
    rw [storeWindow_get_self hb]
    exact (h rfl).elim regSetWords_get_lt regSetWords_get_ge
  · rw [State.storeWindow_of_idle hb]
    exact congrArg (·[m]?) (Vector.getElem_set_ne i.isLt r.isLt fun e => hr (Fin.ext e.symm))

/-- A word that a window store covers gets its part of the value, and its flag (R34, R86). -/
theorem storeWindow_word_of_covered {m : Nat} (hlen : k / 4 + n / 4 ≤ s.x[i].length) (hlow : k / 4 ≤ m)
    (hhigh : m < k / 4 + n / 4) : (s.storeWindow i k n v).x[i][m]? = some ⟨wordOf v (m - k / 4), true⟩ := by
  obtain ⟨d, rfl⟩ := Nat.exists_eq_add_of_le hlow
  rw [storeWindow_get_self hb, Nat.add_sub_cancel_left]
  exact regSetWords_get (by omega) hlen

/-- A window store leaves every byte of the aperture that does not lie in a word it covers (R84, R86). -/
theorem storeWindow_byte_of_not_covered {a : Nat}
    (h : ∀ m, locate s.cfg a = .window i m → m / 4 < k / 4 ∨ k / 4 + n / 4 ≤ m / 4) :
    apertureByte (s.storeWindow i k n v) a = apertureByte s a := by
  have hword : ∀ r m, locate s.cfg a = .window r m →
      regByte (s.storeWindow i k n v).x[r] m = regByte s.x[r] m := fun r m hp =>
    regByte_congr (storeWindow_word_of_not_covered hb i k n v fun hr => h m (hr ▸ hp))
  rw [State.storeWindow_of_idle hb] at hword ⊢
  unfold apertureByte
  dsimp only
  cases hp : locate s.cfg a with
  | window r m => exact hword r m hp
  | id | cfg | cmd | status | ctrl | reserved => rfl

end

end Sys2Proof.Machine
end

section
/-! The statements of 20_memory.md. -/

namespace Sys2Proof.Machine

open Sys2Proof.Spec

/-! ### Turns, halves and accesses that are not legal -/

/-- The step on a host turn (R80, R93; log entry 11). -/
theorem step_host_turn {s : State} {a : Access} {rest : List Turn} (h : s.turns = .host a :: rest) :
    step s = if a.fits then .next (State.access { s with turns := rest } a) else .fault .storeTooWide := by
  unfold step
  rw [h]

/-- Settles O10: whether the value fits decides. -/
theorem hostTurnPerformsItsAccess : Obligations.HostTurnPerformsItsAccess := by
  intro s a rest h
  rw [step_host_turn h]
  constructor <;> intro hf <;> simp [hf]

/-- Settles O47: reading is additive in the number of bytes. -/
theorem eightByteReadIsTwoHalves : Obligations.EightByteReadIsTwoHalves :=
  fun s off => ⟨apertureBytes_split s off 4 4, apertureBytes_lt s off 4⟩

/-- Settles O49: a bus error inside the aperture, and outside it no decoding, move the model's bookkeeping alone. -/
theorem illegalAccessChangesNoState : Obligations.IllegalAccessChangesNoState := by
  intro s addr n v
  constructor
  · rintro off rfl hoff hL
    exact ⟨access_store_illegal v hoff hL, access_load_illegal hoff hL⟩
  · intro h
    exact ⟨access_store_outside n v h, access_load_outside n h⟩

/-! ### Loads -/

/-- Settles O50: of all a load can do, only a busy block's window load touches HAZ. -/
theorem loadsHaveNoSideEffects : Obligations.LoadsHaveNoSideEffects := by
  intro s addr n
  rcases access_cases s (.load addr n) with ⟨r, e⟩ | ⟨m, r, e⟩ | ⟨off, m, r, ha, -, -, -, e⟩ | ⟨off, m, v, r, ha, -⟩
  · rw [e]
    exact ⟨_, _, _, rfl, fun h => absurd rfl h⟩
  · rw [e]
    exact ⟨_, _, _, rfl, fun h => absurd rfl h⟩
  · cases ha
    rw [e]
    rcases load_cases s off n with ⟨i, k, hi, hb, e⟩ | ⟨mark, e⟩ <;> rw [e]
    · exact ⟨_, _, _, rfl, fun _ => ⟨hb, i, k, by rwa [Nat.add_sub_cancel_left]⟩⟩
    · exact ⟨_, _, _, rfl, fun h => absurd rfl h⟩
  · cases ha

/-- Settles O48: the reserved offsets are all from 0x028 on but the windows, and a store to one, as to ID, CFG and the upper
half of CMD, is to none of the places that take stores. -/
theorem reservedOffsetsReadZeroIgnoreWrites : Obligations.ReservedOffsetsReadZeroIgnoreWrites := by
  intro s off n v hl _ hn ha
  constructor
  · intro hoff hw
    have hne := locate_ne_window hl hw
    have hzero : apertureBytes s off n = 0 := apertureBytes_reserved fun k hk =>
      locate_reserved hl (by omega) (not_inWindows_add hl hw hn ha hk)
    exact ⟨by rw [load_of_not_window hne, hzero], store_ignored v (by omega) (by omega) (by omega) hne⟩
  · intro hoff
    have hw : ¬InWindows s.cfg off := by
      unfold InWindows
      omega
    exact store_ignored v (by omega) (by omega) (by omega) (locate_ne_window hl hw)

/-! ### The operand windows -/

/-- Settles O40: the two hazards of a store, the hazard of a load, and the accesses that are none. -/
theorem busyHazards : Obligations.BusyHazards := by
  intro s off n v hb hl hoff hn ha
  rw [access_store hoff hn ha, access_load hoff hn ha]
  refine ⟨fun h => ?_, fun h => ?_, fun h => ?_, fun h hcmd hhaz => ?_⟩
  · rw [store_of_busy hl hb v h]
    rfl
  · obtain ⟨i, k, hk, rfl⟩ := exists_window hl h
    rw [load_window_of_busy (locate_window i hk) hb]
    rfl
  · rw [load_of_not_window (locate_ne_window hl h)]
    rfl
  · exact store_haz_of_clear v hcmd (locate_ne_window hl h) hhaz

/-- Settles O45: the words the load covers are those the store wrote, with their flags. -/
theorem windowLoadReturnsStoredValue : Obligations.WindowLoadReturnsStoredValue := by
  intro s off n v hI hb hw hn ha hv
  have hl := hI.cfgLegal
  refine ⟨access_store (lt_aperture_of_inWindows hl hw) hn ha, ?_⟩
  obtain ⟨i, j, hj, rfl, hloc⟩ := exists_window_words hl hw hn ha
  obtain ⟨-, -, -, -, h32⟩ := legal_opw8 hl
  have hj4 : 4 * j / 4 = j := Nat.mul_div_cancel_left j (by omega)
  have hwritten : wordsWritten (s.storeWindow i (4 * j) n v).x[i] (4 * j / 4) (n / 4) = true := by
    rw [storeWindow_get_self hb]
    refine wordsWritten_regSetWords ?_ v
    rw [hI.regLength i]
    omega
  have hread := apertureBytes_store hn hl (hI.regLength i) hj hv
  rw [store_window hloc, load_window_of_written (by rwa [storeWindow_cfg]) (by rwa [storeWindow_busy]) hwritten,
    State.storeWindow_of_idle hb, hj4, hread]

/-- Settles O46: an offset names one byte of one register, so the offsets covered are those of the words covered. -/
theorem windowStoreFrame : Obligations.WindowStoreFrame := by
  intro s off n v hI hb hw hn ha
  have hl := hI.cfgLegal
  obtain ⟨i, j, hj, rfl, hloc⟩ := exists_window_words hl hw hn ha
  obtain ⟨-, -, -, -, h32⟩ := legal_opw8 hl
  rw [store_window hloc]
  refine ⟨by rw [State.storeWindow_of_idle hb], fun a hout => ?_,
    fun r m a hm hra => ⟨fun hout => ?_, fun hlow hhigh => ?_⟩⟩
  · refine storeWindow_byte_of_not_covered hb i _ n v fun d hd => ?_
    have := offset_of_locate_eq_window hd
    omega
  · refine storeWindow_word_of_not_covered hb i _ n v fun hr => ?_
    subst hr
    omega
  · obtain ⟨d, rfl⟩ := Nat.exists_eq_add_of_le hlow
    have hplace := locate_window (p := s.cfg) i (k := 4 * j + d) (by omega)
    rw [← add_assoc, hra, locate_window r (by omega)] at hplace
    obtain ⟨rfl, hd⟩ := Place.window.inj hplace
    have hword := storeWindow_word_of_covered hb r (4 * j) n v (m := m) (by rw [hI.regLength r]; omega) (by omega)
      (by omega)
    exact ⟨_, hword, rfl⟩

end Sys2Proof.Machine
end

section
/-! The command encoding (30_encoding.md): the words of a row of the opcode map (R125) are the encodings of its commands,
no word matches two rows, and so the row a word matches says what the decoder (R129) reads. -/

namespace Sys2Proof

open Sys2Proof.Spec

/-! ### The fields of a word (R121) -/

/-- A word is its fields, from OP down to Z. -/
theorem packWord_fields {c : Word32} (hz : c.extractLsb' 0 6 = 0#6) :
    packWord (fieldOP c) (fieldRD c) (fieldRA c) (fieldRB c) (fieldRC c) (fieldE c) (fieldF c) (fieldS c) = c := by
  have bits3_toFin (x : BitVec 3) : bits3 x.toFin = x := rfl
  simp only [packWord, fieldOP, fieldRD, fieldRA, fieldRB, fieldRC, fieldE, fieldF, fieldS, bits3_toFin]
  rw [← hz]
  iterate 8 rw [BitVec.extractLsb'_append_extractLsb'_eq_extractLsb' (by rfl)]
  exact BitVec.extractLsb'_eq_self

/-- A word that matches a row has the row's bits wherever the mask is set. -/
theorem extractLsb'_of_match {c mask pat : Word32} (h : c &&& mask = pat) {start len : Nat}
    (hm : mask.extractLsb' start len = BitVec.allOnes len) : c.extractLsb' start len = pat.extractLsb' start len := by
  rw [← h, BitVec.extractLsb'_and, hm, BitVec.and_allOnes]

/-! ### The rows of the opcode map (R124, R125) -/

/-- A row fixes OP, S and Z, with Z zero, and each operand field as a whole or not at all. -/
structure Row.FixesFields (r : Row) : Prop where
  op : r.mask.extractLsb' 26 6 = BitVec.allOnes 6
  src : r.mask.extractLsb' 6 2 = BitVec.allOnes 2
  z : r.mask.extractLsb' 0 6 = BitVec.allOnes 6
  zZero : r.pat.extractLsb' 0 6 = 0#6
  operand : ∀ start ∈ [23, 20, 17, 14, 11, 8],
    r.mask.extractLsb' start 3 = 0#3 ∨ r.mask.extractLsb' start 3 = BitVec.allOnes 3

theorem Row.fixesFields {r : Row} (hr : r ∈ opcodeMap) : r.FixesFields := by
  constructor
  all_goals
    revert r
    decide

/-- The operand field at bit `start` that a row makes of a word: the row's own where it fixes the field, else the word's. -/
def Row.operand (r : Row) (c : Word32) (start : Nat) : Fin 8 :=
  if r.mask.extractLsb' start 3 = 0#3 then (c.extractLsb' start 3).toFin else (r.pat.extractLsb' start 3).toFin

/-- The word that a row makes of another: the row's own fields where it fixes them, else the other word's. -/
def Row.fill (r : Row) (c : Word32) : Word32 :=
  packWord (fieldOP r.pat) (r.operand c 23) (r.operand c 20) (r.operand c 17) (r.operand c 14) (r.operand c 11)
    (r.operand c 8) (fieldS r.pat)

/-- The encoder fills in the fields that the row's command does not name as the row has them (R124). -/
theorem encode_build (c : Word32) : ∀ r ∈ opcodeMap, encode (r.build c) = r.fill c := by
  simp only [opcodeMap, rowsArithmetic, rowsPcg, rowsXo, rowsFloat, List.cons_append, List.nil_append,
    List.forall_mem_cons, List.not_mem_nil, false_imp_iff, implies_true, and_true]
  exact ⟨rfl, rfl, rfl, rfl, rfl, rfl, rfl, rfl, rfl, rfl, rfl, rfl, rfl, rfl, rfl, rfl, rfl⟩

section
variable {r : Row} {c : Word32} (hr : r ∈ opcodeMap) (h : c &&& r.mask = r.pat)
include hr h

theorem Row.operand_of_match {start : Nat} (hs : start ∈ [23, 20, 17, 14, 11, 8]) :
    r.operand c start = (c.extractLsb' start 3).toFin := by
  unfold Row.operand
  split
  · rfl
  · rename_i hfixed
    rw [extractLsb'_of_match h (((Row.fixesFields hr).operand start hs).resolve_left hfixed)]

theorem Row.fieldOP_of_match : fieldOP c = fieldOP r.pat := extractLsb'_of_match h (Row.fixesFields hr).op

theorem Row.fieldS_of_match : fieldS c = fieldS r.pat := extractLsb'_of_match h (Row.fixesFields hr).src

/-- A word that matches a row has nothing for the row to fill in. -/
theorem Row.fill_of_match : r.fill c = c := by
  have hz : c.extractLsb' 0 6 = 0#6 := (extractLsb'_of_match h (Row.fixesFields hr).z).trans (Row.fixesFields hr).zZero
  rw [Row.fill, ← Row.fieldOP_of_match hr h, ← Row.fieldS_of_match hr h]
  iterate 6 rw [Row.operand_of_match hr h (by decide)]
  exact packWord_fields hz

end

/-- OP as a number is the field OP. -/
theorem opOf_eq_fieldOP (c : Word32) : opOf c = (fieldOP c).toNat := by
  have := c.isLt
  rw [opOf, fieldOP, BitVec.extractLsb'_toNat, Nat.shiftRight_eq_div_pow]
  omega

/-- No two rows overlap (R125). -/
theorem opcodeMap_disjoint : opcodeMap.Pairwise fun r q => r.pat &&& q.mask ≠ q.pat &&& r.mask := by decide

/-! ### The decoder by the row a word matches (R129) -/

section
variable {npcg nxo : Nat} {c : Word32}

/-- A word that matches a row decodes to the row's command when its cores are there (R128, R129). -/
theorem decode_of_match {k : Nat} {r : Row} (hk : opcodeMap[k]? = some r) (h : c &&& r.mask = r.pat) :
    decode npcg nxo c = if (r.build c).coresPresent npcg nxo then .ok (r.build c) else .error .coreAbsent := by
  have hfind : opcodeMap.find? (fun r => c &&& r.mask == r.pat) = some r := by
    obtain ⟨hlt, rfl⟩ := List.getElem?_eq_some_iff.mp hk
    refine List.find?_eq_some_iff_getElem.mpr ⟨beq_iff_eq.mpr h, k, hlt, rfl, fun j hj => ?_⟩
    have hne := List.pairwise_iff_getElem.mp opcodeMap_disjoint j k (hj.trans hlt) hlt hj
    rw [← h] at hne
    simp only [Bool.not_eq_true', beq_eq_false_iff_ne]
    intro hq
    refine hne ?_
    rw [← hq, BitVec.and_assoc, BitVec.and_assoc, BitVec.and_comm opcodeMap[j].mask]
  simp [decode, hfind]

/-- A word that decodes matches a row, and the row gives its command (R129). -/
theorem exists_row_of_decode {i : Instr} (h : decode npcg nxo c = .ok i) :
    ∃ r ∈ opcodeMap, c &&& r.mask = r.pat ∧ r.build c = i ∧ i.coresPresent npcg nxo = true := by
  unfold decode at h
  split at h
  · rename_i r hfind
    split at h
    · rename_i hcores
      cases h
      exact ⟨r, List.mem_of_find?_eq_some hfind, by simpa using List.find?_some hfind, rfl, hcores⟩
    · cases h
  · cases h

/-- A word is rejected when no row matches it, and only a row with its OP and S can (R130). -/
theorem decode_error_of_no_row
    (h : ∀ r ∈ opcodeMap, opOf c = opOf r.pat → fieldS c = fieldS r.pat → c &&& r.mask ≠ r.pat) :
    ∃ why, decode npcg nxo c = .error why := by
  cases hd : decode npcg nxo c with
  | error why => exact ⟨why, rfl⟩
  | ok i =>
    obtain ⟨r, hr, hm, -⟩ := exists_row_of_decode hd
    have hop : opOf c = opOf r.pat := by rw [opOf_eq_fieldOP, opOf_eq_fieldOP, Row.fieldOP_of_match hr hm]
    exact absurd hm (h r hr hop (Row.fieldS_of_match hr hm))

end

/-- Every command's word matches a row that builds the command back (R124, R125). -/
theorem encode_matches_row : ∀ i : Instr, Laws.RowMatch.Statement i
  | .residue rd ra rb => Laws.RowMatch.residue rd ra rb
  | .modpow rd ra rb rc => Laws.RowMatch.modpow rd ra rb rc
  | .jacobi rd ra rb => Laws.RowMatch.jacobi rd ra rb
  | .mr2 rd ra => Laws.RowMatch.mr2 rd ra
  | .pcgSeed e ra => Laws.RowMatch.pcgSeed e ra
  | .pcgDflt e => Laws.RowMatch.pcgDflt e
  | .pcgNext rd e => Laws.RowMatch.pcgNext rd e
  | .pcgBnd32 rd e ra => Laws.RowMatch.pcgBnd32 rd e ra
  | .xoSeed e ra => Laws.RowMatch.xoSeed e ra
  | .xoDflt e => Laws.RowMatch.xoDflt e
  | .xoNext rd e => Laws.RowMatch.xoNext rd e
  | .xoBnd64 rd e ra => Laws.RowMatch.xoBnd64 rd e ra
  | .xoBnd32 rd e ra => Laws.RowMatch.xoBnd32 rd e ra
  | .flt32P rd e => Laws.RowMatch.flt32P rd e
  | .flt32X rd e => Laws.RowMatch.flt32X rd e
  | .flt64X rd e => Laws.RowMatch.flt64X rd e
  | .flt64PP rd e f => Laws.RowMatch.flt64PP rd e f

/-- The decoder accepts a command's word exactly when the command's cores are there (R128, R129). -/
theorem decode_encode (npcg nxo : Nat) (i : Instr) :
    decode npcg nxo (encode i) = if i.coresPresent npcg nxo then .ok i else .error .coreAbsent := by
  obtain ⟨k, r, hk, hm, hb⟩ := encode_matches_row i
  rw [decode_of_match hk hm, hb]

/-- Settles O1: the command's word matches its own row alone. -/
theorem decodeReadsEncodedCommand : Obligations.DecodeReadsEncodedCommand := by
  intro npcg nxo i h
  rw [decode_encode, if_pos h]

/-- Settles O2: the row that the word matches fixes every field that its command does not name. -/
theorem decodedWordIsItsEncoding : Obligations.DecodedWordIsItsEncoding := by
  intro npcg nxo c i h
  obtain ⟨r, hr, hm, rfl, hcores⟩ := exists_row_of_decode h
  exact ⟨(encode_build c r hr).trans (Row.fill_of_match hr hm), hcores⟩

/-- On a block of the default core counts a command's word decodes to it when its cores are there (log entry 22). -/
theorem decodeTableWord_encode {i : Instr} (h : i.coresPresent 2 1 = true) :
    decodeTableWord 32 (encode i).toNat = some i := by
  have hw : BitVec.ofNat 32 ((encode i).toNat % 2 ^ 32) = encode i := by
    rw [Nat.mod_eq_of_lt (encode i).isLt, BitVec.ofNat_toNat, BitVec.setWidth_eq]
  rw [decodeTableWord, hw, show Config.default.npcg = 2 from rfl, show Config.default.nxo = 1 from rfl, decode_encode,
    if_pos h]
  rfl

/-- Settles O4: the words are the encodings of their commands. -/
theorem exampleWordsDecode : Obligations.ExampleWordsDecode :=
  ⟨decodeTableWord_encode (i := .residue 2 0 1) rfl, decodeTableWord_encode (i := .modpow 3 0 1 2) rfl,
    decodeTableWord_encode (i := .jacobi 4 0 1) rfl, decodeTableWord_encode (i := .mr2 5 0) rfl,
    decodeTableWord_encode (i := .pcgSeed 1 0) rfl, decodeTableWord_encode (i := .xoSeed 0 4) rfl,
    decodeTableWord_encode (i := .pcgDflt 1) rfl, decodeTableWord_encode (i := .pcgNext 1 1) rfl,
    decodeTableWord_encode (i := .xoNext 6 0) rfl, decodeTableWord_encode (i := .pcgBnd32 2 0 3) rfl,
    decodeTableWord_encode (i := .xoBnd64 7 0 5) rfl, decodeTableWord_encode (i := .flt64PP 1 0 1) rfl⟩

/-! ### Illegal words (R130) -/

/-- A row holds its format's unused bits at zero (R124). -/
theorem row_clears_unusedBits : ∀ r ∈ opcodeMap, ∀ u ∈ unusedBits, opOf r.pat = u.1 →
    r.mask &&& u.2 = u.2 ∧ r.pat &&& u.2 = 0 := by decide

/-- The opcodes that R125 leaves unassigned have no row. -/
theorem row_op_assigned : ∀ r ∈ opcodeMap, ¬(opOf r.pat = 0 ∨ opOf r.pat ∈ List.range' 0x05 11 ∨
    opOf r.pat ∈ List.range' 0x14 4 ∨ opOf r.pat ∈ List.range' 0x1D 3 ∨ opOf r.pat ∈ List.range' 0x22 30) := by decide

/-- The rows of OP 0x20 have S 0 or 1 (R127). -/
theorem row_source_float32 : ∀ r ∈ opcodeMap, opOf r.pat = 0x20 → ¬(fieldS r.pat = 2 ∨ fieldS r.pat = 3) := by decide

/-- The rows of OP 0x21 have S 1 or 2 (R127). -/
theorem row_source_float64 : ∀ r ∈ opcodeMap, opOf r.pat = 0x21 → ¬(fieldS r.pat = 0 ∨ fieldS r.pat = 3) := by decide

/-- The row of OP 0x21 with S = 1 holds F at zero (R124, R127). -/
theorem row_clears_F : ∀ r ∈ opcodeMap, opOf r.pat = 0x21 → fieldS r.pat = 1 →
    r.mask.extractLsb' 8 3 = BitVec.allOnes 3 ∧ fieldF r.pat = 0 := by decide

/-- Settles O3: no row is compatible with the fault of the word, and a word whose cores alone are at fault is a command's. -/
theorem illegalWordsAreRejected : Obligations.IllegalWordsAreRejected := by
  intro npcg nxo c
  refine ⟨fun h => decode_error_of_no_row fun r hr hop _ _ => ?_,
    fun op mask hu h hne => decode_error_of_no_row fun r hr hop _ hm => hne ?_,
    fun h hS => decode_error_of_no_row fun r hr hop hsrc _ => ?_,
    fun h hS => decode_error_of_no_row fun r hr hop hsrc _ => ?_,
    fun h hS hF => decode_error_of_no_row fun r hr hop hsrc hm => hF ?_,
    fun i hi => ⟨.coreAbsent, by rw [decode_encode, hi]; rfl⟩⟩
  · exact row_op_assigned r hr (hop ▸ h)
  · obtain ⟨hmask, hpat⟩ := row_clears_unusedBits r hr (op, mask) hu (hop ▸ h)
    calc c &&& mask = c &&& r.mask &&& mask := by rw [BitVec.and_assoc, hmask]
      _ = 0 := by rw [hm, hpat]
  · exact row_source_float32 r hr (hop ▸ h) (hsrc ▸ hS)
  · exact row_source_float64 r hr (hop ▸ h) (hsrc ▸ hS)
  · obtain ⟨hmask, hF⟩ := row_clears_F r hr (hop ▸ h) (hsrc ▸ hS)
    rw [← hF, fieldF, extractLsb'_of_match hm hmask, fieldF]

end Sys2Proof
end

section
/-! What the engine makes of a word that is no command (30_encoding.md R132), and the host pseudo-operations WAIT and WRX
(R143, R144). -/

namespace Sys2Proof.Machine

open Sys2Proof.Spec

/-! ### Illegal words -/

theorem engineMove_of_illegal {s : State} {why : Illegal} (hb : s.busy = true)
    (hd : decode s.cfg.npcg s.cfg.nxo s.pending = .error why) : s.engineMove = s.errorCompletion .illegal := by
  have hstep : engineStep s = .next (s.errorCompletion .illegal) := by rw [engineStep, hd]
  exact Host.Outcome.next.inj ((engineStep_eq hb).symm.trans hstep)

/-- Settles O8: the engine's move on such a word is the error completion. -/
theorem illegalCommandChangesOnlyStatus : Obligations.IllegalCommandChangesOnlyStatus := by
  intro s why rest hb ht hd
  rw [step_engine_turn ht, engineMove_of_illegal hb hd]
  rfl

/-! ### WAIT (R144) -/

/-- What a poll of STATUS leaves: the history alone has moved. -/
def State.polled (s : State) : State := s.record (hostPoll s.cfg) (.loaded s.statusWord.toNat)

theorem memRead_status_eq_polled (s : State) : s.memRead 0x018 8 = (s.statusWord.toNat, s.polled) := memRead_status s

theorem polled_iterate_busy (s : State) (n : Nat) : (State.polled^[n] s).busy = s.busy := by
  induction n generalizing s with
  | zero => rfl
  | succ n ih => exact ih s.polled

/-- On an idle block the first poll ends WAIT. -/
theorem wait_of_idle {s : State} (hb : s.busy = false) (n : Nat) : s.wait n = s.memRead 0x018 8 := by
  cases n with
  | zero => rw [State.wait, engineMove_of_idle hb]
  | succ n => rw [wait_succ, hb, if_neg Bool.false_ne_true]

/-- On a busy block WAIT ends with the poll after the engine's move. -/
theorem wait_of_busy {s : State} (hb : s.busy = true) (n : Nat) :
    s.wait n = (State.polled^[n] s).engineMove.memRead 0x018 8 := by
  induction n generalizing s with
  | zero => rfl
  | succ n ih =>
    rw [wait_succ, if_pos hb, memRead_status_eq_polled]
    exact ih hb

/-- STATUS[0] is BUSY (R50). -/
theorem statusWord_getLsbD_zero (s : State) : s.statusWord.getLsbD 0 = s.busy := by
  have h := waitEnds_status s
  rw [waitEnds, BitVec.testBit_toNat] at h
  exact Bool.not_inj h

/-- Settles O60, by induction on the polls that show BUSY = 1; the engine's move leaves BUSY = 0. -/
theorem waitEndsWithStatusOfIdleBlock : Obligations.WaitEndsWithStatusOfIdleBlock := by
  intro s n polled
  refine ⟨fun hb => ?_, fun hb => ?_⟩
  · rw [wait_of_idle hb, memRead_status]
  · have hbusy : (State.polled^[n] s).busy = true := (polled_iterate_busy s n).trans hb
    refine ⟨_, engineStep_eq hbusy, ?_, ?_⟩
    · exact (wait_of_busy hb n).trans (memRead_status_eq_polled _)
    · rw [statusWord_getLsbD_zero, engineMove_busy]

/-! ### WRX (R143) -/

/-- Storing two runs of words one after the other is storing them at once (R86). -/
theorem regSetWords_add (a b : Nat) (r : OpReg) (j v : Nat) :
    regSetWords r j (a + b) v = regSetWords (regSetWords r j a v) (j + a) b (v / 2 ^ (32 * a)) := by
  induction a generalizing r j v with
  | zero => simp [regSetWords]
  | succ a ih =>
    rw [Nat.add_right_comm, regSetWords, ih, regSetWords, Nat.div_div_eq_div_mul, ← pow_add, add_right_comm j, add_assoc j,
      Nat.mul_succ, Nat.add_comm 32]

/-- A store of `c` words looks at no more than their bits (R86). -/
theorem regSetWords_mod (c : Nat) (r : OpReg) (j v : Nat) : regSetWords r j c (v % 2 ^ (32 * c)) = regSetWords r j c v := by
  induction c generalizing r j v with
  | zero => rfl
  | succ c ih =>
    have hlow : BitVec.ofNat 32 (v % 2 ^ (32 * (c + 1))) = BitVec.ofNat 32 v :=
      BitVec.eq_of_toNat_eq (Nat.mod_mod_of_dvd v (pow_dvd_pow 2 (by omega)))
    have hhigh : v % 2 ^ (32 * (c + 1)) / 2 ^ 32 = v / 2 ^ 32 % 2 ^ (32 * c) := by
      rw [Nat.mul_succ, Nat.add_comm, pow_add, Nat.mod_mul_right_div_self]
    rw [regSetWords, hlow, hhigh, ih, regSetWords]

theorem regOfNat_get {c m : Nat} (u : Nat) (h : m < c) : (regOfNat c u)[m]? = some ⟨wordOf u m, true⟩ := by
  induction c generalizing u m with
  | zero => omega
  | succ c ih =>
    cases m with
    | zero => simp [regOfNat, wordOf]
    | succ m =>
      rw [regOfNat, List.getElem?_cons_succ, ih _ (by omega), wordOf, wordOf, Nat.div_div_eq_div_mul, ← pow_add,
        Nat.mul_succ, Nat.add_comm 32]

/-- Storing all words of a register leaves nothing of its old content (R86). -/
theorem regSetWords_all (r : OpReg) (v : Nat) : regSetWords r 0 r.length v = regOfNat r.length v := by
  refine List.ext_getElem? fun m => ?_
  by_cases hm : m < r.length
  · have hword := regSetWords_get (r := r) (j := 0) (v := v) hm (by omega)
    rw [Nat.zero_add] at hword
    rw [hword, regOfNat_get v hm]
  · rw [List.getElem?_eq_none (by rw [regSetWords_length]; omega), List.getElem?_eq_none (by rw [regOfNat_length]; omega)]

/-- An idle block takes an 8-byte store to a window (R86). -/
theorem access_store_windowOffset {s : State} {i : RegId} {j : Nat} (hl : s.cfg.legal = true) (hb : s.busy = false)
    (hj : j < s.cfg.opw / 64) (v : Nat) :
    s.access (.store (windowAddr s.cfg i j) 8 v) =
      State.record { s with x := s.x.set i (regSetWords s.x[i] (2 * j) 2 v) } (.store (windowAddr s.cfg i j) 8 v) .stored := by
  obtain ⟨-, hW, hopw, hW8, -⟩ := legal_opw8 hl
  have hmul : i.val * (s.cfg.opw / 8) ≤ 7 * (s.cfg.opw / 8) := Nat.mul_le_mul_right _ (by omega)
  have halign : i.val * (s.cfg.opw / 8) % 8 = 0 := by rw [Nat.mul_mod, hW8, Nat.mul_zero, Nat.zero_mod]
  have hloc : locate s.cfg (windowOffset s.cfg i j) = .window i (8 * j) := locate_window i (by omega)
  have hoff : windowOffset s.cfg i j < 0x4000 ∧ windowOffset s.cfg i j % 8 = 0 := by
    unfold windowOffset
    omega
  rw [windowAddr, access_store hoff.1 (.inr rfl) hoff.2, store_window hloc, State.storeWindow_of_idle hb,
    show 8 * j / 4 = 2 * j by omega]

/-- WRX's store of 8-byte word `j` of the number `u` (R143). -/
def wrxStore (p : Params) (i : RegId) (u j : Nat) : Access :=
  .store (windowAddr p i j) 8 (u / 2 ^ (64 * j) % 2 ^ 64)

theorem hostWrx_eq_map (p : Params) (i : RegId) (v : Int) :
    hostWrx p i v = (List.range (p.opw / 64)).map (wrxStore p i (v % 2 ^ p.opw).toNat) := rfl

/-- The state with the low `n` words of X[i] set to those of `u`, and the given history. -/
def State.setLowWords (s : State) (i : RegId) (n u : Nat) (past : List Exchange) : State :=
  { s with x := s.x.set i (regSetWords s.x[i] 0 n u), history := past }

section
variable {s : State} (i : RegId) (u : Nat) (hl : s.cfg.legal = true) (hb : s.busy = false)
include hl hb

/-- WRX's store of 8-byte word `n` goes on from those before it. -/
theorem access_wrxStore {n : Nat} (hn : n < s.cfg.opw / 64) (past : List Exchange) :
    (s.setLowWords i (2 * n) u past).access (wrxStore s.cfg i u n) =
      s.setLowWords i (2 * (n + 1)) u (⟨wrxStore s.cfg i u n, .stored⟩ :: past) := by
  have hget : (s.setLowWords i (2 * n) u past).x[i] = regSetWords s.x[i] 0 (2 * n) u := Vector.getElem_set_self i.isLt
  have hwords : regSetWords (regSetWords s.x[i] 0 (2 * n) u) (2 * n) 2 (u / 2 ^ (64 * n) % 2 ^ 64) =
      regSetWords s.x[i] 0 (2 * (n + 1)) u := by
    rw [regSetWords_mod 2, Nat.mul_succ, regSetWords_add, Nat.zero_add, ← Nat.mul_assoc]
  refine (access_store_windowOffset (s := s.setLowWords i (2 * n) u past) hl hb hn _).trans ?_
  rw [hget, hwords, State.setLowWords, Vector.set_set]
  rfl

/-- The first `n` stores of WRX write the low 2n words of the number. -/
theorem accesses_wrxStore {n : Nat} (hn : n ≤ s.cfg.opw / 64) :
    ∃ past, s.accesses ((List.range n).map (wrxStore s.cfg i u)) = s.setLowWords i (2 * n) u past := by
  induction n with
  | zero => exact ⟨s.history, by simp [State.accesses, State.setLowWords, regSetWords]⟩
  | succ n ih =>
    obtain ⟨past, hpast⟩ := ih (by omega)
    rw [State.accesses] at hpast ⊢
    rw [List.range_succ, List.map_append, List.foldl_append, hpast]
    exact ⟨_, access_wrxStore i u hl hb hn past⟩

end

/-- All words of enc_OPW(v) together are the register that writing v leaves (R16, R17). -/
theorem setLowWords_eq_writeReg {s : State} (hI : s.Inv) (i : RegId) (v : Int) (past : List Exchange) :
    s.setLowWords i (2 * (s.cfg.opw / 64)) (v % 2 ^ s.cfg.opw).toNat past = { s.writeReg i v with history := past } := by
  obtain ⟨hdvd, -⟩ := Params.legal_opw hI.cfgLegal
  have hlen := hI.regLength i
  have hreg : regSetWords s.x[i] 0 (2 * (s.cfg.opw / 64)) (v % 2 ^ s.cfg.opw).toNat = regOfInt s.cfg.opw v := by
    rw [show 2 * (s.cfg.opw / 64) = s.x[i].length by omega, regSetWords_all, hlen, regOfInt]
  rw [State.setLowWords, hreg, State.writeReg]

/-- Settles O52: the stores of WRX write all words of the register. -/
theorem wrxWritesWholeRegister : Obligations.WrxWritesWholeRegister := by
  intro s i v hI hb hlow hhigh
  obtain ⟨hdvd, hmin, -⟩ := Params.legal_opw hI.cfgLegal
  obtain ⟨past, hrun⟩ := accesses_wrxStore i (v % 2 ^ s.cfg.opw).toNat hI.cfgLegal hb le_rfl
  rw [← hostWrx_eq_map, setLowWords_eq_writeReg hI] at hrun
  refine ⟨_, past, hrun, ⟨?_, ?_⟩, fun r hr => ?_, rfl⟩
  · exact State.val_writeReg_self s i (by omega) (by omega) hlow hhigh
  · exact (congrArg regWritten (State.writeReg_get_self s i v)).trans (regWritten_regOfInt _ _)
  · exact State.writeReg_get_ne s hr.symm v

end Sys2Proof.Machine
end

section
/-! The modular arithmetic commands (40_modular.md): RESIDUE, MODPOW and JACOBI end with the value of their function or with
INVALID_ARG, and MODEXP_IMPL changes nothing a command does. -/

namespace Sys2Proof.Machine

open Sys2Proof.Spec

/-! ### The row a command's word spells it in (R121, R125) -/

section
variable {op : BitVec 6} {rd ra rb rc e f : Fin 8} {src : BitVec 2}

theorem fieldOP_packWord : fieldOP (packWord op rd ra rb rc e f src) = op := by
  rw [fieldOP, packWord]
  iterate 7 rw [BitVec.extractLsb'_append_eq_of_le (by decide)]
  exact BitVec.extractLsb'_append_eq_left

theorem fieldS_packWord : fieldS (packWord op rd ra rb rc e f src) = src := by
  rw [fieldS, packWord, BitVec.extractLsb'_append_eq_of_le (by decide)]
  exact BitVec.extractLsb'_append_eq_right

/-- OP and S tell the rows of the opcode map apart (R125, R127). -/
theorem row_eq_of_fields : ∀ r ∈ opcodeMap, ∀ q ∈ opcodeMap,
    fieldOP r.pat = fieldOP q.pat → fieldS r.pat = fieldS q.pat → r.pat = q.pat ∧ r.mask = q.mask := by decide

/-- A command's word spells it in the row of the word's OP and S, since that is the row the word matches. -/
theorem spells_of_row {i : Instr} {pat mask : Word32} (he : encode i = packWord op rd ra rb rc e f src)
    (hrow : ∃ r ∈ opcodeMap, r.pat = pat ∧ r.mask = mask ∧ fieldOP r.pat = op ∧ fieldS r.pat = src) :
    Spells i pat mask := by
  obtain ⟨r, hr, rfl, rfl, hop, hsrc⟩ := hrow
  obtain ⟨k, q, hk, hm, -⟩ := encode_matches_row i
  have hq : q ∈ opcodeMap := List.mem_of_getElem? hk
  have hqop : fieldOP q.pat = op := by rw [← Row.fieldOP_of_match hq hm, he, fieldOP_packWord]
  have hqsrc : fieldS q.pat = src := by rw [← Row.fieldS_of_match hq hm, he, fieldS_packWord]
  obtain ⟨hpat, hmask⟩ := row_eq_of_fields r hr q hq (hop.trans hqop.symm) (hsrc.trans hqsrc.symm)
  rw [Spells, hpat, hmask, hm]

end

/-! ### The end of a command by the result of its function -/

section
variable {s : State} (rs : List RegId) (rd : RegId) {r : Except ErrCode Int}

/-- A result that fits the operand width is written, and the command succeeds (R320). -/
theorem finish_readSources_of_ok {v : Int} (hl : s.cfg.legal = true) (hr : r = .ok v)
    (hv : -2 ^ (s.cfg.opw - 1) ≤ v ∧ v < 2 ^ (s.cfg.opw - 1)) :
    Succeeded ((s.readSources rs).finish rd r) ∧ Holds ((s.readSources rs).finish rd r) rd v := by
  subst hr
  exact ⟨finish_succeeded _ rd v, finish_holds (s := s.readSources rs) hl hv.1 hv.2⟩

/-- INVALID_ARG fails the command, which then changes nothing else (R321). -/
theorem finish_readSources_of_invalidArg (hr : r = .error .invalidArg) :
    FailedWith 2 s ((s.readSources rs).finish rd r) := by
  subst hr
  exact finish_failed s rs rd .invalidArg

end

/-- A remainder modulo a register's value fits a register. -/
theorem emod_val_fits {s : State} (hI : s.Inv) {i : RegId} (hi : 0 < s.val i) (n : Int) :
    -2 ^ (s.cfg.opw - 1) ≤ n % s.val i ∧ n % s.val i < 2 ^ (s.cfg.opw - 1) := by
  have hneg : -(2 : Int) ^ (s.cfg.opw - 1) ≤ 0 := neg_nonpos.mpr (by positivity)
  exact ⟨hneg.trans (Int.emod_nonneg n hi.ne'), (Int.emod_lt_of_pos n hi).trans (val_bounds hI i).2⟩

/-! ### RESIDUE (R161) -/

theorem residue_of_pos (n : Int) {m : Int} (hm : 0 < m) : residue n m = .ok (n % m) := by
  rw [residue, if_neg hm.ne', if_neg hm.not_gt]

theorem residue_of_nonpos (n : Int) {m : Int} (hm : m ≤ 0) : residue n m = .error .invalidArg := by
  rcases hm.eq_or_lt with rfl | hneg
  · rfl
  · rw [residue, if_neg hneg.ne, if_pos hneg]

/-- Settles O16: the remainder is the one of Int, which fits as it is below the modulus. -/
theorem residueResult : Obligations.ResidueResult := by
  intro s rd ra rb hI
  refine ⟨spells_of_row rfl (by decide), fun hm => ?_, fun hm => ?_⟩
  · obtain ⟨hsucc, hholds⟩ := finish_readSources_of_ok [ra, rb] rd hI.cfgLegal (residue_of_pos (s.val ra) hm)
      (emod_val_fits hI hm _)
    exact ⟨_, _, rfl, hsucc, hholds, Int.emod_nonneg _ hm.ne', Int.emod_lt_of_pos _ hm, Int.dvd_self_sub_emod⟩
  · exact ⟨_, rfl, finish_readSources_of_invalidArg [ra, rb] rd (residue_of_nonpos _ hm)⟩

/-! ### MODPOW (R163, R165, R166) -/

theorem modpow_of_invalid (b : Int) {p m : Int} (h : m < 1 ∨ p < 0) : modpow b p m = .error .invalidArg := by
  unfold modpow
  split
  · rfl
  · rw [if_pos (h.resolve_left ‹_›)]

/-- Settles O17: reducing the base first changes no power modulo mod. -/
theorem modpowResult : Obligations.ModpowResult := by
  intro s rd ra rb rc hI
  refine ⟨spells_of_row rfl (by decide), fun hm hp => ?_, fun h => ?_⟩
  · have hbase : s.val ra ^ (s.val rb).toNat % s.val rc = (s.val ra % s.val rc) ^ (s.val rb).toNat % s.val rc :=
      ((Int.mod_modEq _ _).pow _).symm
    have hresult := (modpow_eq (b := s.val ra) hm hp).trans (congrArg Except.ok hbase)
    exact ⟨_, rfl, finish_readSources_of_ok [ra, rb, rc] rd hI.cfgLegal hresult (emod_val_fits hI hm _)⟩
  · exact ⟨_, rfl, finish_readSources_of_invalidArg [ra, rb, rc] rd (modpow_of_invalid _ h)⟩

/-! ### JACOBI (R170, R171) -/

theorem jacobi_of_invalid (a : Int) {n : Int} (h : n < 1 ∨ n % 2 = 0) : jacobi a n = .error .invalidArg := by
  unfold jacobi
  split
  · rfl
  · rw [if_pos (h.resolve_left ‹_›)]

theorem jacobiSym_fits {p : Params} (hl : p.legal = true) (a : Int) (n : Nat) :
    -2 ^ (p.opw - 1) ≤ jacobiSym a n ∧ jacobiSym a n < 2 ^ (p.opw - 1) := by
  rcases jacobiSym.trichotomy a n with h | h | h <;> rw [h] <;> exact small_fits hl (by norm_num) (by norm_num)

/-- Settles O18: the loops compute Mathlib's symbol, and -1, 0 and 1 fit every operand width. -/
theorem jacobiResult : Obligations.JacobiResult := by
  intro s rd ra rb hI
  refine ⟨spells_of_row rfl (by decide), fun hn hodd => ?_, fun h => ?_⟩
  · exact ⟨_, rfl, finish_readSources_of_ok [ra, rb] rd hI.cfgLegal (jacobi_eq hn hodd) (jacobiSym_fits hI.cfgLegal _ _)⟩
  · exact ⟨_, rfl, finish_readSources_of_invalidArg [ra, rb] rd (jacobi_of_invalid _ h)⟩

/-! ### MODEXP_IMPL (00_scope.md R10, R167) -/

/-- The same machine with another MODEXP_IMPL. -/
def State.withModexpImpl (s : State) (m : ModexpImpl) : State := { s with cfg := { s.cfg with modexpImpl := m } }

section
variable (s : State) (m : ModexpImpl) (rd : RegId)

theorem finish_withModexpImpl (r : Except ErrCode Int) :
    (s.withModexpImpl m).finish rd r = (s.finish rd r).withModexpImpl m := by
  cases r <;> rfl

theorem finishPcg_withModexpImpl (r : Except ErrCode Int × List PcgCore) :
    (s.withModexpImpl m).finishPcg rd r = (s.finishPcg rd r).withModexpImpl m :=
  finish_withModexpImpl { s with pcg := r.2 } m rd r.1

theorem finishXo_withModexpImpl (r : Except ErrCode Int × List XoCore) :
    (s.withModexpImpl m).finishXo rd r = (s.finishXo rd r).withModexpImpl m :=
  finish_withModexpImpl { s with xo := r.2 } m rd r.1

end

section
variable {s : State} {m : ModexpImpl} (e : CoreId) {run : State → State}
  (hrun : run (s.withModexpImpl m) = (run s).withModexpImpl m)
include hrun

theorem onPcg_withModexpImpl : (s.withModexpImpl m).onPcg e run = (s.onPcg e run).withModexpImpl m := by
  by_cases he : e.val < s.pcg.length
  · rw [State.onPcg_of_lt he, State.onPcg_of_lt (s := s.withModexpImpl m) he, hrun]
  · rw [State.onPcg_of_not_lt he, State.onPcg_of_not_lt (s := s.withModexpImpl m) he]
    rfl

theorem onXo_withModexpImpl : (s.withModexpImpl m).onXo e run = (s.onXo e run).withModexpImpl m := by
  by_cases he : e.val < s.xo.length
  · rw [State.onXo_of_lt he, State.onXo_of_lt (s := s.withModexpImpl m) he, hrun]
  · rw [State.onXo_of_not_lt he, State.onXo_of_not_lt (s := s.withModexpImpl m) he]
    rfl

end

/-- No command's function takes MODEXP_IMPL, and neither end of a command looks at it. -/
theorem exec_withModexpImpl (i : Instr) (s : State) (m : ModexpImpl) :
    ∃ t, exec i s = .next t ∧ exec i (s.withModexpImpl m) = .next (t.withModexpImpl m) := by
  cases i with
  | residue rd ra rb | modpow rd ra rb rc | jacobi rd ra rb | mr2 rd ra =>
    exact ⟨_, rfl, congrArg _ (finish_withModexpImpl (s.readSources _) m rd _)⟩
  | pcgSeed e ra =>
    refine ⟨_, rfl, congrArg _ (onPcg_withModexpImpl e ?_)⟩
    rw [apply_ite (State.withModexpImpl · m)]
    rfl
  | xoSeed e ra =>
    refine ⟨_, rfl, congrArg _ (onXo_withModexpImpl e ?_)⟩
    rw [apply_ite (State.withModexpImpl · m)]
    rfl
  | pcgDflt e => exact ⟨_, rfl, congrArg _ (onPcg_withModexpImpl e rfl)⟩
  | xoDflt e => exact ⟨_, rfl, congrArg _ (onXo_withModexpImpl e rfl)⟩
  | pcgNext rd e | flt32P rd e =>
    exact ⟨_, rfl, congrArg _ (onPcg_withModexpImpl e (finishPcg_withModexpImpl s m rd _))⟩
  | pcgBnd32 rd e ra =>
    exact ⟨_, rfl, congrArg _ (onPcg_withModexpImpl e (finishPcg_withModexpImpl (s.readSources _) m rd _))⟩
  | xoNext rd e | flt32X rd e | flt64X rd e =>
    exact ⟨_, rfl, congrArg _ (onXo_withModexpImpl e (finishXo_withModexpImpl s m rd _))⟩
  | xoBnd64 rd e ra | xoBnd32 rd e ra =>
    exact ⟨_, rfl, congrArg _ (onXo_withModexpImpl e (finishXo_withModexpImpl (s.readSources _) m rd _))⟩
  | flt64PP rd e f =>
    exact ⟨_, rfl, congrArg _ (onPcg_withModexpImpl e (onPcg_withModexpImpl f (finishPcg_withModexpImpl s m rd _)))⟩

/-- Settles O21: every command commutes with the change of the parameter. -/
theorem modexpImplChangesNoResult : Obligations.ModexpImplChangesNoResult := by
  intro i s t m h
  obtain ⟨u, hu, hm⟩ := exec_withModexpImpl i s m
  cases h.symm.trans hu
  exact hm

end Sys2Proof.Machine
end

section
/-! The Miller-Rabin command (41_miller_rabin.md): MR2 ends with the verdict of the strong probable-prime test to base 2, and
that verdict is 1 on every odd prime. -/

namespace Sys2Proof.Machine

open Sys2Proof.Spec

/-! ### The result of MR2 (R201) -/

theorem mr2_of_invalid {n : Int} (h : n < 3 ∨ n % 2 = 0) : mr2 n = .error .invalidArg := by
  unfold mr2
  split
  · rfl
  · rw [if_pos (h.resolve_left ‹_›)]

/-- Settles O19: the rounds decide the test, and 0 and 1 fit every operand width. -/
theorem millerRabinResult : Obligations.MillerRabinResult := by
  intro s rd ra hI
  refine ⟨spells_of_row rfl (by decide), fun d k h3 hodd hd hn => ?_, fun h => ?_⟩
  · obtain ⟨v, hresult, hbit, htest⟩ := mr2_spec h3 hodd hd hn
    obtain ⟨hsucc, hholds⟩ := finish_readSources_of_ok [ra] rd hI.cfgLegal hresult
      (small_fits hI.cfgLegal (by omega) (by omega))
    exact ⟨_, v, rfl, hsucc, hholds, hbit, htest⟩
  · exact ⟨_, rfl, finish_readSources_of_invalidArg [ra] rd (mr2_of_invalid h)⟩

/-! ### Odd primes pass (R202) -/

/-- 1 has no square roots but 1 and -1, so repeated squaring reaches it from 1 or through -1. -/
theorem eq_one_or_pow_two_pow_eq_neg_one {R : Type*} [Ring R] [NoZeroDivisors R] {a : R} {k : Nat} (h : a ^ 2 ^ k = 1) :
    a = 1 ∨ ∃ i < k, a ^ 2 ^ i = -1 := by
  induction k with
  | zero => exact .inl (by simpa using h)
  | succ k ih =>
    rw [pow_succ, pow_mul] at h
    rcases sq_eq_one_iff.mp h with hone | hneg
    · exact (ih hone).imp_right fun ⟨i, hi, hneg⟩ => ⟨i, by omega, hneg⟩
    · exact .inr ⟨k, by omega, hneg⟩

/-- The test of R201 in the residues modulo p: by Fermat, 2^(d·2^k) is 1 there. -/
theorem two_pow_eq_one_or_neg_one_of_prime {p d k : Nat} (hp : p.Prime) (h3 : 3 ≤ p) (hpred : p - 1 = d * 2 ^ k) :
    (2 : ZMod p) ^ d = 1 ∨ ∃ i < k, (2 : ZMod p) ^ (d * 2 ^ i) = -1 := by
  have : Fact p.Prime := ⟨hp⟩
  have htwo : (2 : ZMod p) ≠ 0 := by
    exact_mod_cast mt (ZMod.natCast_eq_zero_iff 2 p).mp (Nat.not_dvd_of_pos_of_lt two_pos h3)
  have hfermat : ((2 : ZMod p) ^ d) ^ 2 ^ k = 1 := by
    rw [← pow_mul, ← hpred, ZMod.pow_card_sub_one_eq_one htwo]
  simpa only [← pow_mul] using eq_one_or_pow_two_pow_eq_neg_one hfermat

/-- A power of 2 is read off its residue class, as far as the test of R201 asks. -/
theorem two_pow_emod_eq_of_cast {p e : Nat} {r : Int} (h0 : 0 ≤ r) (hr : r < p) (h : (2 : ZMod p) ^ e = (r : ZMod p)) :
    (2 : Int) ^ e % p = r := by
  have hmod : (2 : Int) ^ e ≡ r [ZMOD p] := (ZMod.intCast_eq_intCast_iff _ _ _).mp (by exact_mod_cast h)
  exact hmod.eq.trans (Int.emod_eq_of_lt h0 hr)

/-- Settles O20: on an odd prime the test that MR2 decides succeeds. -/
theorem millerRabinAcceptsOddPrimes : Obligations.MillerRabinAcceptsOddPrimes := by
  intro s rd ra hI h3 hprime
  obtain ⟨p, hval⟩ := Int.eq_ofNat_of_zero_le (by omega : 0 ≤ s.val ra)
  rw [hval, Int.toNat_natCast] at hprime
  obtain ⟨k, d, hd, hpred⟩ := Nat.exists_eq_two_pow_mul_odd (n := p - 1) (by omega)
  rw [mul_comm] at hpred
  have hodd : p % 2 = 1 := hprime.eq_two_or_odd.resolve_left (by omega)
  have hn : s.val ra - 1 = d * 2 ^ k := by
    rw [hval, ← Nat.cast_pred hprime.pos, hpred]
    norm_cast
  obtain ⟨t, v, hexec, hsucc, hholds, -, htest⟩ :=
    (millerRabinResult s rd ra hI).2.1 d k h3 (by omega) (Nat.odd_iff.mp hd) hn
  have hpass : v = 1 := by
    rw [htest, hval]
    refine (two_pow_eq_one_or_neg_one_of_prime hprime (by omega) hpred).imp (fun hone => ?_)
      fun ⟨i, hi, hneg⟩ => ⟨i, hi, ?_⟩
    · exact two_pow_emod_eq_of_cast (by omega) (by omega) (by simpa using hone)
    · exact two_pow_emod_eq_of_cast (by omega) (by omega) (by simpa using hneg)
  exact ⟨t, hexec, hsucc, hpass ▸ hholds⟩

end Sys2Proof.Machine
end

section
/-! The PRNG engines (42_prng.md): the draws of a PCG and of a Xoshiro core are the integer formulas of the rules, the seeds
make the cores that the rules construct, and only the all-zero Xoshiro core steps to the all-zero core. -/

namespace Sys2Proof.Machine

open Sys2Proof.Spec

/-! ### Rotations (00_scope.md R15) -/

theorem toNat_rotateRight_eq_rotr32 (x : Word32) (r : Nat) : (x.rotateRight r).toNat = rotr32 x.toNat r := by
  have hhigh : x.toNat / 2 ^ (r % 32) < 2 ^ 32 := (Nat.div_le_self _ _).trans_lt x.isLt
  rw [BitVec.toNat_rotateRight, rotr32, Nat.or_mod_two_pow, Nat.shiftRight_eq_div_pow, Nat.shiftLeft_eq,
    Nat.mod_eq_of_lt hhigh]

theorem toNat_rotateLeft_eq_rotl64 (x : Word64) (r : Nat) : (x.rotateLeft r).toNat = rotl64 x.toNat r := by
  have hlow : x.toNat / 2 ^ (64 - r % 64) < 2 ^ 64 := (Nat.div_le_self _ _).trans_lt x.isLt
  rw [BitVec.toNat_rotateLeft, rotl64, Nat.or_mod_two_pow, Nat.shiftRight_eq_div_pow, Nat.shiftLeft_eq,
    Nat.mod_eq_of_lt hlow]

/-! ### PCG draws and seeds (R221, R223, R225) -/

theorem toNat_pcgStep (c : PcgCore) : c.step.ps.toNat = pcgStep c.ps.toNat c.pi.toNat := by
  have hmult : pcgMult.toNat = 0x5851F42D4C957F2D := rfl
  rw [PcgCore.step, BitVec.toNat_add, BitVec.toNat_mul, Nat.mod_add_mod, hmult, Nat.mul_comm, pcgStep]

theorem toNat_pcgOutput (c : PcgCore) : c.output.toNat = pcgOutput c.ps.toNat := by
  simp only [PcgCore.output, pcgOutput, toNat_rotateRight_eq_rotr32, BitVec.toNat_setWidth, BitVec.toNat_ushiftRight,
    BitVec.toNat_xor, Nat.shiftRight_eq_div_pow]

/-- Settles O22, formula by formula. -/
theorem pcgDrawMatchesRule : Obligations.PcgDrawMatchesRule :=
  fun c => ⟨toNat_pcgStep c, c.step_pi, toNat_pcgOutput c, fun _ _ h => pcgDraw_of_get h⟩

/-- The increment PCG.SEED constructs, from initseq = v[127:64]. -/
theorem toNat_pcgSeeded_pi (v : Nat) : (pcgSeeded v).pi.toNat = (2 * (v / 2 ^ 64) + 1) % 2 ^ 64 := by
  have hinc : (pcgSeeded v).pi = BitVec.ofNat 64 (v / 2 ^ 64) <<< 1 ||| 1#64 := rfl
  have hone : (1#64).toNat = 1 % 2 ^ 64 := rfl
  rw [hinc, BitVec.toNat_or, BitVec.toNat_shiftLeft, hone, ← Nat.or_mod_two_pow,
    ← Nat.shiftLeft_add_eq_or_of_lt (by decide), Nat.shiftLeft_eq, BitVec.toNat_ofNat]
  omega

/-- The state PCG.SEED constructs: the first step, from state 0, leaves the increment. -/
theorem toNat_pcgSeeded_ps (v : Nat) : (pcgSeeded v).ps.toNat =
    pcgStep (((pcgSeeded v).pi.toNat + v % 2 ^ 64) % 2 ^ 64) (pcgSeeded v).pi.toNat := by
  have hfirst : ∀ pi : Word64, PcgCore.step ⟨0, pi⟩ = ⟨pi, pi⟩ := fun pi => by simp [PcgCore.step]
  simp only [pcgSeeded, hfirst, toNat_pcgStep, PcgCore.step_pi, BitVec.toNat_add, BitVec.toNat_ofNat]

/-! ### Xoshiro draws and seeds (R241, R242, R246) -/

theorem toNat_xoOutput (c : XoCore) : (Machine.xoOutput c).toNat = Spec.xoOutput c.s0.toNat c.s3.toNat := by
  simp only [Machine.xoOutput, Spec.xoOutput, BitVec.toNat_add, toNat_rotateLeft_eq_rotl64]

theorem xoWords_xoStep (c : XoCore) :
    xoWords (Machine.xoStep c) = Spec.xoStep c.s0.toNat c.s1.toNat c.s2.toNat c.s3.toNat := by
  simp only [xoWords, Machine.xoStep, Spec.xoStep, BitVec.toNat_xor, toNat_rotateLeft_eq_rotl64, BitVec.toNat_shiftLeft,
    Nat.shiftLeft_eq]

/-- Settles O23, formula by formula. -/
theorem xoDrawMatchesRule : Obligations.XoDrawMatchesRule :=
  fun c => ⟨xoWords_xoStep c, toNat_xoOutput c, fun _ _ h => xoDraw_of_get h⟩

/-- The words that XO.SEED loads are those of its seed, lowest first. -/
theorem xoSeeded_words {v : Nat} (h : v < 2 ^ 256) :
    v = (xoSeeded v).s0.toNat + 2 ^ 64 * (xoSeeded v).s1.toNat + 2 ^ 128 * (xoSeeded v).s2.toNat +
      2 ^ 192 * (xoSeeded v).s3.toNat := by
  simp only [xoSeeded, BitVec.toNat_ofNat]
  omega

/-! ### The all-zero Xoshiro core (R251) -/

/-- The rotation of R242 is zero only of zero: it keeps the low 19 and the high 45 bits. -/
theorem eq_zero_of_rotateLeft_eq_zero {x : Word64} (h : x.rotateLeft 45 = 0#64) : x = 0#64 := by
  rw [BitVec.rotateLeft_def, Nat.mod_eq_of_lt (by decide), BitVec.or_eq_zero_iff] at h
  have hlow := congrArg BitVec.toNat h.1
  have hhigh := congrArg BitVec.toNat h.2
  rw [BitVec.toNat_shiftLeft, Nat.shiftLeft_eq, BitVec.toNat_zero] at hlow
  rw [BitVec.toNat_ushiftRight, Nat.shiftRight_eq_div_pow, BitVec.toNat_zero] at hhigh
  exact BitVec.eq_of_toNat_eq (by rw [BitVec.toNat_zero]; omega)

theorem eq_zero_of_eq_shiftLeft {x : Word64} (h : x = x <<< 17) : x = 0#64 := by
  have hx := congrArg BitVec.toNat h
  rw [BitVec.toNat_shiftLeft, Nat.shiftLeft_eq] at hx
  exact BitVec.eq_of_toNat_eq (by rw [BitVec.toNat_zero]; omega)

/-- Only the all-zero core steps to the all-zero core. -/
theorem eq_zero_of_xoStep_eq_zero {c : XoCore} (h : Machine.xoStep c = ⟨0, 0, 0, 0⟩) : c = ⟨0, 0, 0, 0⟩ := by
  obtain ⟨s0, s1, s2, s3⟩ := c
  simp only [Machine.xoStep, XoCore.mk.injEq, BitVec.ofNat_eq_ofNat] at h ⊢
  obtain ⟨h0, h1, h2, h3⟩ := h
  have h31 := eq_zero_of_rotateLeft_eq_zero h3
  rw [h31, BitVec.xor_zero] at h0
  rw [h0, BitVec.xor_zero, BitVec.xor_eq_zero_iff] at h1 h2
  have hs1 := eq_zero_of_eq_shiftLeft (h1.trans h2)
  exact ⟨h0, hs1, h1 ▸ hs1, (BitVec.xor_eq_zero_iff.mp h31).trans hs1⟩

end Sys2Proof.Machine
end

section
/-! The PRNG commands (42_prng.md): seeds, raw draws and bounded draws, and where the all-zero Xoshiro core comes from. -/

namespace Sys2Proof.Machine

open Sys2Proof.Spec

/-! ### A command on a core that is there (R128) -/

section
variable {i : Instr} {s : State} {e : CoreId} {run : State → State}

theorem exec_of_onPcg (he : e.val < s.pcg.length) (h : exec i s = .next (s.onPcg e run)) : exec i s = .next (run s) := by
  rw [h, State.onPcg_of_lt he]

theorem exec_of_onXo (he : e.val < s.xo.length) (h : exec i s = .next (s.onXo e run)) : exec i s = .next (run s) := by
  rw [h, State.onXo_of_lt he]

theorem onPcg_of_err_eq_false (h : (s.onPcg e run).err = false) : s.onPcg e run = run s := by
  by_cases he : e.val < s.pcg.length
  · exact State.onPcg_of_lt he run
  · rw [State.onPcg_of_not_lt he] at h
    cases h

theorem onXo_of_err_eq_false (h : (s.onXo e run).err = false) : s.onXo e run = run s := by
  by_cases he : e.val < s.xo.length
  · exact State.onXo_of_lt he run
  · rw [State.onXo_of_not_lt he] at h
    cases h

end

theorem lt_length_of_get {α : Type} {cs : List α} {k : Nat} {c : α} (h : cs[k]? = some c) : k < cs.length :=
  (List.getElem?_eq_some_iff.mp h).1

/-! ### Seeds (R225, R226, R246, R247) -/

/-- Settles O24: the constructed core is the reference's, and an error completion leaves the cores. -/
theorem pcgSeedEffect : Obligations.PcgSeedEffect := by
  intro s e ra he
  have hexec := exec_of_onPcg (i := .pcgSeed e ra) he rfl
  refine ⟨spells_of_row rfl (by decide), fun h0 h1 => ?_, fun hv => ?_⟩
  · rw [if_neg (by omega)] at hexec
    exact ⟨_, _, hexec, ⟨rfl, rfl, rfl, rfl⟩, rfl, rfl, rfl, toNat_pcgSeeded_pi _, toNat_pcgSeeded_ps _⟩
  · rw [if_pos hv] at hexec
    exact ⟨_, hexec, rfl⟩

/-- Settles O25: the loaded words are those of the seed, and an error completion leaves the cores. -/
theorem xoSeedEffect : Obligations.XoSeedEffect := by
  intro s e ra he
  have hexec := exec_of_onXo (i := .xoSeed e ra) he rfl
  refine ⟨spells_of_row rfl (by decide), fun h0 h1 => ?_, fun hv => ?_⟩
  · rw [if_neg (by omega)] at hexec
    exact ⟨_, _, hexec, ⟨rfl, rfl, rfl, rfl⟩, rfl, rfl, rfl, xoSeeded_words (by omega)⟩
  · rw [if_pos hv] at hexec
    exact ⟨_, hexec, rfl⟩

/-- Settles O26: on a core that is there each command's run is the loading. -/
theorem defaultSeedEffect : Obligations.DefaultSeedEffect := by
  intro s e
  refine ⟨spells_of_row rfl (by decide), spells_of_row rfl (by decide), fun he => ?_, fun he => ?_⟩
  · exact ⟨_, exec_of_onPcg he rfl, ⟨rfl, rfl, rfl, rfl⟩, rfl, rfl, rfl, rfl⟩
  · exact ⟨_, exec_of_onXo he rfl, ⟨rfl, rfl, rfl, rfl⟩, rfl, rfl, rfl, rfl⟩

/-! ### Raw draws (R227, R248) -/

/-- A drawn value is written as it is, since it fits every operand width (00_scope.md R7). -/
theorem finish_holds_nat {s : State} (hl : s.cfg.legal = true) (rd : RegId) {v : Nat} (hv : v < 2 ^ 64) :
    Holds (s.finish rd (.ok v)) rd v := by
  obtain ⟨hlow, hhigh⟩ := small_fits hl (show (-1 : Int) ≤ v by omega) (by exact_mod_cast hv)
  exact finish_holds hl hlow hhigh

/-- Settles O27: the command finishes with one draw, whose output is the rule's. -/
theorem pcgNextResult : Obligations.PcgNextResult := by
  intro s rd e c hl hc
  have hexec := exec_of_onPcg (i := .pcgNext rd e) (lt_length_of_get hc) rfl
  rw [pcgDraw_of_get hc, toNat_pcgOutput] at hexec
  have hlt : pcgOutput c.ps.toNat < 2 ^ 64 := by
    rw [← toNat_pcgOutput]
    exact c.output.isLt.trans (by decide)
  exact ⟨spells_of_row rfl (by decide), _, hexec, finish_succeeded _ rd _,
    finish_holds_nat (s := { s with pcg := s.pcg.set e.val c.step }) hl rd hlt, rfl, rfl⟩

/-- Settles O28: the command finishes with one draw, whose output is the rule's. -/
theorem xoNextResult : Obligations.XoNextResult := by
  intro s rd e c hl hc
  have hexec := exec_of_onXo (i := .xoNext rd e) (lt_length_of_get hc) rfl
  rw [xoDraw_of_get hc, toNat_xoOutput] at hexec
  have hlt : Spec.xoOutput c.s0.toNat c.s3.toNat < 2 ^ 64 := by
    rw [← toNat_xoOutput]
    exact (Machine.xoOutput c).isLt
  exact ⟨spells_of_row rfl (by decide), _, hexec, finish_succeeded _ rd _,
    finish_holds_nat (s := { s with xo := s.xo.set e.val (Machine.xoStep c) }) hl rd hlt, rfl, rfl⟩

/-! ### The bounded scheme (R224) -/

section
variable {σ : Type} {draw : σ → Nat × σ} {n m : Nat} {limit : Int}

theorem bounded_of_invalid {bound : Int} (h : bound < 1 ∨ limit < bound) (st : σ) :
    bounded draw n bound limit m st = (.error .invalidArg, st) := if_pos h

theorem bounded_of_legal {b : Nat} (h1 : 1 ≤ b) (hb : b ≤ limit) (st : σ) :
    bounded draw n b limit m st = boundedLoop draw (2 ^ n % b) b m st := by
  rw [bounded, if_neg (by omega), Int.toNat_natCast]

/-- A value that a bounded draw returns lies in [0, bound), and the bound is legal (R230). -/
theorem bounded_range {bound v : Int} {st : σ} (h : (bounded draw n bound limit m st).1 = .ok v) :
    0 ≤ v ∧ v < bound ∧ bound ≤ limit := by
  by_cases hbound : bound < 1 ∨ limit < bound
  · rw [bounded_of_invalid hbound] at h
    cases h
  · obtain ⟨b, rfl⟩ := Int.eq_ofNat_of_zero_le (by omega : 0 ≤ bound)
    rw [bounded_of_legal (by omega) (by omega)] at h
    obtain ⟨h0, hv⟩ := boundedLoop_range (by omega) h
    exact ⟨h0, hv, by omega⟩

end

/-- How a bounded draw ends the command `i` (R224), when the source supplies the `n`-bit samples `smp` and the machine has
become `after j` once `j` of them are drawn. -/
structure BoundedEnds (i : Instr) (s : State) (rd ra : RegId) (n limit : Nat) (smp : Nat → Nat) (after : Nat → State) :
    Prop where
  accepts (b k : Nat) (hval : s.val ra = b) (hpos : 1 ≤ b) (hle : b ≤ limit) (hk : k < s.cfg.retryMax)
    (hrej : ∀ j < k, smp j < 2 ^ n % b) (hacc : 2 ^ n % b ≤ smp k) :
    ∃ t, exec i s = .next t ∧ Succeeded t ∧ Holds t rd (smp k % b : Nat) ∧
      t.pcg = (after (k + 1)).pcg ∧ t.xo = (after (k + 1)).xo
  exhausts (b : Nat) (hval : s.val ra = b) (hpos : 1 ≤ b) (hle : b ≤ limit)
    (hrej : ∀ j < s.cfg.retryMax, smp j < 2 ^ n % b) :
    ∃ t, exec i s = .next t ∧ FailedWith 3 (after s.cfg.retryMax) t
  rejects (h : s.val ra < 1 ∨ limit < s.val ra) : ∃ t, exec i s = .next t ∧ FailedWith 2 s t

/-- A command ends so when it finishes with a bounded draw, `put` storing the source's states in the machine. -/
theorem boundedEnds_of_exec {σ : Type} {draw : σ → Nat × σ} {smp : Nat → Nat} {st : Nat → σ} {put : σ → State}
    {i : Instr} {s : State} {rd ra : RegId} {n limit : Nat} (hl : ∀ x, (put x).cfg.legal = true) (hs : put (st 0) = s)
    (hlimit : limit ≤ 2 ^ 64) (hdraw : ∀ j, draw (st j) = (smp j, st (j + 1)))
    (hexec : ∀ r, bounded draw n (s.val ra) limit s.cfg.retryMax (st 0) = r →
      exec i s = .next (((put r.2).readSources [ra]).finish rd r.1)) :
    BoundedEnds i s rd ra n limit smp fun j => put (st j) := by
  constructor
  · intro b k hval hpos hle hk hrej hacc
    have hlt : smp k % b < 2 ^ 64 := (Nat.mod_lt _ hpos).trans_le (hle.trans hlimit)
    refine ⟨_, hexec (.ok (smp k % b : Nat), st (k + 1)) ?_, finish_succeeded _ rd _,
      finish_holds_nat (s := (put (st (k + 1))).readSources [ra]) (hl _) rd hlt, rfl, rfl⟩
    rw [hval, bounded_of_legal hpos (by omega), boundedLoop_accept hdraw hk hrej hacc]
  · intro b hval hpos hle hrej
    refine ⟨_, hexec (.error .exhausted, st s.cfg.retryMax) ?_, finish_failed _ [ra] rd .exhausted⟩
    rw [hval, bounded_of_legal hpos (by omega), boundedLoop_exhaust hdraw hrej]
  · intro h
    refine ⟨_, hexec (.error .invalidArg, st 0) (bounded_of_invalid h _), ?_⟩
    rw [hs]
    exact finish_failed s [ra] rd .invalidArg

/-! ### Bounded draws (R228, R249, R250) -/

/-- Settles O29: the command finishes with a bounded draw along the core's iterates. -/
theorem pcgBound32Result : Obligations.PcgBound32Result := by
  intro s rd e ra c hl hc
  have hends : BoundedEnds (.pcgBnd32 rd e ra) s rd ra 32 (2 ^ 32) (fun j => (PcgCore.step^[j] c).output.toNat)
      fun j => { s with pcg := s.pcg.set e.val (PcgCore.step^[j] c) } := by
    refine boundedEnds_of_exec (put := fun cs => { s with pcg := cs }) (fun _ => hl) (by simp [set_of_get hc]) (by decide)
      (pcgDraw_iterate hc) ?_
    rintro _ rfl
    rw [Function.iterate_zero_apply, set_of_get hc]
    exact exec_of_onPcg (i := .pcgBnd32 rd e ra) (lt_length_of_get hc) rfl
  exact ⟨spells_of_row rfl (by decide), hends.accepts, hends.exhausts, hends.rejects⟩

/-- The two bounded Xoshiro draws differ in their limits alone. -/
theorem xo_boundedEnds {i : Instr} {s : State} {rd ra : RegId} {e : CoreId} {c : XoCore} {limit : Nat}
    (hl : s.cfg.legal = true) (hc : s.xo[e.val]? = some c) (hlimit : limit ≤ 2 ^ 64)
    (hexec : exec i s = .next (s.onXo e fun s =>
      (s.readSources [ra]).finishXo rd (bounded (xoDraw e) 64 (s.val ra) limit s.cfg.retryMax s.xo))) :
    BoundedEnds i s rd ra 64 limit (fun j => (Machine.xoOutput (Machine.xoStep^[j] c)).toNat)
      fun j => { s with xo := s.xo.set e.val (Machine.xoStep^[j] c) } := by
  refine boundedEnds_of_exec (put := fun cs => { s with xo := cs }) (fun _ => hl) (by simp [set_of_get hc]) hlimit
    (xoDraw_iterate hc) ?_
  rintro _ rfl
  rw [Function.iterate_zero_apply, set_of_get hc]
  exact exec_of_onXo (lt_length_of_get hc) hexec

/-- Settles O30, from the scheme with limit 2^64. -/
theorem xoBound64Result : Obligations.XoBound64Result := by
  intro s rd e ra c hl hc
  have hends := xo_boundedEnds (i := .xoBnd64 rd e ra) (limit := 2 ^ 64) hl hc le_rfl rfl
  refine ⟨spells_of_row rfl (by decide), fun b k hval hpos hle hk hrej hacc => ?_, hends.exhausts, hends.rejects⟩
  obtain ⟨t, hexec, hsucc, hholds, hpcg, hxo⟩ := hends.accepts b k hval hpos hle hk hrej hacc
  exact ⟨t, hexec, hsucc, hholds, hxo, hpcg⟩

/-- Settles O31, from the scheme with limit 2^32. -/
theorem xoBound32Result : Obligations.XoBound32Result := by
  intro s rd e ra c hl hc
  have hends := xo_boundedEnds (i := .xoBnd32 rd e ra) (limit := 2 ^ 32) hl hc (by decide) rfl
  refine ⟨spells_of_row rfl (by decide), fun b k hval hpos hle hk hrej hacc => ?_, hends.exhausts, hends.rejects⟩
  obtain ⟨t, hexec, hsucc, hholds, hpcg, hxo⟩ := hends.accepts b k hval hpos hle hk hrej hacc
  exact ⟨t, hexec, hsucc, hholds, hxo, hpcg⟩

/-- A command that finishes with a bounded draw and no error holds a value in [0, bound) (R230). -/
theorem finish_bounded_range {σ : Type} {draw : σ → Nat × σ} {s : State} {rd : RegId} {n m : Nat} {bound limit : Int}
    {st : σ} (hl : s.cfg.legal = true) (hlimit : limit ≤ 2 ^ 64)
    (h : (s.finish rd (bounded draw n bound limit m st).1).err = false) :
    0 ≤ (s.finish rd (bounded draw n bound limit m st).1).val rd ∧
      (s.finish rd (bounded draw n bound limit m st).1).val rd < bound := by
  cases hr : (bounded draw n bound limit m st).1 with
  | error e =>
    rw [hr] at h
    cases h
  | ok v =>
    obtain ⟨h0, hv, hbound⟩ := bounded_range hr
    obtain ⟨w, rfl⟩ := Int.eq_ofNat_of_zero_le h0
    rw [(finish_holds_nat hl rd (by omega)).1]
    exact ⟨h0, hv⟩

/-- Settles O32: each of the three commands without an error has finished with a bounded draw. -/
theorem boundedResultsInRange : Obligations.BoundedResultsInRange := by
  rintro s t rd e ra i hl (rfl | rfl | rfl) h herr <;> cases h
  · have hrun := onPcg_of_err_eq_false herr
    rw [hrun] at herr ⊢
    exact finish_bounded_range (s := State.readSources { s with pcg := _ } [ra]) hl (by norm_num) herr
  · have hrun := onXo_of_err_eq_false herr
    rw [hrun] at herr ⊢
    exact finish_bounded_range (s := State.readSources { s with xo := _ } [ra]) hl le_rfl herr
  · have hrun := onXo_of_err_eq_false herr
    rw [hrun] at herr ⊢
    exact finish_bounded_range (s := State.readSources { s with xo := _ } [ra]) hl (by norm_num) herr

end Sys2Proof.Machine
end

section
/-! Where the all-zero Xoshiro core comes from (42_prng.md R251): command by command, and step by step. -/

namespace Sys2Proof.Machine

open Sys2Proof.Spec

/-- Core `k` is there and all its words are zero (R251). -/
def ZeroCore (k : Nat) (cs : List XoCore) : Prop := cs[k]? = some ⟨0, 0, 0, 0⟩

/-- Setting a core makes core `k` all zero only with the all-zero core. -/
theorem zeroCore_of_set {k n : Nat} {c : XoCore} {cs : List XoCore} (h : ZeroCore k (cs.set n c)) :
    ZeroCore k cs ∨ n = k ∧ c = ⟨0, 0, 0, 0⟩ := by
  by_cases hn : n = k
  · subst hn
    rw [ZeroCore, List.getElem?_set_self'] at h
    obtain ⟨_, -, hc⟩ := Option.map_eq_some_iff.mp h
    exact .inr ⟨rfl, hc⟩
  · rw [ZeroCore, List.getElem?_set_ne hn] at h
    exact .inl h

/-- No draw makes a core all zero. -/
theorem zeroCore_of_xoDraw {k : Nat} {e : CoreId} {cs : List XoCore} (h : ZeroCore k (xoDraw e cs).2) :
    ZeroCore k cs := by
  cases hc : cs[e.val]? with
  | none => rwa [xoDraw, hc] at h
  | some c =>
    rw [xoDraw_of_get hc] at h
    rcases zeroCore_of_set h with h | ⟨rfl, hzero⟩
    · exact h
    · rw [ZeroCore, hc, eq_zero_of_xoStep_eq_zero hzero]

/-- Only the seed 0 loads the all-zero core. -/
theorem eq_zero_of_xoSeeded_eq_zero {v : Nat} (hv : v < 2 ^ 256) (h : xoSeeded v = ⟨0, 0, 0, 0⟩) : v = 0 := by
  rw [xoSeeded_words hv, h]
  rfl

/-- The default core is not all zero (R12). -/
theorem Params.legal_xoDef {p : Params} (h : p.legal = true) : p.xoDef ≠ ⟨0, 0, 0, 0⟩ := by
  intro hzero
  simp [Params.legal, hzero] at h

/-- A command on a Xoshiro core leaves the cores as they were, or as its run leaves them. -/
theorem zeroCore_of_onXo {k : Nat} {s : State} {e : CoreId} {run : State → State} (h : ZeroCore k (s.onXo e run).xo) :
    ZeroCore k s.xo ∨ ZeroCore k (run s).xo := by
  by_cases he : e.val < s.xo.length
  · rw [State.onXo_of_lt he] at h
    exact .inr h
  · rw [State.onXo_of_not_lt he] at h
    exact .inl h

/-- No drawing command makes a core all zero. -/
theorem zeroCore_of_onXo_finishXo {k : Nat} {s : State} {e : CoreId} {rd : RegId} {f : State → State}
    {r : State → Except ErrCode Int × List XoCore} (hr : ZeroCore k (r s).2 → ZeroCore k s.xo)
    (h : ZeroCore k (s.onXo e fun s => (f s).finishXo rd (r s)).xo) : ZeroCore k s.xo := by
  rcases zeroCore_of_onXo h with h | h
  · exact h
  · rw [State.finishXo_xo] at h
    exact hr h

theorem xoSeed_zeroCore {k : Nat} {s t : State} {e : CoreId} {ra : RegId} (h : exec (.xoSeed e ra) s = .next t)
    (hz : ZeroCore k t.xo) : ZeroCore k s.xo ∨ e.val = k ∧ s.val ra = 0 := by
  cases h
  rcases zeroCore_of_onXo hz with hz | hz
  · exact .inl hz
  · split at hz
    · exact .inl hz
    · refine (zeroCore_of_set hz).imp_right fun ⟨hk, hseed⟩ => ⟨hk, ?_⟩
      have := eq_zero_of_xoSeeded_eq_zero (by omega) hseed
      omega

theorem xoDflt_zeroCore {k : Nat} {s t : State} {e : CoreId} (hl : s.cfg.legal = true)
    (h : exec (.xoDflt e) s = .next t) (hz : ZeroCore k t.xo) : ZeroCore k s.xo := by
  cases h
  rcases zeroCore_of_onXo hz with hz | hz
  · exact hz
  · exact (zeroCore_of_set hz).resolve_right fun ⟨_, hzero⟩ => Params.legal_xoDef hl hzero

/-- A command makes a core all zero only as XO.SEED with v = 0. -/
theorem exec_zeroCore {k : Nat} {i : Instr} {s t : State} (hl : s.cfg.legal = true) (h : exec i s = .next t)
    (hz : ZeroCore k t.xo) : ZeroCore k s.xo ∨ ∃ e ra, i = .xoSeed e ra ∧ e.val = k ∧ s.val ra = 0 := by
  have hdraw (e : CoreId) (cs : List XoCore) (hcs : ZeroCore k cs → ZeroCore k s.xo)
      (hd : ZeroCore k (xoDraw e cs).2) : ZeroCore k s.xo := hcs (zeroCore_of_xoDraw hd)
  have hunselected (hsel : xoCores i = []) : ZeroCore k s.xo :=
    ((exec_effects h).xoOther k (by simp [hsel])).symm.trans hz
  cases i with
  | residue | modpow | jacobi | mr2 | pcgSeed | pcgDflt | pcgNext | pcgBnd32 | flt32P | flt64PP =>
    exact .inl (hunselected rfl)
  | xoSeed e ra => exact (xoSeed_zeroCore h hz).imp_right fun hseed => ⟨e, ra, rfl, hseed⟩
  | xoDflt e => exact .inl (xoDflt_zeroCore hl h hz)
  | xoNext rd e =>
    cases h
    exact .inl (zeroCore_of_onXo_finishXo zeroCore_of_xoDraw hz)
  | xoBnd64 rd e ra | xoBnd32 rd e ra =>
    cases h
    exact .inl (zeroCore_of_onXo_finishXo (bounded_keeps (hdraw e) _ _ _ _ _ id) hz)
  | flt32X rd e =>
    cases h
    exact .inl (zeroCore_of_onXo_finishXo (synth_keeps (word := xoHighDraw e) (hdraw e) _ _ _ id) hz)
  | flt64X rd e =>
    cases h
    exact .inl (zeroCore_of_onXo_finishXo (synth_keeps (hdraw e) _ _ _ id) hz)

/-- A reset loads the default core everywhere (R370). -/
theorem not_zeroCore_replicate {p : Params} (hl : p.legal = true) (k n : Nat) : ¬ZeroCore k (List.replicate n p.xoDef) :=
  fun h => Params.legal_xoDef hl (List.eq_of_mem_replicate (List.mem_of_getElem? h)).symm

/-- A host access leaves the Xoshiro cores, or resets them (R58, R62). -/
theorem HostEffect.xo_eq_or {s t : State} {a : Access} (h : HostEffect s a t) :
    t.xo = s.xo ∨ t.xo = List.replicate s.cfg.nxo s.cfg.xoDef := by
  cases h with
  | softReset => exact .inr rfl
  | observed | accepted | status | ie | window => exact .inl rfl

/-- Settles O33, step by step: neither passing nor a reset makes a core all zero, and of the commands only XO.SEED does. -/
theorem allZeroXoOnlyBySeed : Obligations.AllZeroXoOnlyBySeed := by
  refine ⟨by decide, by decide, fun s t k hl h hz => ?_⟩
  rcases step_next_cases h with ⟨-, rfl⟩ | ⟨hm, he⟩ | ⟨a, rest, -, e⟩ | ⟨rest, -, rfl⟩
  · exact .inl hz
  · rcases engineStep_next_cases he with rfl | ⟨i, hd, hi⟩
    · exact .inl hz
    · exact (exec_zeroCore (s := { s with turns := s.turns.tail }) hl hi hz).imp_right fun ⟨e, ra, hseed, hk, hv⟩ =>
        ⟨e, ra, ⟨hm, hseed ▸ hd⟩, hk, hv⟩
  · rcases (access_effect e).xo_eq_or with hxo | hxo <;> rw [hxo] at hz
    · exact .inl hz
    · exact absurd hz (not_zeroCore_replicate hl k _)
  · exact absurd hz (not_zeroCore_replicate hl k _)

end Sys2Proof.Machine
end

section
/-! The float commands (43_float.md): each ends with a synthesis on the words its source supplies, and every pattern that
a synthesis returns lies below that of 1.0. -/

namespace Sys2Proof.Machine

open Sys2Proof.Spec

/-! ### The range of a synthesis (R283, R289) -/

/-- The bit pattern of 1.0, whose exponent B + 1 step 6 of R281 rejects. -/
def FloatFormat.one (f : FloatFormat) : Nat := (f.b + 1) * 2 ^ f.m

theorem float32_one : float32.one = 0x3F800000 := by decide

theorem float64_one : float64.one = 0x3FF0000000000000 := by decide

/-- An exponent of at most B gives a pattern below that of 1.0, whatever the mantissa. -/
theorem FloatFormat.pack_lt_one {f : FloatFormat} {ex man : Nat} (hex : ex < f.b + 1) (hman : man < 2 ^ f.m) :
    ex <<< f.m ||| man < f.one := by
  rw [← Nat.shiftLeft_add_eq_or_of_lt hman, Nat.shiftLeft_eq]
  calc ex * 2 ^ f.m + man < (ex + 1) * 2 ^ f.m := by rw [add_one_mul]; omega
    _ ≤ f.one := Nat.mul_le_mul_right _ hex

section
variable {σ : Type} {word : σ → Nat × σ} {f : FloatFormat} {v : Int}

theorem attempt_range {st : σ} (hf : f.Fits) (h : (attempt word f st).1 = some v) : 0 ≤ v ∧ v < f.one := by
  unfold attempt at h
  dsimp -zeta only at h
  extract_lets man ex at h
  split at h
  · cases h
  · obtain rfl := Option.some.inj h
    have hman : man < 2 ^ f.m := hf.mEq ▸ Nat.mod_lt _ (by positivity)
    exact ⟨Int.natCast_nonneg _, by exact_mod_cast f.pack_lt_one (by omega) hman⟩

/-- A value that a synthesis returns lies below the pattern of 1.0, since an accepted attempt's does. -/
theorem synth_range {k : Nat} {st : σ} (hf : f.Fits) (h : (synth word f k st).1 = .ok v) : 0 ≤ v ∧ v < f.one := by
  induction k generalizing st with
  | zero => cases h
  | succ k ih =>
    rw [synth] at h
    rcases ha : attempt word f st with ⟨_ | u, st'⟩ <;> rw [ha] at h
    · exact ih h
    · cases h
      exact attempt_range hf (congrArg Prod.fst ha)

/-- A command that finishes with a synthesis and no error holds a value below the pattern of 1.0. -/
theorem finish_synth_range {s : State} {rd : RegId} {k : Nat} {st : σ} (hf : f.Fits) (hone : f.one ≤ 2 ^ 64)
    (hl : s.cfg.legal = true) (h : (s.finish rd (synth word f k st).1).err = false) :
    0 ≤ (s.finish rd (synth word f k st).1).val rd ∧ (s.finish rd (synth word f k st).1).val rd < f.one := by
  cases hr : (synth word f k st).1 with
  | error e =>
    rw [hr] at h
    cases h
  | ok v =>
    obtain ⟨h0, hv⟩ := synth_range hf hr
    obtain ⟨w, rfl⟩ := Int.eq_ofNat_of_zero_le h0
    rw [(finish_holds_nat hl rd (by omega)).1]
    exact ⟨h0, hv⟩

end

/-! ### How a synthesis ends a command (R281, R320, R321) -/

/-- How a synthesis of format `f` ends the command `i`, when its source supplies the words `words` and the machine has
become `after j` once `j` of them are drawn. -/
structure FloatEnds (i : Instr) (s : State) (rd : RegId) (f : FloatFormat) (words : Nat → Nat) (after : Nat → State) :
    Prop where
  accepts (k : Nat) (hk : k < s.cfg.retryMax) (hrej : ∀ j < k, Rejected f.w f.l (words j))
    (hacc : ¬Rejected f.w f.l (words k)) :
    ∃ t, exec i s = .next t ∧ Succeeded t ∧ Holds t rd (pattern f.w f.l f.b f.m fun j => words (k + j)) ∧
      t.pcg = (after (k + wordsUsed f.w f.l f.b fun j => words (k + j))).pcg ∧
      t.xo = (after (k + wordsUsed f.w f.l f.b fun j => words (k + j))).xo
  exhausts (hrej : ∀ j < s.cfg.retryMax, Rejected f.w f.l (words j)) :
    ∃ t, exec i s = .next t ∧ FailedWith 3 (after s.cfg.retryMax) t

/-- A command ends so when it finishes with a synthesis, `put` storing the source's states in the machine. -/
theorem floatEnds_of_exec {σ : Type} {word : σ → Nat × σ} {words : Nat → Nat} {st : Nat → σ} {put : σ → State}
    {i : Instr} {s : State} {rd : RegId} {f : FloatFormat} (hf : f.Fits) (hone : f.one ≤ 2 ^ 64)
    (hl : ∀ x, (put x).cfg.legal = true) (hword : ∀ j, word (st j) = (words j, st (j + 1)))
    (hlt : ∀ j, words j < 2 ^ f.w)
    (hexec : ∀ r, synth word f s.cfg.retryMax (st 0) = r → exec i s = .next ((put r.2).finish rd r.1)) :
    FloatEnds i s rd f words fun j => put (st j) where
  accepts k hk hrej hacc := by
    have hsynth := synth_accept hf hword hlt hk hrej hacc
    have hbelow := (synth_range hf (congrArg Prod.fst hsynth)).2
    exact ⟨_, hexec _ hsynth, finish_succeeded _ rd _, finish_holds_nat (hl _) rd (by omega), rfl, rfl⟩
  exhausts hrej := ⟨_, hexec _ (synth_exhaust hf hword hlt hrej), rfl⟩

section
variable {i : Instr} {s : State} {rd : RegId} {f : FloatFormat} {words : Nat → Nat}

theorem floatEnds_of_finishPcg {word : List PcgCore → Nat × List PcgCore} {st : Nat → List PcgCore} (hf : f.Fits)
    (hone : f.one ≤ 2 ^ 64) (hl : s.cfg.legal = true) (hst : st 0 = s.pcg)
    (hword : ∀ j, word (st j) = (words j, st (j + 1))) (hlt : ∀ j, words j < 2 ^ f.w)
    (hexec : exec i s = .next (s.finishPcg rd (synth word f s.cfg.retryMax s.pcg))) :
    FloatEnds i s rd f words fun j => { s with pcg := st j } := by
  refine floatEnds_of_exec (put := fun cs => { s with pcg := cs }) hf hone (fun _ => hl) hword hlt ?_
  rintro _ rfl
  rwa [hst]

theorem floatEnds_of_finishXo {word : List XoCore → Nat × List XoCore} {st : Nat → List XoCore} (hf : f.Fits)
    (hone : f.one ≤ 2 ^ 64) (hl : s.cfg.legal = true) (hst : st 0 = s.xo)
    (hword : ∀ j, word (st j) = (words j, st (j + 1))) (hlt : ∀ j, words j < 2 ^ f.w)
    (hexec : exec i s = .next (s.finishXo rd (synth word f s.cfg.retryMax s.xo))) :
    FloatEnds i s rd f words fun j => { s with xo := st j } := by
  refine floatEnds_of_exec (put := fun cs => { s with xo := cs }) hf hone (fun _ => hl) hword hlt ?_
  rintro _ rfl
  rwa [hst]

end

/-! ### One core as the source (R285, R286, R287) -/

/-- The high halves of the draws on core `e`. -/
theorem xoHighDraw_iterate {cs : List XoCore} {e : CoreId} {c : XoCore} (h : cs[e.val]? = some c) (j : Nat) :
    xoHighDraw e (cs.set e.val (Machine.xoStep^[j] c)) =
      ((Machine.xoOutput (Machine.xoStep^[j] c)).toNat / 2 ^ 32, cs.set e.val (Machine.xoStep^[j + 1] c)) := by
  simp only [xoHighDraw, xoDraw_iterate h]

/-- Settles O34: the command finishes with a synthesis along the core's iterates. -/
theorem float32PcgResult : Obligations.Float32PcgResult := by
  intro s rd e c words hl hc hwords
  obtain rfl := funext hwords
  have hexec := exec_of_onPcg (i := .flt32P rd e) (lt_length_of_get hc) rfl
  have hends : FloatEnds (.flt32P rd e) s rd float32 (fun j => (PcgCore.step^[j] c).output.toNat)
      fun j => { s with pcg := s.pcg.set e.val (PcgCore.step^[j] c) } :=
    floatEnds_of_finishPcg float32_fits (by decide) hl (set_of_get hc) (pcgDraw_iterate hc)
      (fun j => (PcgCore.step^[j] c).output.isLt) hexec
  exact ⟨spells_of_row rfl (by decide), hends.accepts, hends.exhausts⟩

/-- Settles O35: the command finishes with a synthesis on the high halves along the core's iterates. -/
theorem float32XoResult : Obligations.Float32XoResult := by
  intro s rd e c words hl hc hwords
  obtain rfl := funext hwords
  have hexec := exec_of_onXo (i := .flt32X rd e) (lt_length_of_get hc) rfl
  have hends : FloatEnds (.flt32X rd e) s rd float32 (fun j => (Machine.xoOutput (Machine.xoStep^[j] c)).toNat / 2 ^ 32)
      fun j => { s with xo := s.xo.set e.val (Machine.xoStep^[j] c) } :=
    floatEnds_of_finishXo float32_fits (by decide) hl (set_of_get hc) (xoHighDraw_iterate hc)
      (fun j => Nat.div_lt_of_lt_mul (Machine.xoOutput (Machine.xoStep^[j] c)).isLt) hexec
  refine ⟨spells_of_row rfl (by decide), fun k hk hrej hacc => ?_, hends.exhausts⟩
  obtain ⟨t, hexec, hsucc, hholds, hpcg, hxo⟩ := hends.accepts k hk hrej hacc
  exact ⟨t, hexec, hsucc, hholds, hxo, hpcg⟩

/-- Settles O36: the command finishes with a synthesis along the core's iterates. -/
theorem float64XoResult : Obligations.Float64XoResult := by
  intro s rd e c words hl hc hwords
  obtain rfl := funext hwords
  have hexec := exec_of_onXo (i := .flt64X rd e) (lt_length_of_get hc) rfl
  have hends : FloatEnds (.flt64X rd e) s rd float64 (fun j => (Machine.xoOutput (Machine.xoStep^[j] c)).toNat)
      fun j => { s with xo := s.xo.set e.val (Machine.xoStep^[j] c) } :=
    floatEnds_of_finishXo float64_fits (by decide) hl (set_of_get hc) (xoDraw_iterate hc)
      (fun j => (Machine.xoOutput (Machine.xoStep^[j] c)).isLt) hexec
  refine ⟨spells_of_row rfl (by decide), fun k hk hrej hacc => ?_, hends.exhausts⟩
  obtain ⟨t, hexec, hsucc, hholds, hpcg, hxo⟩ := hends.accepts k hk hrej hacc
  exact ⟨t, hexec, hsucc, hholds, hxo, hpcg⟩

/-! ### Two halves as the source (R284, R288) -/

section
variable {cs : List PcgCore} {e f : CoreId} {c d : PcgCore}

/-- The high half is drawn from core `e`, the low half from core `f` as that draw has left it. -/
theorem pcgPairDraw_of_get (hc : cs[e.val]? = some c) (hd : (cs.set e.val c.step)[f.val]? = some d) :
    pcgPairDraw e f cs = (c.output.toNat * 2 ^ 32 + d.output.toNat, (cs.set e.val c.step).set f.val d.step) := by
  simp only [pcgPairDraw, pcgDraw_of_get hc, pcgDraw_of_get hd]

/-- Two cores advance in lock-step. -/
theorem pcgPairDraw_iterate_of_ne (hef : e ≠ f) (hc : cs[e.val]? = some c) (hd : cs[f.val]? = some d) (j : Nat) :
    pcgPairDraw e f ((cs.set e.val (PcgCore.step^[j] c)).set f.val (PcgCore.step^[j] d)) =
      ((PcgCore.step^[j] c).output.toNat * 2 ^ 32 + (PcgCore.step^[j] d).output.toNat,
        (cs.set e.val (PcgCore.step^[j + 1] c)).set f.val (PcgCore.step^[j + 1] d)) := by
  have hne : e.val ≠ f.val := fun h => hef (Fin.ext h)
  have he := lt_length_of_get hc
  have hf := lt_length_of_get hd
  rw [pcgPairDraw_of_get (c := PcgCore.step^[j] c) (d := PcgCore.step^[j] d) (by simp [hne.symm, he])
    (by simp [hne, hf]), List.set_comm _ _ hne.symm, List.set_set, List.set_set, Function.iterate_succ_apply',
    Function.iterate_succ_apply']

/-- One core makes two draws for each word. -/
theorem pcgPairDraw_iterate_self (hc : cs[e.val]? = some c) (j : Nat) :
    pcgPairDraw e e (cs.set e.val (PcgCore.step^[2 * j] c)) =
      ((PcgCore.step^[2 * j] c).output.toNat * 2 ^ 32 + (PcgCore.step^[2 * j + 1] c).output.toNat,
        cs.set e.val (PcgCore.step^[2 * (j + 1)] c)) := by
  have he := lt_length_of_get hc
  rw [pcgPairDraw_of_get (c := PcgCore.step^[2 * j] c) (d := PcgCore.step^[2 * j + 1] c) (by simp [he])
    (by simp [he, Function.iterate_succ_apply']), List.set_set, List.set_set, mul_add_one,
    ← Function.iterate_succ_apply' PcgCore.step]

end

theorem halves_lt (hi lo : Word32) : hi.toNat * 2 ^ 32 + lo.toNat < 2 ^ 64 := by
  have := hi.isLt
  have := lo.isLt
  omega

/-- Settles O37: the command finishes with a synthesis on the pairs of draws, in both forms of the source. -/
theorem float64PairResult : Obligations.Float64PairResult := by
  intro s rd e f c d words after hl hc hd hne hself
  have hends : FloatEnds (.flt64PP rd e f) s rd float64 words fun j => { s with pcg := after j } := by
    have hexec := exec_of_onPcg (i := .flt64PP rd e f) (lt_length_of_get hc) rfl
    rw [State.onPcg_of_lt (lt_length_of_get hd)] at hexec
    by_cases hef : e = f
    · obtain ⟨hwords, hafter⟩ := hself hef
      obtain rfl := funext hwords
      obtain rfl := funext hafter
      subst hef
      exact floatEnds_of_finishPcg float64_fits (by decide) hl (set_of_get hc) (pcgPairDraw_iterate_self hc)
        (fun _ => halves_lt _ _) hexec
    · obtain ⟨hwords, hafter⟩ := hne hef
      obtain rfl := funext hwords
      obtain rfl := funext hafter
      refine floatEnds_of_finishPcg float64_fits (by decide) hl ?_ (pcgPairDraw_iterate_of_ne hef hc hd)
        (fun _ => halves_lt _ _) hexec
      rw [Function.iterate_zero_apply, Function.iterate_zero_apply, set_of_get hc, set_of_get hd]
  exact ⟨spells_of_row rfl (by decide), hends.accepts, hends.exhausts⟩

/-! ### Every result is below 1.0 (R283, R289) -/

/-- Settles O38: each of the four commands without an error has finished with a synthesis. -/
theorem floatResultsBelowOne : Obligations.FloatResultsBelowOne := by
  intro s t rd e f i hl h herr
  constructor
  · rw [show (0x3F800000 : Int) = float32.one by rw [float32_one]; rfl]
    rintro (rfl | rfl) <;> cases h
    · have hrun := onPcg_of_err_eq_false herr
      rw [hrun] at herr ⊢
      exact finish_synth_range (s := { s with pcg := _ }) float32_fits (by decide) hl herr
    · have hrun := onXo_of_err_eq_false herr
      rw [hrun] at herr ⊢
      exact finish_synth_range (s := { s with xo := _ }) float32_fits (by decide) hl herr
  · rw [show (0x3FF0000000000000 : Int) = float64.one by rw [float64_one]; rfl]
    rintro (rfl | rfl) <;> cases h
    · have hrun := onXo_of_err_eq_false herr
      rw [hrun] at herr ⊢
      exact finish_synth_range (s := { s with xo := _ }) float64_fits (by decide) hl herr
    · have hrun := (onPcg_of_err_eq_false herr).trans (onPcg_of_err_eq_false (onPcg_of_err_eq_false herr ▸ herr))
      rw [hrun] at herr ⊢
      exact finish_synth_range (s := { s with pcg := _ }) float64_fits (by decide) hl herr

end Sys2Proof.Machine
end

section
/-! The statements of 60_exceptions.md about the engine's step: it is the decoded command, it ends that command in one of the
ways that STATUS reports, and an error completion writes no register. -/

namespace Sys2Proof.Machine

open Sys2Proof.Spec

/-! ### The step that runs a command (R320) -/

section
variable {s : State} (hb : s.busy = true)
include hb

theorem step_of_engine_turn {rest : List Turn} (ht : s.turns = .engine :: rest) :
    step s = engineStep { s with turns := rest } := by
  rw [step, ht]
  exact if_pos hb

theorem step_of_no_turn (ht : s.turns = []) : step s = engineStep s := by
  rw [step, ht]
  exact if_pos hb

end

theorem engineStep_of_decode {s : State} {i : Instr} (hd : decode s.cfg.npcg s.cfg.nxo s.pending = .ok i) :
    engineStep s = exec i s := by
  rw [engineStep, hd]

/-- Settles O7: BUSY = 1 makes the step the engine's, and the turns play no part in decoding. -/
theorem stepRunsDecodedCommand : Obligations.StepRunsDecodedCommand := by
  intro s i hb hd
  constructor
  · intro rest ht
    exact (step_of_engine_turn hb ht).trans (engineStep_of_decode hd)
  · intro ht
    exact (step_of_no_turn hb ht).trans (engineStep_of_decode hd)

/-! ### How a command ends (R320, R321) -/

/-- `t` is an error completion of `s` with code `e`: no register is written, and only EXHAUSTED leaves cores advanced. -/
structure EndsWithError (s t : State) (e : ErrCode) : Prop where
  busy : t.busy = false
  done : t.done = true
  err : t.err = true
  errcode : t.errcode = e.code
  x : t.x = s.x
  cores : e = .exhausted ∨ t.pcg = s.pcg ∧ t.xo = s.xo

theorem exec_succeeded_or_error {i : Instr} {s t : State} (h : exec i s = .next t) :
    Succeeded t ∨ ∃ e, EndsWithError s t e := by
  obtain ⟨mark, pcg, xo, -, hends⟩ := exec_form i s
  cases hends with
  | error e hcores heq =>
    obtain rfl := Host.Outcome.next.inj (h.symm.trans heq)
    exact .inr ⟨e, rfl, rfl, rfl, rfl, rfl, hcores⟩
  | plain heq =>
    obtain rfl := Host.Outcome.next.inj (h.symm.trans heq)
    exact .inl ⟨rfl, rfl, rfl, rfl⟩
  | write rd v _ heq =>
    obtain rfl := Host.Outcome.next.inj (h.symm.trans heq)
    exact .inl ⟨rfl, rfl, rfl, rfl⟩

theorem engineStep_succeeded_or_error {s t : State} (h : engineStep s = .next t) :
    Succeeded t ∨ ∃ e, EndsWithError s t e := by
  rcases engineStep_next_cases h with rfl | ⟨i, -, hexec⟩
  · exact .inr ⟨.illegal, rfl, rfl, rfl, rfl, rfl, .inr ⟨rfl, rfl⟩⟩
  · exact exec_succeeded_or_error hexec

theorem ErrCode.code_cases (e : ErrCode) : e.code = 1 ∨ e.code = 2 ∨ e.code = 3 := by cases e <;> decide

/-- The codes of ILLEGAL and INVALID_ARG are not that of EXHAUSTED (R322, R323, R324). -/
theorem ErrCode.ne_exhausted_of_code {e : ErrCode} (h : e.code = 1 ∨ e.code = 2) : e ≠ .exhausted := by
  rintro rfl
  revert h
  decide

/-- Settles O12: of the ways a command ends, ERR = 1 leaves the error completion. -/
theorem errorCompletionFrame : Obligations.ErrorCompletionFrame := by
  intro i s t h herr
  rcases exec_succeeded_or_error h with ⟨-, -, hok, -⟩ | ⟨e, hend⟩
  · rw [hok] at herr
    cases herr
  · refine ⟨hend.x, fun hcode => ?_⟩
    rw [hend.errcode] at hcode
    exact hend.cores.resolve_left (ErrCode.ne_exhausted_of_code hcode)

/-- Settles O9: the engine's step answers a next state, which is one of the ways a command ends. -/
theorem engineStepEndsCommand : Obligations.EngineStepEndsCommand := by
  intro s rest hb ht
  have hstep : engineStep { s with turns := rest } = .next (State.engineMove { s with turns := rest }) := engineStep_eq hb
  obtain ⟨-, -, -, -, -, -, hturns, -⟩ := engineStep_frame hstep
  refine ⟨_, (step_of_engine_turn hb ht).trans hstep, hturns, ?_⟩
  refine (engineStep_succeeded_or_error hstep).imp_right fun ⟨e, hend⟩ => ?_
  exact ⟨hend.busy, hend.done, hend.err, hend.errcode ▸ e.code_cases⟩

end Sys2Proof.Machine
end

section
/-! What power-on reset leaves (70_reset_and_hazards.md R370). `State.reset` is one power-on reset among the others, the
reset of itself, so what holds after every power-on reset holds of it. -/

namespace Sys2Proof

/-! ### The default parameters are legal (00_scope.md section 3) -/

/-- R12: the open words of XO_DEF are never the all-zero quadruple. -/
theorem Config.xoDef_ne_zero : Config.xoDef ≠ ⟨0, 0, 0, 0⟩ := by
  unfold Config.xoDef
  split
  next => decide
  next hraw =>
    intro hzero
    obtain ⟨h0, h1, h2, h3⟩ := XoCore.mk.inj hzero
    exact hraw ⟨h0, h1, h2, h3⟩

/-- R11: PCG_DEF_INC is odd, whatever its open bits. -/
theorem Config.default_pcgDefInc_odd : Config.default.pcgDefInc.getLsbD 0 = true := by
  change (Config.pcgDefIncHigh ++ 1#1).getLsbD 0 = true
  rw [BitVec.getLsbD_append]
  rfl

theorem Config.default_legal : Config.default.legal = true := by
  have hinc := Config.default_pcgDefInc_odd
  have hxo : Config.default.xoDef ≠ ⟨0, 0, 0, 0⟩ := Config.xoDef_ne_zero
  have habase : Config.default.abase % 0x4000 = 0 := Nat.mul_mod_right 0x4000 Config.abaseBlock
  simp only [Params.legal, hinc, habase, beq_eq_false_iff_ne.mpr hxo]
  rfl

end Sys2Proof

namespace Sys2Proof.Machine

/-- Settles O5: a reset to legal parameters is legal, and the defaults are. -/
theorem resetIsLegal : Obligations.ResetIsLegal := State.resetWith_inv Config.default_legal

/-! ### The values after power-on reset -/

theorem State.powerOn_reset : State.reset.powerOn = State.reset := rfl

theorem step_of_powerOn_turn {s : State} {rest : List Turn} (ht : s.turns = .powerOn :: rest) :
    step s = .next (State.powerOn { s with turns := rest }) := by
  rw [step, ht]

/-- R34, R370: power-on reset clears the written flag of every operand word. -/
theorem State.powerOn_unwritten (s : State) {r : RegId} {w : OpWord} (hw : w ∈ s.powerOn.x[r]) : w.written = false := by
  have hx : s.powerOn.x[r] = OpReg.reset s.cfg := by simp
  rw [hx] at hw
  rw [List.eq_of_mem_replicate hw]

/-- Settles O59: in both cases the state is that of a power-on reset. -/
theorem powerOnResetValues : Obligations.PowerOnResetValues := by
  intro t ht
  obtain ⟨s, rfl⟩ : ∃ s : State, t = s.powerOn := by
    rcases ht with rfl | ⟨s, rest, hturn, hstep⟩
    · exact ⟨State.reset, State.powerOn_reset.symm⟩
    · exact ⟨_, Host.Outcome.next.inj (hstep.symm.trans (step_of_powerOn_turn hturn))⟩
  have hirq : s.powerOn.irq = false := irq_eq_false_of_done s.powerOn_done
  exact ⟨rfl, rfl, rfl, rfl, rfl, rfl, rfl, hirq, rfl, fun r w hw => s.powerOn_unwritten hw, rfl, rfl⟩

end Sys2Proof.Machine
end
